-- ==== Sys2Proof/Word.lean ====
section
/-! DEFINITION. The words of the block: a sample, a frame and what belongs to each channel or lane (00_scope.md R10, R13;
20_memory.md R62, R63). -/
namespace Sys2Proof

/-- A byte on the `PSG_WR` port (00_scope.md R10). -/
abbrev Byte := BitVec 8

/-- `v` lies in the signed 16-bit range of a sample (00_scope.md R10, R13). -/
abbrev IsSample (v : Int) : Prop := -32768 ≤ v ∧ v ≤ 32767

/-- One (left, right) pair of samples, left first (20_memory.md R62). A sample is moved whole, so it is an integer here, not
a pair of bytes (R63). -/
structure Frame where
  l : Int
  r : Int
deriving DecidableEq, Repr

/-- Both samples of the frame lie in the signed 16-bit range (20_memory.md R62). -/
abbrev Frame.InRange (f : Frame) : Prop := IsSample f.l ∧ IsSample f.r

/-- Silence on both lanes: the frame CONSUME fills with (43_fifo_ops.md R207). -/
def Frame.zero : Frame := ⟨0, 0⟩

/-- The two stereo lanes of anything kept per lane (00_scope.md R13). -/
structure Stereo (α : Type) where
  l : α
  r : α
deriving DecidableEq, Repr

/-- The three tone channels T0, T1, T2 (00_scope.md R13). -/
inductive ToneCh where
  | t0 | t1 | t2
deriving DecidableEq, Repr

/-- The four channels: T0, T1, T2 and the noise channel N, index 3 (00_scope.md R13). -/
inductive Chan where
  | t0 | t1 | t2 | n
deriving DecidableEq, Repr

/-- A tone channel as one of the four channels. -/
def ToneCh.chan : ToneCh → Chan
  | .t0 => .t0
  | .t1 => .t1
  | .t2 => .t2

/-- The channel index `c` of a tone channel. -/
def ToneCh.index : ToneCh → Nat
  | .t0 => 0
  | .t1 => 1
  | .t2 => 2

/-- The channel index `c`, 0 to 3. -/
def Chan.index : Chan → Nat
  | .t0 => 0
  | .t1 => 1
  | .t2 => 2
  | .n => 3

/-- One value for each tone channel. -/
structure PerTone (α : Type) where
  t0 : α
  t1 : α
  t2 : α
deriving DecidableEq, Repr

/-- One value for each of the four channels. -/
structure PerChan (α : Type) where
  t0 : α
  t1 : α
  t2 : α
  n  : α
deriving DecidableEq, Repr

namespace PerTone
variable {α : Type}

/-- `x[c]` (00_scope.md R12). -/
def get (x : PerTone α) : ToneCh → α
  | .t0 => x.t0
  | .t1 => x.t1
  | .t2 => x.t2

/-- `x[c] <- v` (00_scope.md R12). -/
def set (x : PerTone α) (c : ToneCh) (v : α) : PerTone α :=
  match c with
  | .t0 => { x with t0 := v }
  | .t1 => { x with t1 := v }
  | .t2 => { x with t2 := v }

end PerTone

namespace PerChan
variable {α : Type}

/-- `x[c]` (00_scope.md R12). -/
def get (x : PerChan α) : Chan → α
  | .t0 => x.t0
  | .t1 => x.t1
  | .t2 => x.t2
  | .n => x.n

/-- `x[c] <- v` (00_scope.md R12). -/
def set (x : PerChan α) (c : Chan) (v : α) : PerChan α :=
  match c with
  | .t0 => { x with t0 := v }
  | .t1 => { x with t1 := v }
  | .t2 => { x with t2 := v }
  | .n => { x with n := v }

end PerChan

end Sys2Proof
end

