-- ==== Sys2Proof/Config.lean ====
section
/-! DEFINITION. What an implementation fixes: the parameters with their constraints (00_scope.md R4 to R7), and the free values
the spec leaves open (20_memory.md R72, R76, R78). -/
namespace Sys2Proof

/-- The two alternatives of `DATA_NONTONE` (00_scope.md R4; 40_psg_writes.md R127). -/
inductive DataNontone where
  | ignore
  | low4
deriving DecidableEq, Repr

/-- One biquad coefficient set in Q14 (00_scope.md R5). -/
structure Coefs where
  b0 : Int
  b1 : Int
  b2 : Int
  a1 : Int
  a2 : Int
deriving DecidableEq, Repr

/-- `LPF_BYPASS`, which is fixed (00_scope.md R5). -/
def Coefs.bypass : Coefs := ⟨16384, 0, 0, 0, 0⟩

/-- `NOISE_DIV[0..2]` (00_scope.md R4). -/
structure NoiseDiv where
  d0 : Nat
  d1 : Nat
  d2 : Nat
deriving DecidableEq, Repr

/-- The reset-time parameters (00_scope.md R4 to R7): handed to the block by the host, latched by RESET_HARD
(44_system_ops.md R230), written by nothing else. -/
structure Params where
  unit         : Nat
  updateStep   : Nat
  outCeil      : Nat
  volCeil      : Nat
  vol          : Vector Nat 16
  tapsWhite    : BitVec 16
  tapsPeriodic : BitVec 16
  lfsrPreset   : BitVec 16
  noiseDiv     : NoiseDiv
  noiseLinkCh  : ToneCh
  dataNontone  : DataNontone
  alphaQ15     : Nat
  lpfFull      : Coefs
  capacity     : Nat
deriving DecidableEq, Repr

/-- `v` lies in -32768..32767, the range of a coefficient (00_scope.md R5). -/
abbrev IsCoef (v : Int) : Prop := -32768 ≤ v ∧ v ≤ 32767

/-- The constraint on `LPF_FULL`: every coefficient in range, and the poles, the roots of `z^2 + (a1/16384) z + a2/16384`,
strictly inside the unit circle (00_scope.md R5). DEDUCED: the root condition is written as the triangle
`|a2| < 16384`, `|a1| < 16384 + a2`, which is equivalent to it (log 13). -/
abbrev Coefs.Valid (k : Coefs) : Prop :=
  IsCoef k.b0 ∧ IsCoef k.b1 ∧ IsCoef k.b2 ∧ IsCoef k.a1 ∧ IsCoef k.a2 ∧
  -16384 < k.a2 ∧ k.a2 < 16384 ∧ -(16384 + k.a2) < k.a1 ∧ k.a1 < 16384 + k.a2

/-- The constraint on the volume table: `VOL[0] = VOL_CEIL`, `VOL[15] = 0`, never rising, no entry above `OUT_CEIL`
(00_scope.md R4). -/
abbrev Params.VolValid (p : Params) : Prop :=
  p.vol[0] = p.volCeil ∧ p.vol[15] = 0 ∧
  (∀ i : Fin 15, p.vol[i.val + 1] ≤ p.vol[i.val]) ∧ (∀ i : Fin 16, p.vol[i.val] ≤ p.outCeil)

/-- The constraints of 00_scope.md R4, R5 and R6 on the reset-time parameters. A use that violates one is refused
(60_exceptions.md R242). -/
abbrev Params.Valid (p : Params) : Prop :=
  1 ≤ p.unit ∧ 1 ≤ p.updateStep ∧
  (1 ≤ p.outCeil ∧ p.outCeil ≤ 32767) ∧ p.volCeil ≤ p.outCeil ∧ p.VolValid ∧
  p.tapsWhite.getLsbD 0 = true ∧ p.tapsPeriodic.getLsbD 0 = true ∧ p.lfsrPreset ≠ 0#16 ∧
  (1 ≤ p.noiseDiv.d0 ∧ 1 ≤ p.noiseDiv.d1 ∧ 1 ≤ p.noiseDiv.d2) ∧
  p.alphaQ15 < 32768 ∧ p.lpfFull.Valid ∧ 2 ≤ p.capacity

/-- The live inputs (00_scope.md R5): they may change between any two EMU operations (44_system_ops.md R233). -/
structure Live where
  lpfPct : Int
  fmEn   : Bool
  psgEn  : Bool
deriving DecidableEq, Repr

/-- FREE VALUE (log 6): the `k`-th choice the spec leaves open and the environment has not supplied: which published value an
acquire load returns (20_memory.md R72), which of the remaining slot accesses comes next (R74, R75), whose turn it is (R76).
No body: a claim holds whatever it is. -/
opaque Config.freeDraw : Nat → Nat

/-- FREE VALUE (log 9): the two 16-bit words a slot that was never written would read as, by slot index and draw counter
(10_state.md R36, R41; 93_implementation_defined.md U14). No body. -/
opaque Config.unwrittenSlot : Nat → Nat → BitVec 32

end Sys2Proof
end

