-- ==== Sys2Proof/Syntax.lean ====
section
/-! DEFINITION. The operations of the block, one constructor per row of spec/opcode_table.json, the ports they are used
through (30_encoding.md R90, R92, R102) and the agents that use them (00_scope.md R8). -/
namespace Sys2Proof

/-- The two agents (00_scope.md R8; 60_exceptions.md R253). -/
inductive Agent where
  | emu
  | aud
deriving DecidableEq, Repr

/-- One operation: one use of a port (30_encoding.md R90). A byte's coded fields are bit vectors of their own width and its
ignored bits are not kept (R99); the plain values of the other operand buses are integers and naturals, whose declared ranges
`Instr.wf` checks (R102). -/
inductive Instr where
  | toneLatch0 (d : BitVec 4)
  | volWrite0  (d : BitVec 4)
  | toneLatch1 (d : BitVec 4)
  | volWrite1  (d : BitVec 4)
  | toneLatch2 (d : BitVec 4)
  | volWrite2  (d : BitVec 4)
  | noiseCtrl  (f : BitVec 1) (nn : BitVec 2)
  | volWrite3  (d : BitVec 4)
  | data       (u : BitVec 6)
  | sample
  | update     (n : Nat)
  | mix        (fmL fmR : Int) (psg : Nat)
  | filter     (xL xR : Int)
  | produce    (burst : List Frame)
  | consume    (n : Nat)
  | count
  | resetHard
  | resetSoft
deriving DecidableEq, Repr

/-- What the host puts on a port's operand bus, each bus at the width of 30_encoding.md R102 (a burst is one 32-bit word a
frame). The port is the constructor; only `psgWr` needs decoding (R91). -/
inductive PortUse where
  | psgWr    (b : Byte)
  | psgSmp
  | psgUpd   (n : BitVec 16)
  | mixIn    (operands : BitVec 48)
  | fltIn    (operands : BitVec 32)
  | fifoPush (burst : List (BitVec 32))
  | fifoPop  (n : BitVec 16)
  | fifoCnt
  | rst      (h : BitVec 1)
deriving DecidableEq, Repr

/-- The agent that owns the port (30_encoding.md R90; 60_exceptions.md R250). -/
def PortUse.agent : PortUse → Agent
  | .psgWr _ => .emu
  | .psgSmp => .emu
  | .psgUpd _ => .emu
  | .mixIn _ => .emu
  | .fltIn _ => .emu
  | .fifoPush _ => .emu
  | .fifoPop _ => .aud
  | .fifoCnt => .emu
  | .rst _ => .emu

/-- The agent that issues the operation: CONSUME is AUD's, everything else EMU's (00_scope.md R8). -/
def Instr.agent : Instr → Agent
  | .toneLatch0 _ => .emu
  | .volWrite0 _ => .emu
  | .toneLatch1 _ => .emu
  | .volWrite1 _ => .emu
  | .toneLatch2 _ => .emu
  | .volWrite2 _ => .emu
  | .noiseCtrl _ _ => .emu
  | .volWrite3 _ => .emu
  | .data _ => .emu
  | .sample => .emu
  | .update _ => .emu
  | .mix _ _ _ => .emu
  | .filter _ _ => .emu
  | .produce _ => .emu
  | .consume _ => .aud
  | .count => .emu
  | .resetHard => .emu
  | .resetSoft => .emu

end Sys2Proof
end

