-- ==== Sys2Proof/WellFormed.lean ====
section
/-! DEFINITION. Which instruction terms stand for a use of a port: every operand lies in its declared range
(30_encoding.md R102). -/
namespace Sys2Proof

/-- Every operand fits its operand bus (30_encoding.md R102): samples signed 16-bit, `psg` and the counts `n` unsigned 16-bit.
A burst may have any length, and a coded field of a byte always fits. -/
def Instr.wf (i : Instr) : Bool :=
  match i with
  | .toneLatch0 _ => true
  | .volWrite0 _ => true
  | .toneLatch1 _ => true
  | .volWrite1 _ => true
  | .toneLatch2 _ => true
  | .volWrite2 _ => true
  | .noiseCtrl _ _ => true
  | .volWrite3 _ => true
  | .data _ => true
  | .sample => true
  | .update n => decide (n < 65536)
  | .mix fmL fmR psg => decide (IsSample fmL ∧ IsSample fmR ∧ psg < 65536)
  | .filter xL xR => decide (IsSample xL ∧ IsSample xR)
  | .produce burst => decide (∀ f ∈ burst, f.InRange)
  | .consume n => decide (n < 65536)
  | .count => true
  | .resetHard => true
  | .resetSoft => true

end Sys2Proof
end

