-- ==== Sys2Proof/Decode.lean ====
section
/-! DEFINITION. From a use of a port to the operation it is, and back (30_encoding.md R91 to R102, R106). On `PSG_WR` the bits
of the byte select the operation; on every other port the port does and the bus carries plain values. Nothing is rejected:
no byte value is illegal (R98). -/
namespace Sys2Proof

/-- The two 16-bit samples of a 32-bit operand word, left in the high half, each two's complement (30_encoding.md R102). -/
def frameOfWord (w : BitVec 32) : Frame :=
  ⟨(BitVec.extractLsb' 16 16 w).toInt, (BitVec.extractLsb' 0 16 w).toInt⟩

/-- The operand word of a frame: left sample in the high half (30_encoding.md R102). -/
def wordOfFrame (f : Frame) : BitVec 32 :=
  BitVec.ofInt 16 f.l ++ BitVec.ofInt 16 f.r

/-- The tone-period latch byte of a channel (30_encoding.md R94). -/
def toneLatchOf (c : ToneCh) (d : BitVec 4) : Instr :=
  match c with
  | .t0 => .toneLatch0 d
  | .t1 => .toneLatch1 d
  | .t2 => .toneLatch2 d

/-- The volume latch byte of a channel (30_encoding.md R94). -/
def volWriteOf (c : Chan) (d : BitVec 4) : Instr :=
  match c with
  | .t0 => .volWrite0 d
  | .t1 => .volWrite1 d
  | .t2 => .volWrite2 d
  | .n => .volWrite3 d

/-- The channel a 2-bit field names: 0, 1, 2 for T0, T1, T2 and 3 for N (30_encoding.md R92). -/
def chanOfBits (c : BitVec 2) : Chan :=
  if c = 0#2 then .t0 else if c = 1#2 then .t1 else if c = 2#2 then .t2 else .n

/-- The operation of a byte on `PSG_WR`, total on all 256 values (30_encoding.md R93). Bit 3 of a noise-control byte and bit 6
of a data byte are not decoded (R99). -/
def decodeByte (b : Byte) : Instr :=
  if b.getLsbD 7 then
    let r : BitVec 3 := BitVec.extractLsb' 4 3 b
    let d : BitVec 4 := BitVec.extractLsb' 0 4 b
    if r = 6#3 then .noiseCtrl (BitVec.extractLsb' 2 1 d) (BitVec.extractLsb' 0 2 d)
    else if r.getLsbD 0 then volWriteOf (chanOfBits (BitVec.extractLsb' 1 2 r)) d
    else if r = 0#3 then .toneLatch0 d
    else if r = 2#3 then .toneLatch1 d
    else .toneLatch2 d
  else .data (BitVec.extractLsb' 0 6 b)

/-- The operation a use of a port is: first by the port, then, on `PSG_WR` only, by the byte (30_encoding.md R91, R106). `RST`
carries `h`: 1 is hard, 0 is soft (R90). -/
def decode : PortUse → Instr
  | .psgWr b => decodeByte b
  | .psgSmp => .sample
  | .psgUpd n => .update n.toNat
  | .mixIn w =>
    .mix (BitVec.extractLsb' 32 16 w).toInt (BitVec.extractLsb' 16 16 w).toInt (BitVec.extractLsb' 0 16 w).toNat
  | .fltIn w => .filter (frameOfWord w).l (frameOfWord w).r
  | .fifoPush ws => .produce (ws.map frameOfWord)
  | .fifoPop n => .consume n.toNat
  | .fifoCnt => .count
  | .rst h => if h = 1#1 then .resetHard else .resetSoft

/-- The latch byte `1 rrr dddd` (30_encoding.md R92, R94). -/
def latchByte (r : BitVec 3) (d : BitVec 4) : Byte := (1#1 ++ r) ++ d

/-- The use of a port that is this operation, with every ignored bit 0 (30_encoding.md R94, R102, R104). -/
def encode : Instr → PortUse
  | .toneLatch0 d => .psgWr (latchByte 0#3 d)
  | .volWrite0 d => .psgWr (latchByte 1#3 d)
  | .toneLatch1 d => .psgWr (latchByte 2#3 d)
  | .volWrite1 d => .psgWr (latchByte 3#3 d)
  | .toneLatch2 d => .psgWr (latchByte 4#3 d)
  | .volWrite2 d => .psgWr (latchByte 5#3 d)
  | .noiseCtrl f nn => .psgWr (latchByte 6#3 ((0#1 ++ f) ++ nn))
  | .volWrite3 d => .psgWr (latchByte 7#3 d)
  | .data u => .psgWr (0#2 ++ u)
  | .sample => .psgSmp
  | .update n => .psgUpd (BitVec.ofNat 16 n)
  | .mix fmL fmR psg => .mixIn ((BitVec.ofInt 16 fmL ++ BitVec.ofInt 16 fmR) ++ BitVec.ofNat 16 psg)
  | .filter xL xR => .fltIn (wordOfFrame ⟨xL, xR⟩)
  | .produce burst => .fifoPush (burst.map wordOfFrame)
  | .consume n => .fifoPop (BitVec.ofNat 16 n)
  | .count => .fifoCnt
  | .resetHard => .rst 1#1
  | .resetSoft => .rst 0#1

/-- A use of a port with its ignored bits cleared: bit 6 of a data byte and bit 3 of a noise-control byte (30_encoding.md
R99). -/
def PortUse.canonical : PortUse → PortUse
  | .psgWr b =>
    if b.getLsbD 7 = false then .psgWr (b &&& 0xBF#8)
    else if BitVec.extractLsb' 4 3 b = 6#3 then .psgWr (b &&& 0xF7#8)
    else .psgWr b
  | .psgSmp => .psgSmp
  | .psgUpd n => .psgUpd n
  | .mixIn w => .mixIn w
  | .fltIn w => .fltIn w
  | .fifoPush ws => .fifoPush ws
  | .fifoPop n => .fifoPop n
  | .fifoCnt => .fifoCnt
  | .rst h => .rst h

/-- One row of 30_encoding.md R94: a byte `b` selects the row where `b AND mask = pattern`. -/
structure ByteRow where
  mnemonic : String
  pattern  : Byte
  mask     : Byte
deriving DecidableEq, Repr

/-- The nine rows of 30_encoding.md R94, in the table's order. -/
def byteRows : List ByteRow :=
  [⟨"TONE_LATCH.0", 0x80#8, 0xF0#8⟩, ⟨"VOL_WRITE.0", 0x90#8, 0xF0#8⟩, ⟨"TONE_LATCH.1", 0xA0#8, 0xF0#8⟩,
   ⟨"VOL_WRITE.1", 0xB0#8, 0xF0#8⟩, ⟨"TONE_LATCH.2", 0xC0#8, 0xF0#8⟩, ⟨"VOL_WRITE.2", 0xD0#8, 0xF0#8⟩,
   ⟨"NOISE_CTRL", 0xE0#8, 0xF0#8⟩, ⟨"VOL_WRITE.3", 0xF0#8, 0xF0#8⟩, ⟨"DATA", 0x00#8, 0x80#8⟩]

/-- The byte selects the row (30_encoding.md R94). -/
def ByteRow.selects (row : ByteRow) (b : Byte) : Bool := b &&& row.mask == row.pattern

/-- The row of 30_encoding.md R94 that an operation on `PSG_WR` belongs to; none for an operation of another port. -/
def Instr.byteRow : Instr → Option String
  | .toneLatch0 _ => some "TONE_LATCH.0"
  | .volWrite0 _ => some "VOL_WRITE.0"
  | .toneLatch1 _ => some "TONE_LATCH.1"
  | .volWrite1 _ => some "VOL_WRITE.1"
  | .toneLatch2 _ => some "TONE_LATCH.2"
  | .volWrite2 _ => some "VOL_WRITE.2"
  | .noiseCtrl _ _ => some "NOISE_CTRL"
  | .volWrite3 _ => some "VOL_WRITE.3"
  | .data _ => some "DATA"
  | .sample => none
  | .update _ => none
  | .mix _ _ _ => none
  | .filter _ _ => none
  | .produce _ => none
  | .consume _ => none
  | .count => none
  | .resetHard => none
  | .resetSoft => none

/-- The `k` 32-bit words of a number, the first word in its low bits. DESIGN CHOICE (log 2): 30_encoding.md R102 lays out one frame and
gives a table word of several frames no order; the burst's first frame is put in the lowest 32 bits. -/
def wordsOfNat : Nat → Nat → List (BitVec 32)
  | 0, _ => []
  | k + 1, w => BitVec.ofNat 32 w :: wordsOfNat k (w / 4294967296)

/-- The use of a port that a row of spec/opcode_table.json of this width with these bits stands for. DESIGN CHOICE (log 2): a
table word does not say its port (30_encoding.md R106 dispatches on the row's `format` first), so the width chooses it, the
earliest row of that width in the table: 0 SAMPLE, 1 to 7 RST, 8 PSG_WR, 16 UPDATE, 32 FILTER, 48 MIX, two frames or more
PRODUCE. -/
def tableUse (nbits w : Nat) : Option PortUse :=
  if nbits = 0 then some .psgSmp
  else if nbits < 8 then some (.rst (BitVec.ofNat 1 w))
  else if nbits = 8 then some (.psgWr (BitVec.ofNat 8 w))
  else if nbits = 16 then some (.psgUpd (BitVec.ofNat 16 w))
  else if nbits = 32 then some (.fltIn (BitVec.ofNat 32 w))
  else if nbits = 48 then some (.mixIn (BitVec.ofNat 48 w))
  else if nbits % 32 = 0 then some (.fifoPush (wordsOfNat (nbits / 32) w))
  else none

/-- The instruction the decoder reads from a table word; none where no port has a bus of that width. -/
def decodeTableWord (nbits w : Nat) : Option Instr :=
  (tableUse nbits w).map decode

end Sys2Proof
end

