-- ==== Sys2Proof/Machine/Registers.lean ====
section
/-! DEFINITION. The parts of the machine's state, one structure per sub-block (10_state.md R20), the FIFO's operations in flight
(20_memory.md R76), the result buses (30_encoding.md R90) and the environment's inputs (10_state.md R42). -/
namespace Sys2Proof.Machine

/-- The PSG's state (10_state.md R20 to R33). -/
structure Psg where
  /-- `TONE[c]`, the 10-bit period registers (R23). -/
  tone    : PerTone (BitVec 10)
  /-- `NCTRL`: bit 2 is FB, bits 1:0 are RATE (R24). -/
  nctrl   : BitVec 3
  /-- `VOLIDX[c]`, the attenuation indices (R25). -/
  volidx  : PerChan (BitVec 4)
  /-- `LATCH`, the register number of the last latch byte (R26). -/
  latch   : BitVec 3
  /-- `PERIOD[c]` in window units; 0 holds the channel high (R27, R28). -/
  period  : PerChan Nat
  /-- `CNT[c]`, units left to the next period boundary (R29). -/
  cnt     : PerChan Nat
  /-- `OUT[c]`, the output levels: the block's only flags (R30). -/
  out     : PerChan Bool
  /-- `LFSR`, the noise shift register (R31). -/
  lfsr    : BitVec 16
  /-- `TAPMASK`, the feedback tap mask (R32). -/
  tapmask : BitVec 16
deriving DecidableEq, Repr

/-- One lane of the filter (10_state.md R34, R35): `X1`, `Y1` of the DC blocker, `Z1`, `Z2` of the biquad. -/
structure Lane where
  x1 : Int
  y1 : Int
  z1 : Int
  z2 : Int
deriving DecidableEq, Repr

/-- The slot memory: (slot index, frame) pairs, indices strictly rising, never-written slots not listed (10_state.md R36;
20_memory.md R60, R62; log 9). -/
abbrev Memory := List (Nat × Frame)

/-- The canonical form of the slot memory: indices strictly rising. An unlisted slot holds no value (10_state.md R36), so no
listed entry can equal what it reads as. -/
def Memory.wf : Memory → Bool
  | [] => true
  | [_] => true
  | a :: b :: rest => decide (a.1 < b.1) && Memory.wf (b :: rest)

/-- A PRODUCE between its steps P1 and P3 (20_memory.md R74, R76). -/
structure ProduceCtl where
  /-- `f_0 .. f_(a-1)`, the frames P1 accepted. -/
  accepted : List Frame
  /-- The slot writes P2.i still to be made: slot index and frame. -/
  pending  : List (Nat × Frame)
deriving DecidableEq, Repr

/-- A CONSUME between its steps C1 and C3 (20_memory.md R75, R76). -/
structure ConsumeCtl where
  /-- The operand `n`: how many frames AUD wants. -/
  wanted  : Nat
  /-- `g_0 .. g_(m-1)`, filled in as the slot reads are made. -/
  got     : List (Option Frame)
  /-- The `i` of the slot reads C2.i still to be made. -/
  pending : List Nat
deriving DecidableEq, Repr

/-- The FIFO's state (10_state.md R36 to R39; 20_memory.md R71, R72, R76). -/
structure Fifo where
  /-- `SLOT`. -/
  slots     : Memory
  /-- `WCUR`. -/
  wcur      : Nat
  /-- `RCUR`. -/
  rcur      : Nat
  /-- `R_OBS`: the value EMU's last acquire load of `RCUR` returned. -/
  rObs      : Nat
  /-- `W_OBS`: the value AUD's last acquire load of `WCUR` returned. -/
  wObs      : Nat
  /-- The elements of `H(RCUR)` after the one EMU last loaded, oldest first (20_memory.md R71, R72; log 7). -/
  unseenR   : List Nat
  /-- The elements of `H(WCUR)` after the one AUD last loaded, oldest first (20_memory.md R71, R72; log 7). -/
  unseenW   : List Nat
  /-- EMU's PRODUCE in flight, if any. -/
  producing : Option ProduceCtl
  /-- AUD's CONSUME in flight, if any. -/
  consuming : Option ConsumeCtl
deriving DecidableEq, Repr

/-- The result buses of 30_encoding.md R90, each holding what its port last drove. The MODEL's own fields (log 10): the results
are outputs, not state of the block (10_state.md R42). -/
structure Buses where
  psgOut : Nat
  updOut : List Nat
  mixOut : Frame
  fltOut : Frame
  popOut : List Frame
  cntOut : Nat
deriving DecidableEq, Repr

/-- What the host does in EMU's order (00_scope.md R9): a use of a port, or a change of one live input or of the reset-time
inputs (44_system_ops.md R233). -/
inductive HostEvent where
  | use        (u : PortUse)
  | setLpfPct  (p : Int)
  | setFmEn    (b : Bool)
  | setPsgEn   (b : Bool)
  | setParams  (p : Params)
deriving DecidableEq, Repr

/-- Whose turn it is (20_memory.md R76). `atom` is one atom of that agent: one step of its FIFO operation in flight, or else the
first atom of the next operation it issues. `whole` is that agent's next operation from beginning to end with nothing in
between (log 8). -/
inductive Turn where
  | atom  (a : Agent)
  | whole (a : Agent)
deriving DecidableEq, Repr

/-- The environment's inputs, parameters of the step relation (10_state.md R42): what each agent will issue, the interleaving and
the draws. The MODEL's own fields (log 1, 6, 8). -/
structure Env where
  emuQ  : List HostEvent
  audQ  : List PortUse
  turns : List Turn
  draws : List Nat
  /-- How many free values have been drawn: the counter `Config.freeDraw` is applied to. -/
  drawn : Nat
deriving DecidableEq, Repr

end Sys2Proof.Machine
end

