-- ==== Sys2Proof/Machine/VolTable.lean ====
section
/-! DEFINITION. The default volume table (41_psg_sample.md R150) and the reference configuration (95_test_vectors.md; 00_scope.md
R4 to R6). -/
namespace Sys2Proof.Machine

/-- `v` is at most `ceil * 10^(-i/10)`, in exact arithmetic: `v^10 * 10^i <= ceil^10` (41_psg_sample.md R150). -/
def volAtMost (ceil i v : Nat) : Bool := decide (v ^ 10 * 10 ^ i ≤ ceil ^ 10)

/-- The greatest number made of `acc` and the bits below bit `k` that satisfies `volAtMost`, by trying each bit from the top. -/
def volSearch (ceil i : Nat) : Nat → Nat → Nat
  | 0, acc => acc
  | k + 1, acc => volSearch ceil i k (if volAtMost ceil i (acc + 2 ^ k) then acc + 2 ^ k else acc)

/-- `VOL[i] = floor(VOL_CEIL * 10^(-i/10))` for i = 0..14 (41_psg_sample.md R150). Fifteen bits hold any entry, because
`VOL_CEIL <= OUT_CEIL <= 32767` (00_scope.md R4). -/
def volEntry (ceil i : Nat) : Nat := volSearch ceil i 15 0

/-- The table of 41_psg_sample.md R150: entries 0..14 by the law, `VOL[15] = 0`. -/
def volTable (ceil : Nat) : Vector Nat 16 :=
  #v[volEntry ceil 0, volEntry ceil 1, volEntry ceil 2, volEntry ceil 3, volEntry ceil 4, volEntry ceil 5, volEntry ceil 6,
     volEntry ceil 7, volEntry ceil 8, volEntry ceil 9, volEntry ceil 10, volEntry ceil 11, volEntry ceil 12, volEntry ceil 13,
     volEntry ceil 14, 0]

/-- The default `LPF_FULL` (00_scope.md R5). -/
def lpfFullDefault : Coefs := ⟨1600, 3198, 1600, -15447, 5461⟩

/-- The parameters with the defaults of 00_scope.md R4 and R5, for given values of the three that have none. -/
def defaultParams (updateStep volCeil capacity : Nat) : Params where
  unit := 65536
  updateStep := updateStep
  outCeil := 32767
  volCeil := volCeil
  vol := volTable volCeil
  tapsWhite := 0x0009#16
  tapsPeriodic := 0x0001#16
  lfsrPreset := 0x8000#16
  noiseDiv := ⟨32, 64, 128⟩
  noiseLinkCh := .t1
  dataNontone := .ignore
  alphaQ15 := 32604
  lpfFull := lpfFullDefault
  capacity := capacity

/-- The reference configuration of 95_test_vectors.md: `UPDATE_STEP` 4096, `VOL_CEIL` 10922, `CAPACITY` 8. DESIGN CHOICE (log 3):
what `State.reset` holds, the spec giving these three no default. -/
def referenceParams : Params := defaultParams 4096 10922 8

end Sys2Proof.Machine
end

