-- ==== Sys2Proof/Machine/ResetValues.lean ====
section
/-! DEFINITION. The values of 10_state.md R41, sub-block by sub-block, under given reset-time parameters. -/
namespace Sys2Proof.Machine

/-- The PSG after a hard reset (10_state.md R41). -/
def Psg.atReset (p : Params) : Psg where
  tone := ⟨0#10, 0#10, 0#10⟩
  nctrl := 0#3
  volidx := ⟨15#4, 15#4, 15#4, 15#4⟩
  latch := 0#3
  period := ⟨0, 0, 0, p.noiseDiv.d0 * p.updateStep⟩
  cnt := ⟨0, 0, 0, 0⟩
  out := ⟨false, false, false, p.lfsrPreset.getLsbD 0⟩
  lfsr := p.lfsrPreset
  tapmask := p.tapsPeriodic

/-- One filter lane after a hard reset (10_state.md R41). -/
def Lane.atReset : Lane := ⟨0, 0, 0, 0⟩

/-- The FIFO after a hard reset: empty, every slot without value, both publication histories at `h0 = 0`, nothing in flight
(10_state.md R41; 44_system_ops.md R230). -/
def Fifo.atReset : Fifo where
  slots := []
  wcur := 0
  rcur := 0
  rObs := 0
  wObs := 0
  unseenR := []
  unseenW := []
  producing := none
  consuming := none

end Sys2Proof.Machine
end

