-- ==== Sys2Proof/Machine/State.lean ====
section
/-! DEFINITION. The machine's state, the state after reset, and the ways a step can end other than in a next state. -/
namespace Sys2Proof.Machine

/-- No constructor: the block has no exception, fault, trap, abort or error signal, and its step relation has no fault case
(60_exceptions.md R240; log 12). -/
inductive Fault where
deriving DecidableEq, Repr

/-- The uses the model gives no meaning (60_exceptions.md R242; log 11). All are safe: nothing is claimed of such a run. -/
inductive Refusal where
  /-- Raised by `exec` for an instruction without a meaning; no arm raises it now. Safe. -/
  | notModelled (mnemonic : String)
  /-- Raised by a turn whose agent uses a port of the other agent (R242, R250, R271). Safe. -/
  | wrongAgent
  /-- Raised by PRODUCE and COUNT while a PRODUCE is between P1 and P3 (R242, R271). Safe. -/
  | secondProducer
  /-- Raised by CONSUME while a CONSUME is between C1 and C3 (R242, R271). Safe. -/
  | secondConsumer
  /-- Raised by RESET_HARD while AUD is inside a CONSUME (R232, R242). Safe. -/
  | resetWhileConsuming
  /-- Raised by RESET_HARD when a configuration input breaks its constraint (R4 to R6, R242). Safe. -/
  | parameterOutOfRange
  /-- Raised by MIX, FILTER and PRODUCE for an operand outside its declared range (R102, R170, R242). Safe. -/
  | operandOutOfRange
deriving DecidableEq, Repr

/-- Everything the spec gives the machine (10_state.md R20), the parameters (00_scope.md R4 to R7; 44_system_ops.md R230, R233) and
the model's own fields `bus` and `env`. -/
structure State where
  /-- The PSG. -/
  psg   : Psg
  /-- The filter, lane by lane. -/
  flt   : Stereo Lane
  /-- The sample FIFO. -/
  fifo  : Fifo
  /-- The reset-time parameters in force: what the last RESET_HARD latched. -/
  cfg   : Params
  /-- The reset-time parameters as the host presents them now; read by RESET_HARD only. -/
  cfgIn : Params
  /-- The live inputs. -/
  live  : Live
  /-- The result buses (the model's own, log 10). -/
  bus   : Buses
  /-- The environment's inputs (the model's own, log 1, 6, 8). -/
  env   : Env
deriving DecidableEq, Repr

/-- The machine right after a hard reset under the reference configuration (10_state.md R41; log 3), the live inputs at 0 (log 4),
the result buses at 0 or empty (log 10), no operation placed (log 1). -/
def State.reset : State where
  psg := Psg.atReset referenceParams
  flt := ⟨Lane.atReset, Lane.atReset⟩
  fifo := Fifo.atReset
  cfg := referenceParams
  cfgIn := referenceParams
  live := ⟨0, false, false⟩
  bus := ⟨0, [], Frame.zero, Frame.zero, [], 0⟩
  env := ⟨[], [], [], [], 0⟩

end Sys2Proof.Machine
end

