-- ==== Sys2Proof/Machine/Arith.lean ====
section
/-! DEFINITION. The arithmetic primitives of 00_scope.md R11. -/
namespace Sys2Proof.Machine

/-- `tdiv(a, b)`: the quotient rounded toward zero (00_scope.md R11). -/
def tdiv (a b : Int) : Int := Int.tdiv a b

/-- `sat16(v)` (00_scope.md R11). -/
def sat16 (v : Int) : Int := max (-32768) (min 32767 v)

/-- The parity of the low `k` bits of a word. -/
def parityUpTo (v : BitVec 16) : Nat → Bool
  | 0 => false
  | k + 1 => (v.getLsbD k).xor (parityUpTo v k)

/-- `parity16(v)`: 1 when `v` has an odd number of 1 bits (00_scope.md R11). -/
def parity16 (v : BitVec 16) : Bool := parityUpTo v 16

/-- The ring distance `(b - a) mod cap`, never negative (00_scope.md R11; 20_memory.md R64). -/
def ringDist (cap a b : Nat) : Nat := (((b : Int) - (a : Int)) % (cap : Int)).toNat

/-- A cursor advanced by `k` frames (20_memory.md R64). -/
def advance (cap cursor k : Nat) : Nat := (cursor + k) % cap

end Sys2Proof.Machine
end

