-- ==== Sys2Proof/Machine/Operands.lean ====
section
/-! DEFINITION. Operand assembly (30_encoding.md R95 to R97) and the declared ranges of the plain operands (R102). -/
namespace Sys2Proof.Machine

/-- `TONE[c][9:4] ++ d`: the low 4 bits replaced (30_encoding.md R96; 40_psg_writes.md R121). -/
def withLow4 (old : BitVec 10) (d : BitVec 4) : BitVec 10 := BitVec.extractLsb' 4 6 old ++ d

/-- `u ++ TONE[c][3:0]`: the upper 6 bits replaced (30_encoding.md R96; 40_psg_writes.md R126). -/
def withHigh6 (old : BitVec 10) (u : BitVec 6) : BitVec 10 := u ++ BitVec.extractLsb' 0 4 old

/-- `f ++ nn`, the noise control register (30_encoding.md R97; 40_psg_writes.md R124). -/
def noiseControlBits (f : BitVec 1) (nn : BitVec 2) : BitVec 3 := f ++ nn

/-- `NCTRL.FB` (10_state.md R24). -/
def nctrlFb (nctrl : BitVec 3) : Bool := nctrl.getLsbD 2

/-- `NCTRL.RATE` (10_state.md R24). -/
def nctrlRate (nctrl : BitVec 3) : BitVec 2 := BitVec.extractLsb' 0 2 nctrl

/-- The register number of a channel's period or control register, `r = 2c` (10_state.md R22). -/
def toneRegister (c : ToneCh) : BitVec 3 := BitVec.ofNat 3 (2 * c.index)

/-- The register number of a channel's volume register, `r = 2c + 1` (10_state.md R22). -/
def volRegister (c : Chan) : BitVec 3 := BitVec.ofNat 3 (2 * c.index + 1)

/-- The noise control register's number (10_state.md R22). -/
def noiseRegister : BitVec 3 := 6#3

/-- The tone channel whose period register `LATCH` names; none for a volume register or the noise control register
(40_psg_writes.md R126, R127). -/
def latchedTone (latch : BitVec 3) : Option ToneCh :=
  if latch = 0#3 then some .t0 else if latch = 2#3 then some .t1 else if latch = 4#3 then some .t2 else none

/-- The channel of the latched register, `LATCH[2:1]` (10_state.md R22). -/
def latchedChan (latch : BitVec 3) : Chan := chanOfBits (BitVec.extractLsb' 1 2 latch)

/-- `d = b[3:0]` of a data byte (40_psg_writes.md R127). -/
def dataLow4 (u : BitVec 6) : BitVec 4 := BitVec.extractLsb' 0 4 u

/-- The operands of MIX lie in their declared ranges: FM samples signed 16-bit, `psg` in 0..OUT_CEIL (42_mix_filter.md R170). -/
def mixInRange (p : Params) (fmL fmR : Int) (psg : Nat) : Bool :=
  decide (IsSample fmL ∧ IsSample fmR ∧ psg ≤ p.outCeil)

/-- The operands of FILTER lie in their declared range (42_mix_filter.md R174). -/
def filterInRange (xL xR : Int) : Bool := decide (IsSample xL ∧ IsSample xR)

/-- Every frame of a burst lies in its declared range (43_fifo_ops.md R200). -/
def burstInRange (burst : List Frame) : Bool := decide (∀ f ∈ burst, f.InRange)

end Sys2Proof.Machine
end

