-- ==== Sys2Proof/Machine/Flags.lean ====
section
/-! DEFINITION. The block's only flags, the output levels `OUT[c]` (10_state.md R30), and the noise shift register that drives one
of them. -/
namespace Sys2Proof.Machine

/-- What one channel's accumulation reads and writes: `CNT[c]`, `OUT[c]` and, for the noise channel, `LFSR` (41_psg_sample.md R146). -/
structure Osc where
  cnt  : Nat
  out  : Bool
  lfsr : BitVec 16
deriving DecidableEq, Repr

/-- One shift of the noise register: the feedback is the parity of the tapped bits and enters the top bit (41_psg_sample.md R145). -/
def lfsrShift (taps lfsr : BitVec 16) : BitVec 16 :=
  (lfsr >>> 1) ||| (if parity16 (lfsr &&& taps) then 0x8000#16 else 0#16)

/-- `Boundary(c)` of a tone channel: the output level is inverted (41_psg_sample.md R144). -/
def toneBoundary (o : Osc) : Osc := { o with out := !o.out }

/-- `Boundary(3)`: the register shifts and the output level is bit 0 of the new value (41_psg_sample.md R145). -/
def noiseBoundary (taps : BitVec 16) (o : Osc) : Osc :=
  { o with lfsr := lfsrShift taps o.lfsr, out := (lfsrShift taps o.lfsr).getLsbD 0 }

/-- The output level held high while the period is 0: nothing else changes (41_psg_sample.md R143). -/
def holdHigh (o : Osc) : Osc := { o with out := true }

/-- `OUT[3]` after a preset: bit 0 of the preset (40_psg_writes.md R124). -/
def presetLevel (p : Params) : Bool := p.lfsrPreset.getLsbD 0

end Sys2Proof.Machine
end

