-- ==== Sys2Proof/Machine/Ops.lean ====
section
/-! DEFINITION. The named operations over registers, slots, cursors and draws that the meanings share.
There is NO operation for taking an exception and none for returning from one: the block raises nothing, saves nothing and has
no handler (60_exceptions.md R240, R245). -/
namespace Sys2Proof.Machine

/-! The parts of the state, one setter each. -/

/-- The state with another PSG. -/
def State.setPsg (s : State) (v : Psg) : State := { s with psg := v }

/-- The state with other filter lanes. -/
def State.setFlt (s : State) (v : Stereo Lane) : State := { s with flt := v }

/-- The state with another FIFO. -/
def State.setFifo (s : State) (v : Fifo) : State := { s with fifo := v }

/-- The state with other latched parameters. -/
def State.setCfg (s : State) (v : Params) : State := { s with cfg := v }

/-- The state with other reset-time inputs (44_system_ops.md R233). -/
def State.setCfgIn (s : State) (v : Params) : State := { s with cfgIn := v }

/-- The state with other live inputs (44_system_ops.md R233). -/
def State.setLive (s : State) (v : Live) : State := { s with live := v }

/-- The state with other result buses. -/
def State.setBus (s : State) (v : Buses) : State := { s with bus := v }

/-- The state with other environment inputs. -/
def State.setEnv (s : State) (v : Env) : State := { s with env := v }

/-! Periods and the tap mask. -/

/-- The derived period of a tone channel (10_state.md R27). -/
def tonePeriod (p : Params) (tone : BitVec 10) : Nat :=
  if tone.toNat ≤ 1 then 0 else tone.toNat * p.updateStep

/-- The derived period of the noise channel, from its rate and the linked channel's period (10_state.md R28). -/
def noisePeriod (p : Params) (rate : BitVec 2) (linked : Nat) : Nat :=
  if rate = 0#2 then p.noiseDiv.d0 * p.updateStep
  else if rate = 1#2 then p.noiseDiv.d1 * p.updateStep
  else if rate = 2#2 then p.noiseDiv.d2 * p.updateStep
  else 2 * linked

/-- The tap mask of a feedback mode (10_state.md R32). -/
def tapMask (p : Params) (fb : Bool) : BitVec 16 := if fb then p.tapsWhite else p.tapsPeriodic

/-- `Rederive(c)`, after every change of `TONE[c]` (40_psg_writes.md R122). -/
def rederive (p : Params) (g : Psg) (c : ToneCh) : Psg :=
  let g1 := { g with period := g.period.set c.chan (tonePeriod p (g.tone.get c)) }
  if c = p.noiseLinkCh ∧ nctrlRate g.nctrl = 3#2 then
    { g1 with period := g1.period.set .n (2 * g1.period.get c.chan) }
  else g1

/-- `VOL[VOLIDX]` (00_scope.md R4). -/
def volOf (p : Params) (i : BitVec 4) : Nat := p.vol[i.toNat]

/-! The slot memory (10_state.md R36; 20_memory.md R62). -/

/-- `SLOT[i] <- f`, keeping the canonical form. -/
def slotInsert (i : Nat) (f : Frame) : Memory → Memory
  | [] => [(i, f)]
  | (j, g) :: rest =>
    if i < j then (i, f) :: (j, g) :: rest
    else if i = j then (i, f) :: rest
    else (j, g) :: slotInsert i f rest

/-- What the slot holds, if it was ever written. -/
def slotLookup (i : Nat) : Memory → Option Frame
  | [] => none
  | (j, g) :: rest => if i = j then some g else slotLookup i rest

/-- What a read of slot `i` returns: its frame, or a free value if it was never written (93_implementation_defined.md U14;
log 9). -/
def slotValue (slots : Memory) (drawn i : Nat) : Frame :=
  match slotLookup i slots with
  | some f => f
  | none => frameOfWord (Config.unwrittenSlot i drawn)

/-- `SlotRead(i)` (00_scope.md R12). -/
def State.slotRead (s : State) (i : Nat) : Frame := slotValue s.fifo.slots s.env.drawn i

/-- `SlotWrite(i, f)` (00_scope.md R12). -/
def Fifo.slotWrite (q : Fifo) (i : Nat) (f : Frame) : Fifo := { q with slots := slotInsert i f q.slots }

/-! Draws (00_scope.md R12) and the cursors (20_memory.md R70 to R72). -/

/-- One number below `n`, drawn: the environment's next draw if it supplied one, a free value if not; where there is only one
candidate nothing is drawn (20_memory.md R72; log 6). -/
def Env.choose (n : Nat) (e : Env) : Nat × Env :=
  if n ≤ 1 then (0, e)
  else match e.draws with
    | d :: ds => (d % n, { e with draws := ds })
    | [] => (Config.freeDraw e.drawn % n, { e with drawn := e.drawn + 1 })

/-- `R_OBS <- LoadAcq(RCUR)`: EMU's acquire load returns any element of `H(RCUR)` from the one it last saw on, and remembers it
(20_memory.md R70, R72). -/
def State.loadRcur (s : State) : State :=
  let k := s.env.choose (s.fifo.unseenR.length + 1)
  { s with
    fifo := { s.fifo with rObs := (s.fifo.rObs :: s.fifo.unseenR).getD k.1 0, unseenR := s.fifo.unseenR.drop k.1 }
    env := k.2 }

/-- `W_OBS <- LoadAcq(WCUR)`: AUD's acquire load (20_memory.md R70, R72). -/
def State.loadWcur (s : State) : State :=
  let k := s.env.choose (s.fifo.unseenW.length + 1)
  { s with
    fifo := { s.fifo with wObs := (s.fifo.wObs :: s.fifo.unseenW).getD k.1 0, unseenW := s.fifo.unseenW.drop k.1 }
    env := k.2 }

/-- `StoreRel(WCUR, v)`: the value is stored and appended to the publication history (20_memory.md R71). -/
def Fifo.storeWcur (q : Fifo) (v : Nat) : Fifo := { q with wcur := v, unseenW := q.unseenW ++ [v] }

/-- `StoreRel(RCUR, v)` (20_memory.md R71). -/
def Fifo.storeRcur (q : Fifo) (v : Nat) : Fifo := { q with rcur := v, unseenR := q.unseenR ++ [v] }

end Sys2Proof.Machine
end

