-- ==== Sys2Proof/Machine/FifoOps.lean ====
section
/-! DEFINITION. PRODUCE, CONSUME and COUNT (43_fifo_ops.md), atom by atom (20_memory.md R74 to R76) and as whole operations. -/
namespace Sys2Proof.Machine

/-- `CAP - 1 - used`, with `used` from EMU's own `WCUR` and its observation of `RCUR` (43_fifo_ops.md R200). -/
def freeSlots (cap : Nat) (q : Fifo) : Nat := cap - 1 - ringDist cap q.rObs q.wcur

/-- `avail`, from AUD's observation of `WCUR` and its own `RCUR` (43_fifo_ops.md R206). -/
def availFrames (cap : Nat) (q : Fifo) : Nat := ringDist cap q.rcur q.wObs

/-- The slot writes of a burst whose first frame goes to ring position `from + i` (43_fifo_ops.md R200, P2.i). -/
def slotWrites (cap start : Nat) : Nat → List Frame → List (Nat × Frame)
  | _, [] => []
  | i, f :: fs => (advance cap start i, f) :: slotWrites cap start (i + 1) fs

/-- Atom P1: load `RCUR`, accept what fits (43_fifo_ops.md R200, R201). -/
def produceBegin (burst : List Frame) (s : State) : State :=
  let s1 := s.loadRcur
  let accepted := burst.take (freeSlots s1.cfg.capacity s1.fifo)
  s1.setFifo { s1.fifo with
    producing := some ⟨accepted, slotWrites s1.cfg.capacity s1.fifo.wcur 0 accepted⟩ }

/-- Atom P2.i: the `j`-th of the remaining slot writes (20_memory.md R74). -/
def produceWrite (c : ProduceCtl) (j : Nat) (q : Fifo) : Fifo :=
  match c.pending[j]? with
  | some w => { q.slotWrite w.1 w.2 with producing := some { c with pending := c.pending.eraseIdx j } }
  | none => q

/-- Atom P3: publish the new `WCUR` (43_fifo_ops.md R200). -/
def produceStore (cap : Nat) (c : ProduceCtl) (q : Fifo) : Fifo :=
  { q.storeWcur (advance cap q.wcur c.accepted.length) with producing := none }

/-- EMU's next atom inside a PRODUCE: a slot write, which one being free, or the store when none is left (20_memory.md R74, R76). -/
def produceAtom (s : State) : State :=
  match s.fifo.producing with
  | none => s
  | some c =>
    if c.pending = [] then s.setFifo (produceStore s.cfg.capacity c s.fifo)
    else
      let k := s.env.choose c.pending.length
      (s.setFifo (produceWrite c k.1 s.fifo)).setEnv k.2

/-- All the slot writes of a list, in its order. -/
def writeAll (q : Fifo) : List (Nat × Frame) → Fifo
  | [] => q
  | w :: ws => writeAll (q.slotWrite w.1 w.2) ws

/-- A whole PRODUCE: P1, every P2.i, P3, with nothing in between (43_fifo_ops.md R200). -/
def runProduce (burst : List Frame) (s : State) : State :=
  let s1 := s.loadRcur
  let accepted := burst.take (freeSlots s1.cfg.capacity s1.fifo)
  let q := writeAll s1.fifo (slotWrites s1.cfg.capacity s1.fifo.wcur 0 accepted)
  s1.setFifo (q.storeWcur (advance s1.cfg.capacity q.wcur accepted.length))

/-- Atom C1: load `WCUR`, fix how many real frames are delivered (43_fifo_ops.md R206). -/
def consumeBegin (n : Nat) (s : State) : State :=
  let s1 := s.loadWcur
  let m := min n (availFrames s1.cfg.capacity s1.fifo)
  s1.setFifo { s1.fifo with consuming := some ⟨n, List.replicate m none, List.range m⟩ }

/-- The frames read, in order, then silence up to the `n` wanted (43_fifo_ops.md R206, R207). -/
def delivered (c : ConsumeCtl) : List Frame :=
  c.got.map (fun g => g.getD Frame.zero) ++ List.replicate (c.wanted - c.got.length) Frame.zero

/-- Atom C2.i: the `j`-th of the remaining slot reads (20_memory.md R75). -/
def consumeRead (c : ConsumeCtl) (j : Nat) (s : State) : State :=
  match c.pending[j]? with
  | some i =>
    s.setFifo { s.fifo with
      consuming := some { c with
        got := c.got.set i (some (s.slotRead (advance s.cfg.capacity s.fifo.rcur i)))
        pending := c.pending.eraseIdx j } }
  | none => s

/-- Atom C3: publish the new `RCUR`; the result goes out (43_fifo_ops.md R206). -/
def consumeStore (c : ConsumeCtl) (s : State) : State :=
  (s.setFifo { s.fifo.storeRcur (advance s.cfg.capacity s.fifo.rcur c.got.length) with consuming := none }).setBus
    { s.bus with popOut := delivered c }

/-- AUD's next atom inside a CONSUME: a slot read, which one being free, or the store when none is left (20_memory.md R75, R76). -/
def consumeAtom (s : State) : State :=
  match s.fifo.consuming with
  | none => s
  | some c =>
    if c.pending = [] then consumeStore c s
    else
      let k := s.env.choose c.pending.length
      (consumeRead c k.1 s).setEnv k.2

/-- A whole CONSUME: C1, every C2.i, C3, with nothing in between (43_fifo_ops.md R206). -/
def runConsume (n : Nat) (s : State) : State :=
  let s1 := s.loadWcur
  let m := min n (availFrames s1.cfg.capacity s1.fifo)
  let got := (List.range m).map (fun i => s1.slotRead (advance s1.cfg.capacity s1.fifo.rcur i))
  (s1.setFifo (s1.fifo.storeRcur (advance s1.cfg.capacity s1.fifo.rcur m))).setBus
    { s1.bus with popOut := got ++ List.replicate (n - m) Frame.zero }

/-- `COUNT`: an acquire load of `RCUR`, then the distance EMU sees (43_fifo_ops.md R212). -/
def runCount (s : State) : State :=
  let s1 := s.loadRcur
  s1.setBus { s1.bus with cntOut := ringDist s1.cfg.capacity s1.fifo.rObs s1.fifo.wcur }

/-- `PRODUCE [f_0, ..]` (43_fifo_ops.md R200). Refused: a frame outside its range, or a PRODUCE already in flight (60_exceptions.md
R242; 70_reset_and_hazards.md R271). -/
def execProduce (burst : List Frame) (s : State) : Host.Outcome State Fault Refusal :=
  if burstInRange burst then
    match s.fifo.producing with
    | none => .next (runProduce burst s)
    | some _ => .refused .secondProducer
  else .refused .operandOutOfRange

/-- `CONSUME n` (43_fifo_ops.md R206). Refused while a CONSUME is in flight (70_reset_and_hazards.md R271). -/
def execConsume (n : Nat) (s : State) : Host.Outcome State Fault Refusal :=
  match s.fifo.consuming with
  | none => .next (runConsume n s)
  | some _ => .refused .secondConsumer

/-- `COUNT` (43_fifo_ops.md R212). Refused while a PRODUCE is in flight (70_reset_and_hazards.md R271). -/
def execCount (s : State) : Host.Outcome State Fault Refusal :=
  match s.fifo.producing with
  | none => .next (runCount s)
  | some _ => .refused .secondProducer

/-- The first atom of a PRODUCE that EMU issues, with the refusals of `execProduce` (20_memory.md R76). -/
def startProduce (burst : List Frame) (s : State) : Host.Outcome State Fault Refusal :=
  if burstInRange burst then
    match s.fifo.producing with
    | none => .next (produceBegin burst s)
    | some _ => .refused .secondProducer
  else .refused .operandOutOfRange

/-- The first atom of a CONSUME that AUD issues, with the refusals of `execConsume` (20_memory.md R76). -/
def startConsume (n : Nat) (s : State) : Host.Outcome State Fault Refusal :=
  match s.fifo.consuming with
  | none => .next (consumeBegin n s)
  | some _ => .refused .secondConsumer

end Sys2Proof.Machine
end

