-- ==== Sys2Proof/Machine/MixFilter.lean ====
section
/-! DEFINITION. MIX and FILTER (42_mix_filter.md). -/
namespace Sys2Proof.Machine

/-- The FM term of a lane (42_mix_filter.md R170). -/
def fmTerm (live : Live) (fm : Int) : Int := if live.fmEn then tdiv (fm * 7) 8 else 0

/-- The PSG term, the same for both lanes (42_mix_filter.md R170, R173). -/
def psgTerm (live : Live) (psg : Nat) : Int := if live.psgEn then tdiv ((psg : Int) * 3) 8 else 0

/-- One lane of MIX (42_mix_filter.md R170, R171). -/
def mixLane (live : Live) (fm : Int) (psg : Nat) : Int := sat16 (fmTerm live fm + psgTerm live psg)

/-- `MIX fm_l, fm_r, psg` (42_mix_filter.md R170); an operand outside its range is refused (60_exceptions.md R242). -/
def execMix (fmL fmR : Int) (psg : Nat) (s : State) : Host.Outcome State Fault Refusal :=
  if mixInRange s.cfg fmL fmR psg then
    .next (s.setBus { s.bus with mixOut := ⟨mixLane s.live fmL psg, mixLane s.live fmR psg⟩ })
  else .refused .operandOutOfRange

/-- `LPF_PCT` clamped to 0..100 (42_mix_filter.md R182). -/
def clampPct (p : Int) : Int := max 0 (min 100 p)

/-- One interpolated coefficient (42_mix_filter.md R179). -/
def interpolate (bypass full q : Int) : Int := bypass + tdiv ((full - bypass) * q) 100

/-- `Coef(p)` (42_mix_filter.md R179). -/
def coef (full : Coefs) (pct : Int) : Coefs where
  b0 := interpolate Coefs.bypass.b0 full.b0 (clampPct pct)
  b1 := interpolate Coefs.bypass.b1 full.b1 (clampPct pct)
  b2 := interpolate Coefs.bypass.b2 full.b2 (clampPct pct)
  a1 := interpolate Coefs.bypass.a1 full.a1 (clampPct pct)
  a2 := interpolate Coefs.bypass.a2 full.a2 (clampPct pct)

/-- `DcBlock(lane, x)`: the output and the lane with its new `X1`, `Y1` (42_mix_filter.md R176). -/
def dcBlock (alphaQ15 : Nat) (lane : Lane) (x : Int) : Int × Lane :=
  let ydc := tdiv ((alphaQ15 : Int) * (lane.y1 + x - lane.x1)) 32768
  (ydc, { lane with x1 := x, y1 := ydc })

/-- `Biquad(lane, x, ..)`: the output and the lane with its new `Z1`, `Z2` (42_mix_filter.md R178). -/
def biquad (k : Coefs) (lane : Lane) (x : Int) : Int × Lane :=
  let ylp := tdiv (k.b0 * x + lane.z1) 16384
  (ylp, { lane with z1 := k.b1 * x - k.a1 * ylp + lane.z2, z2 := k.b2 * x - k.a2 * ylp })

/-- One lane of FILTER: DC blocker, then low-pass, then `sat16` on the way out only (42_mix_filter.md R174, R183). -/
def filterLane (p : Params) (k : Coefs) (lane : Lane) (x : Int) : Int × Lane :=
  let a := dcBlock p.alphaQ15 lane x
  let b := biquad k a.2 a.1
  (sat16 b.1, b.2)

/-- `FILTER x_l, x_r` (42_mix_filter.md R174); an operand outside its range is refused (60_exceptions.md R242). -/
def execFilter (xL xR : Int) (s : State) : Host.Outcome State Fault Refusal :=
  if filterInRange xL xR then
    .next ((s.setFlt ⟨(filterLane s.cfg (coef s.cfg.lpfFull s.live.lpfPct) s.flt.l xL).2,
                      (filterLane s.cfg (coef s.cfg.lpfFull s.live.lpfPct) s.flt.r xR).2⟩).setBus
      { s.bus with fltOut := ⟨(filterLane s.cfg (coef s.cfg.lpfFull s.live.lpfPct) s.flt.l xL).1,
                              (filterLane s.cfg (coef s.cfg.lpfFull s.live.lpfPct) s.flt.r xR).1⟩ })
  else .refused .operandOutOfRange

end Sys2Proof.Machine
end

