-- ==== Sys2Proof/Machine/PsgWrite.lean ====
section
/-! DEFINITION. The operations a byte on `PSG_WR` can be (40_psg_writes.md). -/
namespace Sys2Proof.Machine

/-- `TONE_LATCH c, d` on the PSG (40_psg_writes.md R121). -/
def latchTone (p : Params) (c : ToneCh) (d : BitVec 4) (g : Psg) : Psg :=
  rederive p { g with latch := toneRegister c, tone := g.tone.set c (withLow4 (g.tone.get c) d) } c

/-- `VOLIDX[c] <- d` (40_psg_writes.md R123). -/
def setVolume (c : Chan) (d : BitVec 4) (g : Psg) : Psg := { g with volidx := g.volidx.set c d }

/-- `VOL_WRITE c, d` on the PSG (40_psg_writes.md R123). -/
def latchVolume (c : Chan) (d : BitVec 4) (g : Psg) : Psg := setVolume c d { g with latch := volRegister c }

/-- What a noise-control write does besides `LATCH` (40_psg_writes.md R124): control bits, tap mask, period, and the shift register
and its output level back to the preset. -/
def setNoiseControl (p : Params) (f : BitVec 1) (nn : BitVec 2) (g : Psg) : Psg :=
  { g with
    nctrl := noiseControlBits f nn
    tapmask := tapMask p (f = 1#1)
    period := g.period.set .n (noisePeriod p nn (g.period.get p.noiseLinkCh.chan))
    lfsr := p.lfsrPreset
    out := g.out.set .n (presetLevel p) }

/-- `NOISE_CTRL f, nn` on the PSG (40_psg_writes.md R124). -/
def latchNoise (p : Params) (f : BitVec 1) (nn : BitVec 2) (g : Psg) : Psg :=
  setNoiseControl p f nn { g with latch := noiseRegister }

/-- The upper 6 bits of a tone period (40_psg_writes.md R126). -/
def dataTone (p : Params) (c : ToneCh) (u : BitVec 6) (g : Psg) : Psg :=
  rederive p { g with tone := g.tone.set c (withHigh6 (g.tone.get c) u) } c

/-- A data byte's low 4 bits written to the latched volume or noise-control register: `DATA_NONTONE = low4` (40_psg_writes.md R127). -/
def dataLow4Write (p : Params) (u : BitVec 6) (g : Psg) : Psg :=
  if g.latch = noiseRegister then
    setNoiseControl p (BitVec.extractLsb' 2 1 (dataLow4 u)) (BitVec.extractLsb' 0 2 (dataLow4 u)) g
  else setVolume (latchedChan g.latch) (dataLow4 u) g

/-- `DATA u` on the PSG (40_psg_writes.md R126, R127). -/
def dataByte (p : Params) (u : BitVec 6) (g : Psg) : Psg :=
  match latchedTone g.latch with
  | some c => dataTone p c u g
  | none =>
    match p.dataNontone with
    | .ignore => g
    | .low4 => dataLow4Write p u g

/-- `TONE_LATCH 0, d` (40_psg_writes.md R121). -/
def execToneLatch0 (d : BitVec 4) (s : State) : Host.Outcome State Fault Refusal :=
  .next (s.setPsg (latchTone s.cfg .t0 d s.psg))

/-- `TONE_LATCH 1, d` (40_psg_writes.md R121). -/
def execToneLatch1 (d : BitVec 4) (s : State) : Host.Outcome State Fault Refusal :=
  .next (s.setPsg (latchTone s.cfg .t1 d s.psg))

/-- `TONE_LATCH 2, d` (40_psg_writes.md R121). -/
def execToneLatch2 (d : BitVec 4) (s : State) : Host.Outcome State Fault Refusal :=
  .next (s.setPsg (latchTone s.cfg .t2 d s.psg))

/-- `VOL_WRITE 0, d` (40_psg_writes.md R123). -/
def execVolWrite0 (d : BitVec 4) (s : State) : Host.Outcome State Fault Refusal :=
  .next (s.setPsg (latchVolume .t0 d s.psg))

/-- `VOL_WRITE 1, d` (40_psg_writes.md R123). -/
def execVolWrite1 (d : BitVec 4) (s : State) : Host.Outcome State Fault Refusal :=
  .next (s.setPsg (latchVolume .t1 d s.psg))

/-- `VOL_WRITE 2, d` (40_psg_writes.md R123). -/
def execVolWrite2 (d : BitVec 4) (s : State) : Host.Outcome State Fault Refusal :=
  .next (s.setPsg (latchVolume .t2 d s.psg))

/-- `VOL_WRITE 3, d` (40_psg_writes.md R123). -/
def execVolWrite3 (d : BitVec 4) (s : State) : Host.Outcome State Fault Refusal :=
  .next (s.setPsg (latchVolume .n d s.psg))

/-- `NOISE_CTRL f, nn` (40_psg_writes.md R124). -/
def execNoiseCtrl (f : BitVec 1) (nn : BitVec 2) (s : State) : Host.Outcome State Fault Refusal :=
  .next (s.setPsg (latchNoise s.cfg f nn s.psg))

/-- `DATA u` (40_psg_writes.md R126, R127). -/
def execData (u : BitVec 6) (s : State) : Host.Outcome State Fault Refusal :=
  .next (s.setPsg (dataByte s.cfg u s.psg))

end Sys2Proof.Machine
end

