-- ==== Sys2Proof/Machine/PsgSample.lean ====
section
/-! DEFINITION. SAMPLE and UPDATE (41_psg_sample.md). -/
namespace Sys2Proof.Machine

/-- A boundary at zero: take it and reload the counter with the period in force (41_psg_sample.md R142). -/
def reload (boundary : Osc → Osc) (period : Nat) (o : Osc) : Osc :=
  if o.cnt = 0 then { boundary o with cnt := period } else o

/-- The loop of 41_psg_sample.md R142: `left` units of the window to go, `high` counted so far. Every pass consumes at least one
unit, so a fuel above `left` never runs out. -/
def accLoop (boundary : Osc → Osc) (period : Nat) : Nat → Nat → Nat → Osc → Nat × Osc
  | 0, _, high, o => (high, o)
  | fuel + 1, left, high, o =>
    let o1 := reload boundary period o
    if left = 0 then (high, o1)
    else
      let seg := min o1.cnt left
      accLoop boundary period fuel (left - seg) (if o1.out then high + seg else high) { o1 with cnt := o1.cnt - seg }

/-- `Acc(c)` over a window of `unit` units: the high-time and the channel afterwards (41_psg_sample.md R142; R143 for period 0). -/
def acc (boundary : Osc → Osc) (period unit : Nat) (o : Osc) : Nat × Osc :=
  if period = 0 then (unit, holdHigh o) else accLoop boundary period (unit + 1) unit 0 o

/-- `Acc(c)` of a tone channel of the PSG. -/
def accTone (p : Params) (g : Psg) (c : ToneCh) : Nat × Osc :=
  acc toneBoundary (g.period.get c.chan) p.unit ⟨g.cnt.get c.chan, g.out.get c.chan, g.lfsr⟩

/-- `Acc(3)` of the PSG. -/
def accNoise (p : Params) (g : Psg) : Nat × Osc :=
  acc (noiseBoundary g.tapmask) g.period.n p.unit ⟨g.cnt.n, g.out.n, g.lfsr⟩

/-- Weight, clamp and scale four high-times (41_psg_sample.md R140, R148, R149). -/
def weigh (p : Params) (vol : PerChan (BitVec 4)) (h0 h1 h2 h3 : Nat) : Nat :=
  min (h0 * volOf p vol.t0 + h1 * volOf p vol.t1 + h2 * volOf p vol.t2 + h3 * volOf p vol.n) (p.outCeil * p.unit) / p.unit

/-- `SAMPLE` on the PSG: the output and the PSG one window later (41_psg_sample.md R140). -/
def samplePsg (p : Params) (g : Psg) : Nat × Psg :=
  let a0 := accTone p g .t0
  let a1 := accTone p g .t1
  let a2 := accTone p g .t2
  let a3 := accNoise p g
  (weigh p g.volidx a0.1 a1.1 a2.1 a3.1,
   { g with
     cnt := ⟨a0.2.cnt, a1.2.cnt, a2.2.cnt, a3.2.cnt⟩
     out := ⟨a0.2.out, a1.2.out, a2.2.out, a3.2.out⟩
     lfsr := a3.2.lfsr })

/-- `n` consecutive SAMPLEs: the outputs in order and the PSG afterwards (41_psg_sample.md R153). -/
def updatePsg (p : Params) : Nat → Psg → List Nat × Psg
  | 0, g => ([], g)
  | n + 1, g =>
    let a := samplePsg p g
    let rest := updatePsg p n a.2
    (a.1 :: rest.1, rest.2)

/-- `SAMPLE` (41_psg_sample.md R140): `PSG_OUT` on the bus of `PSG_SMP`. -/
def execSample (s : State) : Host.Outcome State Fault Refusal :=
  .next ((s.setPsg (samplePsg s.cfg s.psg).2).setBus { s.bus with psgOut := (samplePsg s.cfg s.psg).1 })

/-- `UPDATE n` (41_psg_sample.md R153): the `n` values of `PSG_OUT` on the bus of `PSG_UPD`. -/
def execUpdate (n : Nat) (s : State) : Host.Outcome State Fault Refusal :=
  .next ((s.setPsg (updatePsg s.cfg n s.psg).2).setBus { s.bus with updOut := (updatePsg s.cfg n s.psg).1 })

end Sys2Proof.Machine
end

