-- ==== Sys2Proof/Machine/System.lean ====
section
/-! DEFINITION. The two resets (44_system_ops.md R230 to R232) and the change of a configuration input (R233). -/
namespace Sys2Proof.Machine

/-- The hard reset: latch the reset-time inputs, every state element to its value of 10_state.md R41 (44_system_ops.md R230). The
live inputs are not changed. -/
def hardReset (s : State) : State :=
  (((s.setCfg s.cfgIn).setPsg (Psg.atReset s.cfgIn)).setFlt ⟨Lane.atReset, Lane.atReset⟩).setFifo Fifo.atReset

/-- `RESET_HARD` (44_system_ops.md R230). Refused: AUD inside a CONSUME (R232), a parameter outside its constraint (60_exceptions.md
R242). -/
def execResetHard (s : State) : Host.Outcome State Fault Refusal :=
  if s.fifo.consuming.isSome then .refused .resetWhileConsuming
  else if s.cfgIn.Valid then .next (hardReset s)
  else .refused .parameterOutOfRange

/-- `RESET_SOFT`: nothing (44_system_ops.md R231). -/
def execResetSoft (s : State) : Host.Outcome State Fault Refusal := .next s

end Sys2Proof.Machine
end

