-- ==== Sys2Proof/Machine/Dispatch.lean ====
section
/-! DEFINITION. One arm per operation, each a direct call of its meaning. -/
namespace Sys2Proof.Machine

def exec (i : Instr) (s : State) : Host.Outcome State Fault Refusal :=
  match i with
  | .toneLatch0 d => Sys2Proof.Machine.execToneLatch0 d s
  | .volWrite0 d => Sys2Proof.Machine.execVolWrite0 d s
  | .toneLatch1 d => Sys2Proof.Machine.execToneLatch1 d s
  | .volWrite1 d => Sys2Proof.Machine.execVolWrite1 d s
  | .toneLatch2 d => Sys2Proof.Machine.execToneLatch2 d s
  | .volWrite2 d => Sys2Proof.Machine.execVolWrite2 d s
  | .noiseCtrl f nn => Sys2Proof.Machine.execNoiseCtrl f nn s
  | .volWrite3 d => Sys2Proof.Machine.execVolWrite3 d s
  | .data u => Sys2Proof.Machine.execData u s
  | .sample => Sys2Proof.Machine.execSample s
  | .update n => Sys2Proof.Machine.execUpdate n s
  | .mix fmL fmR psg => Sys2Proof.Machine.execMix fmL fmR psg s
  | .filter xL xR => Sys2Proof.Machine.execFilter xL xR s
  | .produce burst => Sys2Proof.Machine.execProduce burst s
  | .consume n => Sys2Proof.Machine.execConsume n s
  | .count => Sys2Proof.Machine.execCount s
  | .resetHard => Sys2Proof.Machine.execResetHard s
  | .resetSoft => Sys2Proof.Machine.execResetSoft s

end Sys2Proof.Machine
end

