-- ==== Sys2Proof/Machine/Schedule.lean ====
section
/-! DEFINITION. Turns of the two agents (20_memory.md R76), and placing an operation so that it is the next thing to run. -/
namespace Sys2Proof.Machine

/-- The first atom of an operation: P1 or C1 of a FIFO operation, the whole of any other (20_memory.md R76). -/
def beginInstr (i : Instr) (s : State) : Host.Outcome State Fault Refusal :=
  match i with
  | .produce burst => startProduce burst s
  | .consume n => startConsume n s
  | .toneLatch0 _ => exec i s
  | .volWrite0 _ => exec i s
  | .toneLatch1 _ => exec i s
  | .volWrite1 _ => exec i s
  | .toneLatch2 _ => exec i s
  | .volWrite2 _ => exec i s
  | .noiseCtrl _ _ => exec i s
  | .volWrite3 _ => exec i s
  | .data _ => exec i s
  | .sample => exec i s
  | .update _ => exec i s
  | .mix _ _ _ => exec i s
  | .filter _ _ => exec i s
  | .count => exec i s
  | .resetHard => exec i s
  | .resetSoft => exec i s

/-- Run an operation: whole, or only its first atom. -/
def runInstr (whole : Bool) (i : Instr) (s : State) : Host.Outcome State Fault Refusal :=
  if whole then exec i s else beginInstr i s

/-- An agent uses a port: its own runs the operation, another's is refused (60_exceptions.md R242, R250). -/
def issueUse (a : Agent) (whole : Bool) (u : PortUse) (s : State) : Host.Outcome State Fault Refusal :=
  if u.agent = a then runInstr whole (decode u) s else .refused .wrongAgent

/-- One event of EMU's order: a use of a port, or a change of an input, which writes no state of the block (00_scope.md R9;
44_system_ops.md R233). -/
def hostEvent (whole : Bool) (e : HostEvent) (s : State) : Host.Outcome State Fault Refusal :=
  match e with
  | .use u => issueUse .emu whole u s
  | .setLpfPct p => .next (s.setLive { s.live with lpfPct := p })
  | .setFmEn b => .next (s.setLive { s.live with fmEn := b })
  | .setPsgEn b => .next (s.setLive { s.live with psgEn := b })
  | .setParams p => .next (s.setCfgIn p)

/-- EMU's turn: its PRODUCE in flight moves one atom; otherwise it issues its next event, if there is one (00_scope.md R9). -/
def emuTurn (whole : Bool) (s : State) : Host.Outcome State Fault Refusal :=
  match s.fifo.producing with
  | some _ => .next (produceAtom s)
  | none =>
    match s.env.emuQ with
    | [] => .next s
    | e :: rest => hostEvent whole e (s.setEnv { s.env with emuQ := rest })

/-- AUD's turn: its CONSUME in flight moves one atom; otherwise it issues its next operation, if there is one. -/
def audTurn (whole : Bool) (s : State) : Host.Outcome State Fault Refusal :=
  match s.fifo.consuming with
  | some _ => .next (consumeAtom s)
  | none =>
    match s.env.audQ with
    | [] => .next s
    | u :: rest => issueUse .aud whole u (s.setEnv { s.env with audQ := rest })

/-- One turn. -/
def runTurn (t : Turn) (s : State) : Host.Outcome State Fault Refusal :=
  match t with
  | .atom .emu => emuTurn false s
  | .atom .aud => audTurn false s
  | .whole .emu => emuTurn true s
  | .whole .aud => audTurn true s

/-- Nothing is in flight and nothing is waiting to be issued. -/
def State.idle (s : State) : Bool :=
  s.fifo.producing.isNone && s.fifo.consuming.isNone && s.env.emuQ.isEmpty && s.env.audQ.isEmpty

/-- The turn a free value stands for. -/
def turnOfNat (n : Nat) : Turn :=
  if n % 4 = 0 then .atom .emu else if n % 4 = 1 then .atom .aud else if n % 4 = 2 then .whole .emu else .whole .aud

/-- The next turn: the environment's, or, when it names none, a free one (log 8). With nothing to do the block stays as it is:
it fetches nothing and starts nothing (10_state.md R21; log 16). -/
def nextTurn (s : State) : Host.Outcome State Fault Refusal :=
  match s.env.turns with
  | t :: rest => runTurn t (s.setEnv { s.env with turns := rest })
  | [] =>
    if s.idle then .next s
    else runTurn (turnOfNat (Config.freeDraw s.env.drawn)) (s.setEnv { s.env with drawn := s.env.drawn + 1 })

/-- The state in which the next step is this use of a port, whole, by the agent that owns the port: the use first in that agent's
queue, the turn that agent's, and no operation of that agent in flight (log 1). -/
def placeUse (u : PortUse) (s : State) : State :=
  match u.agent with
  | .emu =>
    (s.setFifo { s.fifo with producing := none }).setEnv
      { s.env with emuQ := .use u :: s.env.emuQ, turns := .whole .emu :: s.env.turns }
  | .aud =>
    (s.setFifo { s.fifo with consuming := none }).setEnv
      { s.env with audQ := u :: s.env.audQ, turns := .whole .aud :: s.env.turns }

end Sys2Proof.Machine
end

