-- ==== Sys2Proof/Machine/Step.lean ====
section
/-! DEFINITION. One step of the machine: one turn of one agent. -/
namespace Sys2Proof.Machine

/-- One step (20_memory.md R76; log 8). -/
def step (s : State) : Host.Outcome State Fault Refusal := nextTurn s

/-- `s` with the table word placed as the next operation to run (log 1, 2); `s` itself where no port has a bus of that width. -/
def State.withFetchWord (s : State) (nbits w : Nat) : State :=
  match tableUse nbits w with
  | some u => placeUse u s
  | none => s

end Sys2Proof.Machine
end

