-- ==== Sys2Proof/Safety.lean ====
section
/-! DEFINITION. What a good state is: the invariants the spec states, in the terms the claims use, and runs of the machine. -/
namespace Sys2Proof.Machine

/-! The PSG. -/

/-- The largest value a tone counter can hold (60_exceptions.md R251). -/
def toneCntMax (p : Params) : Nat := 1023 * p.updateStep

/-- The largest value the noise counter can hold: the longest of the four noise periods of 10_state.md R28. DESIGN CHOICE (log 19): the spec
bounds it by `2046*UPDATE_STEP` (R20, R29) and by `max(NOISE_DIV[2], 2046)*UPDATE_STEP` (60_exceptions.md R251), while 00_scope.md R4 lets
every `NOISE_DIV` be any integer from 1 on; all three bounds are the same number where no `NOISE_DIV` is above 2046. -/
def noiseCntMax (p : Params) : Nat :=
  max (max p.noiseDiv.d0 p.noiseDiv.d1) (max p.noiseDiv.d2 2046) * p.updateStep

/-- The derived state agrees with the registers, the shift register is not zero and no counter is above its bound
(10_state.md R27, R28, R29, R32, R33; 60_exceptions.md R251; for the noise counter's bound log 19). -/
structure PsgInv (p : Params) (g : Psg) : Prop where
  tonePeriods : ∀ c : ToneCh, g.period.get c.chan =
    if (g.tone.get c).toNat ≤ 1 then 0 else (g.tone.get c).toNat * p.updateStep
  noiseFixed : ∀ k : Nat, k < 3 → (g.nctrl.toNat % 4 = k → g.period.n =
    (if k = 0 then p.noiseDiv.d0 else if k = 1 then p.noiseDiv.d1 else p.noiseDiv.d2) * p.updateStep)
  noiseLinked : g.nctrl.toNat % 4 = 3 → g.period.n = 2 * g.period.get p.noiseLinkCh.chan
  taps : g.tapmask = if g.nctrl.getLsbD 2 then p.tapsWhite else p.tapsPeriodic
  lfsrNonzero : g.lfsr ≠ 0#16
  toneCnt : ∀ c : ToneCh, g.cnt.get c.chan ≤ toneCntMax p
  noiseCnt : g.cnt.n ≤ noiseCntMax p

/-! The filter. -/

/-- `X1` of both lanes is a sample (10_state.md R34). -/
def FilterInv (f : Stereo Lane) : Prop := IsSample f.l.x1 ∧ IsSample f.r.x1

/-- The DC blocker's state is bounded for the default alpha (10_state.md R34): `Y1` is below 65409 in magnitude. The clause on
`Y1 - X1` is what makes the bound inductive. -/
structure DcBounded (lane : Lane) : Prop where
  sample : IsSample lane.x1
  gap : -32968 ≤ lane.y1 - lane.x1 ∧ lane.y1 - lane.x1 ≤ 32968
  bound : -65409 < lane.y1 ∧ lane.y1 < 65409

/-! The FIFO. -/

/-- `FILL`, the number of valid frames (10_state.md R38). -/
def Fifo.fill (cap : Nat) (q : Fifo) : Nat := ringDist cap q.rcur q.wcur

/-- The frames of `k` slots from ring position `start` on. -/
def slotRun (cap : Nat) (slots : Memory) (start k : Nat) : List Frame :=
  (List.range k).map (fun i => (slotLookup (advance cap start i) slots).getD Frame.zero)

/-- The valid frames, oldest first (10_state.md R38). -/
def Fifo.queue (cap : Nat) (q : Fifo) : List Frame := slotRun cap q.slots q.rcur (q.fill cap)

/-- The length of a walk round the ring through the given positions in turn. -/
def walkLength (cap : Nat) : List Nat → Nat
  | [] => 0
  | [_] => 0
  | a :: b :: rest => ringDist cap a b + walkLength cap (b :: rest)

/-- Every cursor value an agent may still observe, in ring order from `R_OBS`: EMU's observation and what it has not yet seen of
`H(RCUR)` (the last is `RCUR`), then AUD's observation and what it has not yet seen of `H(WCUR)` (the last is `WCUR`). -/
def Fifo.positions (q : Fifo) : List Nat := (q.rObs :: q.unseenR) ++ (q.wObs :: q.unseenW)

/-- The cursors: `RCUR` and `WCUR` are the latest published values, every position is an index, and `R_OBS`, `RCUR`, `W_OBS`,
`WCUR` with everything unseen between them lie in this ring order within one lap (10_state.md R37, R38, R39). -/
structure CursorInv (cap : Nat) (q : Fifo) : Prop where
  latestR : (q.rObs :: q.unseenR).getLast? = some q.rcur
  latestW : (q.wObs :: q.unseenW).getLast? = some q.wcur
  indices : ∀ x ∈ q.positions, x < cap
  oneLap : walkLength cap q.positions ≤ cap - 1

/-- The slot memory: canonical, every listed index is a slot, and every valid frame's slot was written (10_state.md R36, R38;
20_memory.md R61, R78). -/
structure SlotInv (cap : Nat) (q : Fifo) : Prop where
  canonical : q.slots.wf = true
  indices : ∀ x ∈ q.slots, x.1 < cap
  written : ∀ k, k < q.fill cap → slotLookup (advance cap q.rcur k) q.slots ≠ none

/-- A PRODUCE in flight accepted no more than the free space, its writes still to come are its own frames at their own slots, each
once, and every other accepted frame is already in its slot (43_fifo_ops.md R200). -/
structure ProducingInv (cap : Nat) (q : Fifo) (c : ProduceCtl) : Prop where
  fits : c.accepted.length ≤ cap - 1 - ringDist cap q.rObs q.wcur
  own : ∀ w ∈ c.pending, ∃ i, ∃ f, c.accepted[i]? = some f ∧ w = (advance cap q.wcur i, f)
  once : (c.pending.map (·.1)).Nodup
  landed : ∀ i f, c.accepted[i]? = some f →
    (advance cap q.wcur i, f) ∈ c.pending ∨ slotLookup (advance cap q.wcur i) q.slots = some f

/-- A CONSUME in flight delivers no more than is available, its reads still to come are its own, each once, and what it has read is
what the slots hold (43_fifo_ops.md R206). -/
structure ConsumingInv (cap : Nat) (q : Fifo) (c : ConsumeCtl) : Prop where
  fits : c.got.length ≤ ringDist cap q.rcur q.wObs
  wanted : c.got.length ≤ c.wanted
  own : ∀ i ∈ c.pending, i < c.got.length
  once : c.pending.Nodup
  read : ∀ i, i < c.got.length → i ∉ c.pending →
    c.got[i]? = some (slotLookup (advance cap q.rcur i) q.slots)

/-- The FIFO's invariant, with either, both or neither operation in flight. -/
structure FifoInv (cap : Nat) (q : Fifo) : Prop where
  cursors : CursorInv cap q
  slots : SlotInv cap q
  producing : ∀ c, q.producing = some c → ProducingInv cap q c
  consuming : ∀ c, q.consuming = some c → ConsumingInv cap q c

/-! Channel time, unit by unit: the clear reading of 41_psg_sample.md R142 that the loop of the model is held against. -/

/-- One unit of channel time passes: the counter goes down, and a boundary is taken the moment it reaches zero. -/
def unitTick (boundary : Osc → Osc) (period : Nat) (o : Osc) : Osc := reload boundary period { o with cnt := o.cnt - 1 }

/-- `n` units of channel time: how many of them the output was high in, and the channel afterwards. -/
def byUnits (boundary : Osc → Osc) (period : Nat) : Nat → Osc → Nat × Osc
  | 0, o => (0, o)
  | n + 1, o =>
    let rest := byUnits boundary period n (unitTick boundary period o)
    ((if o.out then 1 else 0) + rest.1, rest.2)

/-- One window, unit by unit: a counter that is 0 on entry takes its boundary first; a period of 0 holds the output high
(41_psg_sample.md R142, R143). -/
def windowByUnits (boundary : Osc → Osc) (period unit : Nat) (o : Osc) : Nat × Osc :=
  if period = 0 then (unit, { o with out := true }) else byUnits boundary period unit (reload boundary period o)

/-- `m` windows in a row: the high-times added up, and the channel afterwards (41_psg_sample.md R141, R146). -/
def windows (boundary : Osc → Osc) (period unit : Nat) : Nat → Osc → Nat × Osc
  | 0, o => (0, o)
  | m + 1, o =>
    let a := acc boundary period unit o
    let rest := windows boundary period unit m a.2
    (a.1 + rest.1, rest.2)

/-- The number of 1 bits of a 16-bit word. -/
def ones (v : BitVec 16) : Nat := ((List.range 16).filter (fun i => v.getLsbD i)).length

/-- `n` shifts of the noise register: the output bits in order and the register afterwards (41_psg_sample.md R154). -/
def shifts (taps : BitVec 16) : Nat → BitVec 16 → List Bool × BitVec 16
  | 0, v => ([], v)
  | n + 1, v =>
    let w := lfsrShift taps v
    let rest := shifts taps n w
    (w.getLsbD 0 :: rest.1, rest.2)

/-! What one operation leaves alone. -/

/-- Nothing outside the PSG changed. -/
def OnlyPsg (s t : State) : Prop :=
  t.flt = s.flt ∧ t.fifo = s.fifo ∧ t.cfg = s.cfg ∧ t.cfgIn = s.cfgIn ∧ t.live = s.live ∧ t.bus = s.bus ∧ t.env = s.env

/-- Nothing outside the FIFO, the result buses and the draws changed. -/
def OnlyFifo (s t : State) : Prop :=
  t.psg = s.psg ∧ t.flt = s.flt ∧ t.cfg = s.cfg ∧ t.cfgIn = s.cfgIn ∧ t.live = s.live ∧
  t.env.emuQ = s.env.emuQ ∧ t.env.audQ = s.env.audQ ∧ t.env.turns = s.env.turns

/-- The periods after a change of `TONE[c]` (10_state.md R27; 40_psg_writes.md R122). -/
def Rederived (s t : State) (c : ToneCh) : Prop :=
  t.psg.period.get c.chan =
    (if (t.psg.tone.get c).toNat ≤ 1 then 0 else (t.psg.tone.get c).toNat * s.cfg.updateStep) ∧
  (∀ e : ToneCh, e ≠ c → t.psg.period.get e.chan = s.psg.period.get e.chan) ∧
  t.psg.period.n =
    (if c = s.cfg.noiseLinkCh ∧ s.psg.nctrl.toNat % 4 = 3 then 2 * t.psg.period.get c.chan else s.psg.period.n)

/-- A tone-period write changed `TONE[c]` to `v` and the periods with it, and nothing else of the PSG but `LATCH`. -/
def ToneBecomes (s t : State) (c : ToneCh) (v : Nat) : Prop :=
  (t.psg.tone.get c).toNat = v ∧ (∀ e : ToneCh, e ≠ c → t.psg.tone.get e = s.psg.tone.get e) ∧ Rederived s t c ∧
  t.psg.nctrl = s.psg.nctrl ∧ t.psg.volidx = s.psg.volidx ∧ t.psg.cnt = s.psg.cnt ∧ t.psg.out = s.psg.out ∧
  t.psg.lfsr = s.psg.lfsr ∧ t.psg.tapmask = s.psg.tapmask

/-- A volume write changed `VOLIDX[c]` to `d`, and nothing else of the PSG but `LATCH`. -/
def VolumeBecomes (s t : State) (c : Chan) (d : BitVec 4) : Prop :=
  t.psg.volidx.get c = d ∧ (∀ e : Chan, e ≠ c → t.psg.volidx.get e = s.psg.volidx.get e) ∧
  t.psg.tone = s.psg.tone ∧ t.psg.nctrl = s.psg.nctrl ∧ t.psg.period = s.psg.period ∧ t.psg.cnt = s.psg.cnt ∧
  t.psg.out = s.psg.out ∧ t.psg.lfsr = s.psg.lfsr ∧ t.psg.tapmask = s.psg.tapmask

/-- A noise-control write with fields `f` and `nn`, apart from `LATCH` (40_psg_writes.md R124). -/
def NoiseBecomes (s t : State) (f nn : Nat) : Prop :=
  t.psg.nctrl.toNat = 4 * f + nn ∧
  t.psg.tapmask = (if f = 1 then s.cfg.tapsWhite else s.cfg.tapsPeriodic) ∧
  t.psg.period.n =
    (if nn = 0 then s.cfg.noiseDiv.d0 * s.cfg.updateStep
     else if nn = 1 then s.cfg.noiseDiv.d1 * s.cfg.updateStep
     else if nn = 2 then s.cfg.noiseDiv.d2 * s.cfg.updateStep
     else 2 * s.psg.period.get s.cfg.noiseLinkCh.chan) ∧
  (∀ e : ToneCh, t.psg.period.get e.chan = s.psg.period.get e.chan) ∧
  t.psg.lfsr = s.cfg.lfsrPreset ∧ t.psg.out.n = s.cfg.lfsrPreset.getLsbD 0 ∧
  (∀ e : ToneCh, t.psg.out.get e.chan = s.psg.out.get e.chan) ∧
  t.psg.tone = s.psg.tone ∧ t.psg.volidx = s.psg.volidx ∧ t.psg.cnt = s.psg.cnt

/-! Which operations write which part of the PSG (10_state.md R20). -/

/-- The operation lets channel time pass: SAMPLE, or UPDATE, which is SAMPLEs (41_psg_sample.md R153). -/
def RunsTime (i : Instr) : Prop := i = .sample ∨ ∃ n, i = .update n

/-- The operation writes `TONE[c]`: its latch byte, or a data byte while its register is latched (40_psg_writes.md R121, R126). -/
def WritesTone (s : State) (i : Instr) (c : ToneCh) : Prop :=
  (∃ d, i = toneLatchOf c d) ∨ (s.psg.latch.toNat = 2 * c.index ∧ ∃ u, i = .data u)

/-- The operation writes `VOLIDX[c]`: its latch byte, or under `low4` a data byte while its register is latched (40_psg_writes.md R123,
R127). -/
def WritesVolume (s : State) (i : Instr) (c : Chan) : Prop :=
  (∃ d, i = volWriteOf c d) ∨ (s.cfg.dataNontone = .low4 ∧ s.psg.latch.toNat = 2 * c.index + 1 ∧ ∃ u, i = .data u)

/-- The operation is a noise-control write: NOISE_CTRL, or under `low4` a data byte while its register is latched (40_psg_writes.md R124,
R127). -/
def WritesNoise (s : State) (i : Instr) : Prop :=
  (∃ f nn, i = .noiseCtrl f nn) ∨ (s.cfg.dataNontone = .low4 ∧ s.psg.latch.toNat = 6 ∧ ∃ u, i = .data u)

/-- `n` uses of SAMPLE in a row: the outputs in order and the state afterwards. -/
def sampleTimes : Nat → State → Option (List Nat × State)
  | 0, s => some ([], s)
  | n + 1, s =>
    match exec .sample s with
    | .next t => (sampleTimes n t).map (fun r => (t.bus.psgOut :: r.1, r.2))
    | .fault _ => none
    | .refused _ => none

/-- The operands lie in their declared ranges under the parameters in force (30_encoding.md R102; 42_mix_filter.md R170, R174;
43_fifo_ops.md R200). -/
def OperandsInRange (p : Params) : Instr → Prop
  | .toneLatch0 _ => True
  | .volWrite0 _ => True
  | .toneLatch1 _ => True
  | .volWrite1 _ => True
  | .toneLatch2 _ => True
  | .volWrite2 _ => True
  | .noiseCtrl _ _ => True
  | .volWrite3 _ => True
  | .data _ => True
  | .sample => True
  | .update _ => True
  | .mix fmL fmR psg => IsSample fmL ∧ IsSample fmR ∧ psg ≤ p.outCeil
  | .filter xL xR => IsSample xL ∧ IsSample xR
  | .produce burst => ∀ f ∈ burst, f.InRange
  | .consume _ => True
  | .count => True
  | .resetHard => True
  | .resetSoft => True

/-! The whole machine and its runs. -/

/-- The parameters in force satisfy their constraints, and each sub-block its invariant. -/
structure Inv (s : State) : Prop where
  cfg : s.cfg.Valid
  psg : PsgInv s.cfg s.psg
  flt : FilterInv s.flt
  fifo : FifoInv s.cfg.capacity s.fifo

/-- The machine after `k` steps; none if a step before that does not give a next state. -/
def stepsTo : Nat → State → Option State
  | 0, s => some s
  | k + 1, s =>
    match step s with
    | .next t => stepsTo k t
    | .fault _ => none
    | .refused _ => none

/-- The frames that became visible between two states: those of the slots `WCUR` moved over (43_fifo_ops.md R204). -/
def published (s t : State) : List Frame :=
  slotRun t.cfg.capacity t.fifo.slots s.fifo.wcur (ringDist t.cfg.capacity s.fifo.wcur t.fifo.wcur)

/-- The frames, fillers left out, that AUD received between two states: the first of its result bus, as many as `RCUR` moved over
(43_fifo_ops.md R206, R207). -/
def received (s t : State) : List Frame :=
  t.bus.popOut.take (ringDist t.cfg.capacity s.fifo.rcur t.fifo.rcur)

/-- All the frames published in `k` steps, in order. -/
def publishedIn : Nat → State → List Frame
  | 0, _ => []
  | k + 1, s =>
    match step s with
    | .next t => published s t ++ publishedIn k t
    | .fault _ => []
    | .refused _ => []

/-- All the frames AUD received in `k` steps, in order. -/
def receivedIn : Nat → State → List Frame
  | 0, _ => []
  | k + 1, s =>
    match step s with
    | .next t => received s t ++ receivedIn k t
    | .fault _ => []
    | .refused _ => []

/-- EMU will issue no hard reset. -/
def NoHardReset (s : State) : Prop := HostEvent.use (.rst 1#1) ∉ s.env.emuQ

end Sys2Proof.Machine
end

