-- ==== Sys2Proof/Certificates/Slice0/Obligations.lean ====
section
/-! DEFINITION. The statements for the provers. Each docstring names the rule of spec/ it formalises. Where a rule carries the
spec's own decision (D<n>) or is one of its own derivations, the statement is 'derived' and its docstring says so. -/

open Sys2Proof Sys2Proof.Machine

/-! Encoding. -/

/-- Every well-formed operation is what the decoder reads from its own encoding. The layout of the byte is the spec's decision D3
(general knowledge of the family). -/
def Obligations.DecodeOfEncodeIsTheInstruction : Prop :=
  ∀ i : Instr, i.wf = true → decode (encode i) = i

/-- Two uses of a port are the same operation exactly when they differ in ignored bits only: encoding what was decoded clears bit 6
of a data byte and bit 3 of a noise-control byte and changes nothing else (R99, the spec's decision D7). -/
def Obligations.EncodeOfDecodeClearsOnlyIgnoredBits : Prop :=
  ∀ u : PortUse, encode (decode u) = u.canonical

/-- R93, R97: the decode of a byte, in numbers: `r = b[6:4]`, `d = b[3:0]`, and of a noise-control byte `f = b[2]`, `nn = b[1:0]`. The layout
of the byte is the spec's decision D3, the places of `f` and `nn` its decision D7 (both general knowledge, log 18). -/
def Obligations.ByteDecodesByItsBits : Prop :=
  ∀ b : Byte,
    (b.toNat < 128 → decodeByte b = .data (BitVec.ofNat 6 (b.toNat % 64))) ∧
    (128 ≤ b.toNat →
      (b.toNat / 16 % 8 = 6 →
        decodeByte b = .noiseCtrl (BitVec.ofNat 1 (b.toNat / 4 % 2)) (BitVec.ofNat 2 (b.toNat % 4))) ∧
      (b.toNat / 16 % 8 = 0 → decodeByte b = .toneLatch0 (BitVec.ofNat 4 (b.toNat % 16))) ∧
      (b.toNat / 16 % 8 = 1 → decodeByte b = .volWrite0 (BitVec.ofNat 4 (b.toNat % 16))) ∧
      (b.toNat / 16 % 8 = 2 → decodeByte b = .toneLatch1 (BitVec.ofNat 4 (b.toNat % 16))) ∧
      (b.toNat / 16 % 8 = 3 → decodeByte b = .volWrite1 (BitVec.ofNat 4 (b.toNat % 16))) ∧
      (b.toNat / 16 % 8 = 4 → decodeByte b = .toneLatch2 (BitVec.ofNat 4 (b.toNat % 16))) ∧
      (b.toNat / 16 % 8 = 5 → decodeByte b = .volWrite2 (BitVec.ofNat 4 (b.toNat % 16))) ∧
      (b.toNat / 16 % 8 = 7 → decodeByte b = .volWrite3 (BitVec.ofNat 4 (b.toNat % 16))))

/-- R94: the nine rows partition the 256 bytes (the spec's own derivation), and a byte decodes to the operation of the one row that
selects it. -/
def Obligations.EveryByteSelectsExactlyItsRow : Prop :=
  ∀ b : Byte, some ((byteRows.filter (fun row => row.selects b)).map (fun row => row.mnemonic)) =
    (decodeByte b).byteRow.map (fun m => [m])

/-- A few words written out from 30_encoding.md R94, R102 and R104, one or more for each port that takes operands. -/
def Obligations.WrittenWordsDecode : Prop :=
  decode (.psgWr 0x85#8) = .toneLatch0 5#4 ∧ decode (.psgWr 0xAF#8) = .toneLatch1 15#4 ∧
  decode (.psgWr 0xD2#8) = .volWrite2 2#4 ∧ decode (.psgWr 0xEC#8) = .noiseCtrl 1#1 0#2 ∧
  decode (.psgWr 0x42#8) = .data 2#6 ∧
  decode (.psgUpd 0x8001#16) = .update 32769 ∧ decode (.fifoPop 0x000A#16) = .consume 10 ∧
  decode (.mixIn 0x0064FF9C00C8#48) = .mix 100 (-100) 200 ∧
  decode (.fltIn 0x80007FFF#32) = .filter (-32768) 32767 ∧
  decode (.fifoPush [0x00010002#32, 0xFFFF0000#32]) = .produce [⟨1, 2⟩, ⟨-1, 0⟩] ∧
  decode (.rst 1#1) = .resetHard ∧ decode (.rst 0#1) = .resetSoft

/-! PSG writes. -/

/-- R121: `TONE_LATCH c, d` latches register `2c`, replaces the low 4 bits of `TONE[c]`, re-derives the periods (R122), and changes
nothing else. -/
def Obligations.ToneLatchWritesLowFourBits : Prop :=
  ∀ (s : State) (d : BitVec 4),
    (∃ t, exec (.toneLatch0 d) s = .next t ∧ t.psg.latch.toNat = 0 ∧ OnlyPsg s t ∧
      ToneBecomes s t .t0 (s.psg.tone.t0.toNat / 16 * 16 + d.toNat)) ∧
    (∃ t, exec (.toneLatch1 d) s = .next t ∧ t.psg.latch.toNat = 2 ∧ OnlyPsg s t ∧
      ToneBecomes s t .t1 (s.psg.tone.t1.toNat / 16 * 16 + d.toNat)) ∧
    (∃ t, exec (.toneLatch2 d) s = .next t ∧ t.psg.latch.toNat = 4 ∧ OnlyPsg s t ∧
      ToneBecomes s t .t2 (s.psg.tone.t2.toNat / 16 * 16 + d.toNat))

/-- R123: `VOL_WRITE c, d` latches register `2c + 1`, sets `VOLIDX[c]`, and changes nothing else. -/
def Obligations.VolWriteSetsTheIndex : Prop :=
  ∀ (s : State) (d : BitVec 4),
    (∃ t, exec (.volWrite0 d) s = .next t ∧ t.psg.latch.toNat = 1 ∧ OnlyPsg s t ∧ VolumeBecomes s t .t0 d) ∧
    (∃ t, exec (.volWrite1 d) s = .next t ∧ t.psg.latch.toNat = 3 ∧ OnlyPsg s t ∧ VolumeBecomes s t .t1 d) ∧
    (∃ t, exec (.volWrite2 d) s = .next t ∧ t.psg.latch.toNat = 5 ∧ OnlyPsg s t ∧ VolumeBecomes s t .t2 d) ∧
    (∃ t, exec (.volWrite3 d) s = .next t ∧ t.psg.latch.toNat = 7 ∧ OnlyPsg s t ∧ VolumeBecomes s t .n d)

/-- R124: `NOISE_CTRL f, nn` latches register 6, sets the control bits, the tap mask and the noise period, presets the shift register,
and changes nothing else but `OUT[3]`, which becomes bit 0 of the preset (that clause is the spec's decision D14). -/
def Obligations.NoiseCtrlSetsModeAndPresets : Prop :=
  ∀ (s : State) (f : BitVec 1) (nn : BitVec 2),
    ∃ t, exec (.noiseCtrl f nn) s = .next t ∧ t.psg.latch.toNat = 6 ∧ OnlyPsg s t ∧ NoiseBecomes s t f.toNat nn.toNat

/-- R126: a data byte while a tone register is latched replaces the upper 6 bits of that tone period, re-derives the periods, and
changes nothing else, `LATCH` included (the routing by `LATCH` is the spec's decision D5). -/
def Obligations.DataWritesHighSixBitsOfTheLatchedTone : Prop :=
  ∀ (s : State) (u : BitVec 6) (c : ToneCh), s.psg.latch.toNat = 2 * c.index →
    ∃ t, exec (.data u) s = .next t ∧ t.psg.latch = s.psg.latch ∧ OnlyPsg s t ∧
      ToneBecomes s t c (u.toNat * 16 + (s.psg.tone.get c).toNat % 16)

/-- R127: a data byte while a volume register or the noise control register is latched does nothing under `ignore`; under `low4` its
low 4 bits go to that register. `LATCH` stays. The two alternatives are the spec's decision D6. -/
def Obligations.DataOnOtherRegistersFollowsDataNontone : Prop :=
  ∀ (s : State) (u : BitVec 6),
    (∀ c : ToneCh, s.psg.latch.toNat ≠ 2 * c.index) →
    (s.cfg.dataNontone = .ignore → exec (.data u) s = .next s) ∧
    (s.cfg.dataNontone = .low4 → s.psg.latch.toNat = 6 →
      ∃ t, exec (.data u) s = .next t ∧ t.psg.latch = s.psg.latch ∧ OnlyPsg s t ∧
        NoiseBecomes s t (u.toNat / 4 % 2) (u.toNat % 4)) ∧
    (s.cfg.dataNontone = .low4 → ∀ c : Chan, s.psg.latch.toNat = 2 * c.index + 1 →
      ∃ t, exec (.data u) s = .next t ∧ t.psg.latch = s.psg.latch ∧ OnlyPsg s t ∧
        VolumeBecomes s t c (BitVec.ofNat 4 (u.toNat % 16)))

/-- R96: a latch byte then a data byte set the whole 10-bit period `u * 16 + d`; the latch byte alone keeps the upper 6 bits and a data
byte alone keeps the low 4. -/
def Obligations.LatchThenDataSetsTheWholePeriod : Prop :=
  ∀ (s : State) (c : ToneCh) (d : BitVec 4) (u : BitVec 6),
    ∃ t1 t2, exec (toneLatchOf c d) s = .next t1 ∧ exec (.data u) t1 = .next t2 ∧
      (t1.psg.tone.get c).toNat / 16 = (s.psg.tone.get c).toNat / 16 ∧ (t1.psg.tone.get c).toNat % 16 = d.toNat ∧
      (t2.psg.tone.get c).toNat = u.toNat * 16 + d.toNat ∧
      (∀ e : ToneCh, e ≠ c → t2.psg.tone.get e = s.psg.tone.get e) ∧ OnlyPsg s t2

/-- R120, R125: no byte on `PSG_WR`, whatever it decodes to, changes a counter, a tone channel's output level, the filter, the FIFO, an
input or a result bus (the spec's decision D17), and every byte takes effect: it gives a next state (R98). -/
def Obligations.NoWriteByteTouchesCountersOrToneLevels : Prop :=
  ∀ (b : Byte) (s : State), ∃ t, exec (decodeByte b) s = .next t ∧ OnlyPsg s t ∧ t.psg.cnt = s.psg.cnt ∧
    ∀ c : ToneCh, t.psg.out.get c.chan = s.psg.out.get c.chan

/-- R67: writing the same tone-latch, data or volume byte twice in a row leaves the same state as writing it once (the spec's own
derivation). -/
def Obligations.WritesAreIdempotent : Prop :=
  ∀ (b : Byte) (s : State), b.toNat / 16 ≠ 14 →
    ∃ t, exec (decodeByte b) s = .next t ∧ exec (decodeByte b) t = .next t

/-! SAMPLE and UPDATE. -/

/-- R140, R148, R149: SAMPLE always completes. Each channel runs one window, its high-time being the number of units its output was high
in; `PSG_OUT` is the weighted sum, clamped and scaled. Only `CNT`, `OUT`, `LFSR` and the port's bus change. The boundary at a window's edge
is the spec's decision D15, the clamp's scale D20. -/
def Obligations.SampleWeighsTheHighTimes : Prop :=
  ∀ s : State,
    let run (c : ToneCh) := windowByUnits toneBoundary (s.psg.period.get c.chan) s.cfg.unit
      ⟨s.psg.cnt.get c.chan, s.psg.out.get c.chan, s.psg.lfsr⟩
    let noise := windowByUnits (noiseBoundary s.psg.tapmask) s.psg.period.n s.cfg.unit ⟨s.psg.cnt.n, s.psg.out.n, s.psg.lfsr⟩
    let sum := (run .t0).1 * s.cfg.vol[s.psg.volidx.t0.toNat] + (run .t1).1 * s.cfg.vol[s.psg.volidx.t1.toNat] +
      (run .t2).1 * s.cfg.vol[s.psg.volidx.t2.toNat] + noise.1 * s.cfg.vol[s.psg.volidx.n.toNat]
    exec .sample s = .next
      { s with
        psg := { s.psg with
          cnt := ⟨(run .t0).2.cnt, (run .t1).2.cnt, (run .t2).2.cnt, noise.2.cnt⟩
          out := ⟨(run .t0).2.out, (run .t1).2.out, (run .t2).2.out, noise.2.out⟩
          lfsr := noise.2.lfsr }
        bus := { s.bus with psgOut := min sum (s.cfg.outCeil * s.cfg.unit) / s.cfg.unit } }

/-- R142: the loop over half-periods counts exactly what channel time, taken one unit at a time, gives, for any boundary action. -/
def Obligations.AccumulationEqualsUnitByUnitTime : Prop :=
  ∀ (boundary : Osc → Osc) (period unit : Nat) (o : Osc),
    acc boundary period unit o = windowByUnits boundary period unit o

/-- R141: channel time is continuous: a window of `a + b` units is a window of `a` then one of `b` (window size D8, edge D15). -/
def Obligations.ChannelTimeIsContinuous : Prop :=
  ∀ (boundary : Osc → Osc) (period a b : Nat) (o : Osc), 0 < period →
    acc boundary period (a + b) o =
      ((acc boundary period a o).1 + (acc boundary period b (acc boundary period a o).2).1,
       (acc boundary period b (acc boundary period a o).2).2)

/-- R146: the high-time never exceeds the window, and with a period the counter ends at 1 or more and at no more than the larger of the
period and what it held (the spec's own derivation). -/
def Obligations.AccumulationBounds : Prop :=
  ∀ (boundary : Osc → Osc) (period unit : Nat) (o : Osc),
    (acc boundary period unit o).1 ≤ unit ∧
    (0 < period → 1 ≤ (acc boundary period unit o).2.cnt ∧ (acc boundary period unit o).2.cnt ≤ max period o.cnt)

/-- R146: over whole periods a tone channel is high for exactly half the time, wherever in its phase it starts (the spec's own
derivation). -/
def Obligations.ToneIsHighHalfOfWholePeriods : Prop :=
  ∀ (period unit m : Nat) (o : Osc), 0 < period → o.cnt ≤ period → 2 * period ∣ m * unit →
    2 * (windows toneBoundary period unit m o).1 = m * unit

/-- R143: a channel whose period is 0 is high for the whole window; its counter and the shift register stay (the spec's decision
D16). -/
def Obligations.ZeroPeriodHoldsTheChannelHigh : Prop :=
  ∀ (s : State), ∃ t, exec .sample s = .next t ∧
    (∀ c : ToneCh, s.psg.period.get c.chan = 0 →
      (accTone s.cfg s.psg c).1 = s.cfg.unit ∧ t.psg.out.get c.chan = true ∧ t.psg.cnt.get c.chan = s.psg.cnt.get c.chan) ∧
    (s.psg.period.n = 0 →
      (accNoise s.cfg s.psg).1 = s.cfg.unit ∧ t.psg.out.n = true ∧ t.psg.cnt.n = s.psg.cnt.n ∧ t.psg.lfsr = s.psg.lfsr)

/-- R145: the shift in numbers: halve, and put the parity of the tapped bits in the top bit; the output level is bit 0 of the new value
(that bit is the spec's decision D14). R144: a tone boundary inverts the output level. -/
def Obligations.BoundariesShiftAndToggle : Prop :=
  ∀ (taps : BitVec 16) (o : Osc),
    (noiseBoundary taps o).lfsr.toNat = o.lfsr.toNat / 2 + 32768 * (ones (o.lfsr &&& taps) % 2) ∧
    (noiseBoundary taps o).out = decide ((noiseBoundary taps o).lfsr.toNat % 2 = 1) ∧
    (noiseBoundary taps o).cnt = o.cnt ∧ toneBoundary o = ⟨o.cnt, !o.out, o.lfsr⟩

/-- R155: with only bit 0 tapped the register rotates: after 16 shifts it is back, and it has put out its own bits 1 to 15 and then bit 0
(the spec's own derivation). -/
def Obligations.PeriodicNoiseRotates : Prop :=
  ∀ lfsr : BitVec 16, shifts 0x0001#16 16 lfsr =
    ((List.range 16).map (fun i => lfsr.getLsbD ((i + 1) % 16)), lfsr)

/-- R149: the output is the scaled sum, clamped to the output ceiling, whichever of the two is done first (the spec's decision D20). -/
def Obligations.OutputIsClampedToTheCeiling : Prop :=
  ∀ s : State, 1 ≤ s.cfg.unit → ∃ t, exec .sample s = .next t ∧ t.bus.psgOut ≤ s.cfg.outCeil ∧
    t.bus.psgOut = min (((accTone s.cfg s.psg .t0).1 * s.cfg.vol[s.psg.volidx.t0.toNat] +
      (accTone s.cfg s.psg .t1).1 * s.cfg.vol[s.psg.volidx.t1.toNat] +
      (accTone s.cfg s.psg .t2).1 * s.cfg.vol[s.psg.volidx.t2.toNat] +
      (accNoise s.cfg s.psg).1 * s.cfg.vol[s.psg.volidx.n.toNat]) / s.cfg.unit) s.cfg.outCeil

/-- R153: UPDATE n is n SAMPLEs: the same PSG afterwards, and their outputs in order on its own bus; nothing else changes (the spec's
decision D22). -/
def Obligations.UpdateIsThatManySamples : Prop :=
  ∀ (n : Nat) (s : State), ∃ outs u, sampleTimes n s = some (outs, u) ∧
    exec (.update n) s = .next ((s.setPsg u.psg).setBus { s.bus with updOut := outs })

/-- R153: phase is carried across calls: UPDATE a then UPDATE b leave the PSG of UPDATE (a+b) and give its outputs. -/
def Obligations.UpdatesCompose : Prop :=
  ∀ (a b : Nat) (s : State), ∃ t1 t2 t3, exec (.update a) s = .next t1 ∧ exec (.update b) t1 = .next t2 ∧
    exec (.update (a + b)) s = .next t3 ∧ t3.psg = t2.psg ∧ t3.bus.updOut = t1.bus.updOut ++ t2.bus.updOut ∧
    t1.bus.updOut.length = a

/-- R230, R262: after RESET_HARD, whatever the history and the parameters, every sample is 0 until something is written (reset values:
the spec's decision D36). -/
def Obligations.SilentAfterHardReset : Prop :=
  ∀ (s t : State) (n : Nat), exec .resetHard s = .next t →
    ∃ v, exec (.update n) t = .next v ∧ v.bus.updOut = List.replicate n 0

/-- R150: the default table's entries are the exact floors of the 2 dB law, and its last entry is silence (rounding: the spec's decision
D19). -/
def Obligations.VolumeTableIsTheFloorOfTheLaw : Prop :=
  ∀ ceil : Nat, ceil ≤ 32767 →
    (∀ i : Fin 15, (volTable ceil)[i.val] ^ 10 * 10 ^ i.val ≤ ceil ^ 10 ∧
      ceil ^ 10 < ((volTable ceil)[i.val] + 1) ^ 10 * 10 ^ i.val) ∧
    (volTable ceil)[15] = 0

/-! MIX and FILTER. -/

/-- R170: MIX of operands in range gives, lane by lane, the saturated sum of the two terms, a disabled source giving 0; only the port's bus
changes. -/
def Obligations.MixAddsWeightedTermsAndSaturates : Prop :=
  ∀ (s : State) (fmL fmR : Int) (psg : Nat), IsSample fmL → IsSample fmR → psg ≤ s.cfg.outCeil →
    let lane (fm : Int) := (if s.live.fmEn then (fm * 7).tdiv 8 else 0) + (if s.live.psgEn then ((psg : Int) * 3).tdiv 8 else 0)
    exec (.mix fmL fmR psg) s = .next { s with bus := { s.bus with
      mixOut := ⟨max (-32768) (min 32767 (lane fmL)), max (-32768) (min 32767 (lane fmR))⟩ } }

/-- R172: under valid parameters the sum of the two terms lies in -28672..40958, so that only the upper bound can bite, and a single source
is never saturated (the place of the saturation is the spec's decision D23). -/
def Obligations.MixSaturatesOnlyUpwards : Prop :=
  ∀ (s : State) (fmL fmR : Int) (psg : Nat), s.cfg.Valid → IsSample fmL → IsSample fmR → psg ≤ s.cfg.outCeil →
    let sum (fm : Int) := (fm * 7).tdiv 8 + ((psg : Int) * 3).tdiv 8
    (-28672 ≤ sum fmL ∧ sum fmL ≤ 40958) ∧ (-28672 ≤ sum fmR ∧ sum fmR ≤ 40958) ∧
    ∃ t, exec (.mix fmL fmR psg) s = .next t ∧
      (s.live.fmEn = true → s.live.psgEn = false → t.bus.mixOut = ⟨(fmL * 7).tdiv 8, (fmR * 7).tdiv 8⟩) ∧
      (s.live.fmEn = false → s.live.psgEn = true → t.bus.mixOut = ⟨((psg : Int) * 3).tdiv 8, ((psg : Int) * 3).tdiv 8⟩) ∧
      (s.live.fmEn = false → s.live.psgEn = false → t.bus.mixOut = ⟨0, 0⟩) ∧
      (s.live.fmEn = true → s.live.psgEn = true → t.bus.mixOut = ⟨min 32767 (sum fmL), min 32767 (sum fmR)⟩)

/-- R242 (usage contract, the spec's decision D42; 93_implementation_defined.md U12, U19): MIX, FILTER and PRODUCE with an operand outside
its declared range are refused, and so is a hard reset, no CONSUME being in flight, with a parameter outside its constraint. -/
def Obligations.ValuesOutOfRangeAreRefused : Prop :=
  ∀ (s : State),
    (∀ fmL fmR psg, ¬ OperandsInRange s.cfg (.mix fmL fmR psg) → exec (.mix fmL fmR psg) s = .refused .operandOutOfRange) ∧
    (∀ xL xR, ¬ OperandsInRange s.cfg (.filter xL xR) → exec (.filter xL xR) s = .refused .operandOutOfRange) ∧
    (∀ burst, ¬ OperandsInRange s.cfg (.produce burst) → exec (.produce burst) s = .refused .operandOutOfRange) ∧
    (s.fifo.consuming = none → ¬ s.cfgIn.Valid →
      exec .resetHard s = .refused .parameterOutOfRange)

/-- R174, R176, R178, R183: FILTER of a frame in range: in each lane the DC blocker, then the biquad on its output with the interpolated
coefficients, saturated on the way out only; the state keeps the unsaturated values, and nothing else but the port's bus changes.
The fixed-point forms are the spec's decisions D24 and D25. -/
def Obligations.FilterRunsDcBlockerThenBiquad : Prop :=
  ∀ (s : State) (xL xR : Int), IsSample xL → IsSample xR →
    let k := coef s.cfg.lpfFull s.live.lpfPct
    let ydc (lane : Lane) (x : Int) := ((s.cfg.alphaQ15 : Int) * (lane.y1 + x - lane.x1)).tdiv 32768
    let ylp (lane : Lane) (x : Int) := (k.b0 * ydc lane x + lane.z1).tdiv 16384
    let after (lane : Lane) (x : Int) : Lane :=
      ⟨x, ydc lane x, k.b1 * ydc lane x - k.a1 * ylp lane x + lane.z2, k.b2 * ydc lane x - k.a2 * ylp lane x⟩
    exec (.filter xL xR) s = .next { s with
      flt := ⟨after s.flt.l xL, after s.flt.r xR⟩
      bus := { s.bus with fltOut :=
        ⟨max (-32768) (min 32767 (ylp s.flt.l xL)), max (-32768) (min 32767 (ylp s.flt.r xR))⟩ } }

/-- R175: the left result and the left lane depend only on the left operand, the left lane, the percentage and the parameters; likewise
the right. -/
def Obligations.FilterLanesAreIndependent : Prop :=
  ∀ (s u : State) (xL xR zL zR : Int), IsSample xL → IsSample xR → IsSample zL → IsSample zR →
    s.cfg = u.cfg → s.live.lpfPct = u.live.lpfPct →
    ∃ t v, exec (.filter xL xR) s = .next t ∧ exec (.filter zL zR) u = .next v ∧
      (s.flt.l = u.flt.l → xL = zL → t.flt.l = v.flt.l ∧ t.bus.fltOut.l = v.bus.fltOut.l) ∧
      (s.flt.r = u.flt.r → xR = zR → t.flt.r = v.flt.r ∧ t.bus.fltOut.r = v.bus.fltOut.r)

/-- R179, R182: the coefficients are the bypass set at 0 percent and below, the full set at 100 percent and above, and in between bypass
plus the truncated share of the difference (rounding and clamp: the spec's decision D26). -/
def Obligations.CoefficientsInterpolateFromBypassToFull : Prop :=
  ∀ (full : Coefs) (p : Int),
    (p ≤ 0 → coef full p = ⟨16384, 0, 0, 0, 0⟩) ∧ (100 ≤ p → coef full p = full) ∧
    (0 ≤ p → p ≤ 100 →
      coef full p = ⟨16384 + ((full.b0 - 16384) * p).tdiv 100, (full.b1 * p).tdiv 100, (full.b2 * p).tdiv 100,
        (full.a1 * p).tdiv 100, (full.a2 * p).tdiv 100⟩)

/-- R180: at 0 percent, from the third FILTER on, whatever the delay elements held, the low-pass stage is the exact identity: the delay
elements are zero and the result is the saturated DC-blocked sample (the spec's own derivation; 90_conflicts.md C1). -/
def Obligations.BypassIsExactFromTheThirdStep : Prop :=
  ∀ (s : State) (x1 x2 x3 : Frame), s.live.lpfPct ≤ 0 → x1.InRange → x2.InRange → x3.InRange →
    ∃ t1 t2 t3, exec (.filter x1.l x1.r) s = .next t1 ∧ exec (.filter x2.l x2.r) t1 = .next t2 ∧
      exec (.filter x3.l x3.r) t2 = .next t3 ∧
      t2.flt.l.z1 = 0 ∧ t2.flt.l.z2 = 0 ∧ t2.flt.r.z1 = 0 ∧ t2.flt.r.z2 = 0 ∧
      t3.bus.fltOut = ⟨max (-32768) (min 32767 t3.flt.l.y1), max (-32768) (min 32767 t3.flt.r.y1)⟩

/-- R185: silence in, silence out: from cleared lanes FILTER 0, 0 gives (0, 0) and leaves the lanes cleared, whatever the percentage, the
full set and the alpha (the spec's own derivation). -/
def Obligations.SilenceInSilenceOut : Prop :=
  ∀ s : State, s.flt = ⟨⟨0, 0, 0, 0⟩, ⟨0, 0, 0, 0⟩⟩ →
    exec (.filter 0 0) s = .next { s with bus := { s.bus with fltOut := ⟨0, 0⟩ } }

/-- R34: with the default alpha no operation lets `Y1` reach 65409 in magnitude: every operation keeps the bound in both lanes (the
spec's own derivation; the clause on `Y1 - X1` that makes it inductive is this model's). -/
def Obligations.DcBlockerStaysBounded : Prop :=
  ∀ (i : Instr) (s t : State), s.cfg.alphaQ15 = 32604 → DcBounded s.flt.l → DcBounded s.flt.r → exec i s = .next t →
    DcBounded t.flt.l ∧ DcBounded t.flt.r

/-- R177: under a constant input the default DC blocker's output reaches exactly 0, from either sign, within as many steps as its
magnitude (the spec's own derivation). -/
def Obligations.DcBlockerDecaysToZero : Prop :=
  ∀ (lane : Lane) (x : Int), lane.x1 = x →
    ∃ n, n ≤ lane.y1.natAbs ∧ (((fun l => (dcBlock 32604 l x).2)^[n]) lane).y1 = 0

/-! The FIFO. -/

/-- R200, R201, R72: PRODUCE with no PRODUCE in flight. EMU observes some element of `H(RCUR)` not older than its last; what fits is
accepted, oldest frames first, the rest dropped; accepted frames land in consecutive slots, every other slot keeps its content; the
new `WCUR` is stored and published; nothing else changes but the draws. Partial acceptance is the spec's decision D34, the draw D32. -/
def Obligations.ProduceStoresWhatFits : Prop :=
  ∀ (s : State) (burst : List Frame), (∀ f ∈ burst, f.InRange) → s.fifo.producing = none →
    ∃ t j r, exec (.produce burst) s = .next t ∧
      (s.fifo.rObs :: s.fifo.unseenR)[j]? = some r ∧ t.fifo.rObs = r ∧ t.fifo.unseenR = s.fifo.unseenR.drop j ∧
      let cap := s.cfg.capacity
      let a := min burst.length (cap - 1 - ringDist cap r s.fifo.wcur)
      (∀ i, i < a → slotLookup ((s.fifo.wcur + i) % cap) t.fifo.slots = burst[i]?) ∧
      (∀ x, (∀ i, i < a → x ≠ (s.fifo.wcur + i) % cap) → slotLookup x t.fifo.slots = slotLookup x s.fifo.slots) ∧
      t.fifo.wcur = (s.fifo.wcur + a) % cap ∧ t.fifo.unseenW = s.fifo.unseenW ++ [(s.fifo.wcur + a) % cap] ∧
      t.fifo.rcur = s.fifo.rcur ∧ t.fifo.wObs = s.fifo.wObs ∧ t.fifo.producing = none ∧ t.fifo.consuming = s.fifo.consuming ∧
      OnlyFifo s t ∧ t.bus = s.bus

/-- R206, R207, R72: CONSUME with no CONSUME in flight. AUD observes some element of `H(WCUR)` not older than its last; exactly `n` frames
come out: first the queued ones it sees, oldest first, then silence; `RCUR` moves over the real ones only and is published; no slot
changes; nothing else changes but the draws. -/
def Obligations.ConsumeDeliversThenFillsWithSilence : Prop :=
  ∀ (s : State) (n : Nat), s.fifo.consuming = none →
    ∃ t j w, exec (.consume n) s = .next t ∧
      (s.fifo.wObs :: s.fifo.unseenW)[j]? = some w ∧ t.fifo.wObs = w ∧ t.fifo.unseenW = s.fifo.unseenW.drop j ∧
      let cap := s.cfg.capacity
      let m := min n (ringDist cap s.fifo.rcur w)
      t.bus.popOut.length = n ∧
      (∀ i f, i < m → slotLookup ((s.fifo.rcur + i) % cap) s.fifo.slots = some f → t.bus.popOut[i]? = some f) ∧
      (∀ i, m ≤ i → i < n → t.bus.popOut[i]? = some ⟨0, 0⟩) ∧
      t.fifo.rcur = (s.fifo.rcur + m) % cap ∧ t.fifo.unseenR = s.fifo.unseenR ++ [(s.fifo.rcur + m) % cap] ∧
      t.fifo.slots = s.fifo.slots ∧ t.fifo.wcur = s.fifo.wcur ∧ t.fifo.rObs = s.fifo.rObs ∧
      t.fifo.producing = s.fifo.producing ∧ t.fifo.consuming = none ∧
      OnlyFifo s t ∧ t.bus = { s.bus with popOut := t.bus.popOut }

/-- R212: COUNT with no PRODUCE in flight refreshes EMU's observation and returns the distance from it to `WCUR`; nothing else changes
but the draws. -/
def Obligations.CountReturnsTheObservedDistance : Prop :=
  ∀ s : State, s.fifo.producing = none →
    ∃ t j r, exec .count s = .next t ∧ (s.fifo.rObs :: s.fifo.unseenR)[j]? = some r ∧
      t.bus = { s.bus with cntOut := ringDist s.cfg.capacity r s.fifo.wcur } ∧
      t.fifo = { s.fifo with rObs := r, unseenR := s.fifo.unseenR.drop j } ∧ OnlyFifo s t

/-- R72: every admitted value is returned by some draw: an acquire load may be as stale as its agent's last observation and as fresh as
the latest publication, and anything between (the spec's decision D32; the environment's draws are this model's, log 6). -/
def Obligations.EveryAdmittedObservationHappens : Prop :=
  ∀ (s : State) (j : Nat),
    (∀ r, (s.fifo.rObs :: s.fifo.unseenR)[j]? = some r → ∃ draws,
      ((s.setEnv { s.env with draws := draws }).loadRcur).fifo = { s.fifo with rObs := r, unseenR := s.fifo.unseenR.drop j }) ∧
    (∀ w, (s.fifo.wObs :: s.fifo.unseenW)[j]? = some w → ∃ draws,
      ((s.setEnv { s.env with draws := draws }).loadWcur).fifo = { s.fifo with wObs := w, unseenW := s.fifo.unseenW.drop j })

/-- R38, R39: every step of either agent, in any interleaving and with any draw, keeps the FIFO's invariant: the cursors and all that is
still to be observed in ring order within one lap, the memory canonical, every valid frame written, both operations in flight consistent
(R39 is the spec's own derivation). -/
def Obligations.EveryStepKeepsTheFifoInvariant : Prop :=
  ∀ s t : State, s.cfg.Valid → FifoInv s.cfg.capacity s.fifo → step s = .next t → FifoInv t.cfg.capacity t.fifo

/-- R77: the slots a PRODUCE in flight may still write and the slots a CONSUME in flight may still read are disjoint (the spec's own
derivation). -/
def Obligations.NoDataRaceOnSlots : Prop :=
  ∀ (cap : Nat) (q : Fifo) (p : ProduceCtl) (c : ConsumeCtl), 2 ≤ cap → FifoInv cap q →
    q.producing = some p → q.consuming = some c →
    ∀ w ∈ p.pending, ∀ i ∈ c.pending, w.1 ≠ (q.rcur + i) % cap

/-- R202, R208, R213: a stale observation is conservative: PRODUCE never counts more free space, CONSUME never counts more frames, COUNT
never returns fewer than there are, and never more than `CAPACITY - 1`; with everything observed they are exact (the spec's own
derivations). -/
def Obligations.StaleObservationsAreConservative : Prop :=
  ∀ (cap : Nat) (q : Fifo), 2 ≤ cap → CursorInv cap q →
    freeSlots cap q ≤ cap - 1 - q.fill cap ∧ availFrames cap q ≤ q.fill cap ∧
    q.fill cap ≤ ringDist cap q.rObs q.wcur ∧ ringDist cap q.rObs q.wcur ≤ cap - 1 ∧
    (q.unseenR = [] → freeSlots cap q = cap - 1 - q.fill cap ∧ ringDist cap q.rObs q.wcur = q.fill cap) ∧
    (q.unseenW = [] → availFrames cap q = q.fill cap)

/-- R210: over any run without a hard reset, in any interleaving and with any draws, the frames AUD receives followed by those still queued
are those first queued followed by those published: every frame in order, each once, none lost (the spec's own derivation; what AUD
received is read off this model's result bus, log 10). -/
def Obligations.EveryFrameDeliveredOnceInOrder : Prop :=
  ∀ (k : Nat) (s t : State), s.cfg.Valid → FifoInv s.cfg.capacity s.fifo → NoHardReset s → stepsTo k s = some t →
    s.fifo.queue s.cfg.capacity ++ publishedIn k s = receivedIn k s ++ t.fifo.queue t.cfg.capacity

/-- R215: with everything observed and nothing in flight, the three operations are those of a bounded queue (the spec's own derivation). -/
def Obligations.SequentiallyABoundedQueue : Prop :=
  ∀ s : State, s.cfg.Valid → FifoInv s.cfg.capacity s.fifo → s.fifo.producing = none → s.fifo.consuming = none →
    s.fifo.unseenR = [] → s.fifo.unseenW = [] →
    let q := s.fifo.queue s.cfg.capacity
    (∀ burst, (∀ f ∈ burst, f.InRange) → ∃ t, exec (.produce burst) s = .next t ∧
      t.fifo.queue t.cfg.capacity = q ++ burst.take (s.cfg.capacity - 1 - q.length)) ∧
    (∀ n, ∃ t, exec (.consume n) s = .next t ∧ t.fifo.queue t.cfg.capacity = q.drop n ∧
      t.bus.popOut = q.take n ++ List.replicate (n - q.length) ⟨0, 0⟩) ∧
    (∃ t, exec .count s = .next t ∧ t.bus.cntOut = q.length)

/-- R74, R76, R79: a PRODUCE whose atoms run with nothing in between, its slot writes in any order, does what the whole operation does. With
`a` the number of frames accepted under the observation made, it is finished by the `a + 1` atoms after the load and not before: `a` slot
writes and the store (atom and whole turns are this model's, log 8). -/
def Obligations.ProduceAtomsMakeTheWholeOperation : Prop :=
  ∀ (s : State) (burst : List Frame), 2 ≤ s.cfg.capacity → s.fifo.producing = none →
    let a := min burst.length (s.cfg.capacity - 1 - ringDist s.cfg.capacity (runProduce burst s).fifo.rObs s.fifo.wcur)
    let t := (produceAtom^[a + 1]) (produceBegin burst s)
    t.fifo = (runProduce burst s).fifo ∧ t.bus = s.bus ∧ OnlyFifo s t ∧ t.fifo.producing = none ∧
    ∀ j, j ≤ a → ((produceAtom^[j]) (produceBegin burst s)).fifo.producing ≠ none

/-- R75, R76, R79: a CONSUME whose atoms run with nothing in between, its slot reads in any order, does what the whole operation does. With
`m` the number of real frames delivered under the observation made, it is finished by the `m + 1` atoms after the load and not before:
`m` slot reads and the store (atom and whole turns are this model's, log 8). -/
def Obligations.ConsumeAtomsMakeTheWholeOperation : Prop :=
  ∀ (s : State) (n : Nat), 2 ≤ s.cfg.capacity → FifoInv s.cfg.capacity s.fifo → s.fifo.consuming = none →
    let m := min n (ringDist s.cfg.capacity s.fifo.rcur (runConsume n s).fifo.wObs)
    let t := (consumeAtom^[m + 1]) (consumeBegin n s)
    t.fifo = (runConsume n s).fifo ∧ t.bus = (runConsume n s).bus ∧ OnlyFifo s t ∧ t.fifo.consuming = none ∧
    ∀ j, j ≤ m → ((consumeAtom^[j]) (consumeBegin n s)).fifo.consuming ≠ none

/-- R204: until its store, a PRODUCE in flight is invisible to AUD: its slot writes change no cursor, no history and no valid frame (the
spec's own derivation). -/
def Obligations.SlotWritesAreInvisibleBeforeTheStore : Prop :=
  ∀ (s : State) (c : ProduceCtl), 2 ≤ s.cfg.capacity → FifoInv s.cfg.capacity s.fifo →
    s.fifo.producing = some c → c.pending ≠ [] →
    (produceAtom s).fifo.wcur = s.fifo.wcur ∧ (produceAtom s).fifo.unseenW = s.fifo.unseenW ∧
    (produceAtom s).fifo.rcur = s.fifo.rcur ∧ (produceAtom s).fifo.wObs = s.fifo.wObs ∧
    (produceAtom s).fifo.queue s.cfg.capacity = s.fifo.queue s.cfg.capacity

/-- R232, R271 (usage contract, the spec's decisions D38 and D42): a PRODUCE or COUNT inside a PRODUCE, a CONSUME inside a CONSUME, and a hard
reset inside a CONSUME are refused. -/
def Obligations.UsesInsideAnOperationAreRefused : Prop :=
  ∀ s : State,
    (s.fifo.producing ≠ none → exec .count s = .refused .secondProducer ∧
      (∀ burst, (∀ f ∈ burst, f.InRange) → exec (.produce burst) s = .refused .secondProducer)) ∧
    (s.fifo.consuming ≠ none → (∀ n, exec (.consume n) s = .refused .secondConsumer) ∧
      exec .resetHard s = .refused .resetWhileConsuming)

/-! Resets and the whole machine. -/

/-- R230, R41: RESET_HARD with no CONSUME in flight and inputs within their constraints latches the reset-time inputs and leaves every state
element at the value of R41; the live inputs, the presented inputs and the result buses (this model's, log 10) stay. The values are the spec's
decision D36. -/
def Obligations.HardResetLeavesTheTableOfReset : Prop :=
  ∀ s : State, s.fifo.consuming = none → s.cfgIn.Valid →
    exec .resetHard s = .next
      { s with
        cfg := s.cfgIn
        psg :=
          { tone := ⟨0, 0, 0⟩, nctrl := 0, volidx := ⟨15, 15, 15, 15⟩, latch := 0,
            period := ⟨0, 0, 0, s.cfgIn.noiseDiv.d0 * s.cfgIn.updateStep⟩, cnt := ⟨0, 0, 0, 0⟩,
            out := ⟨false, false, false, s.cfgIn.lfsrPreset.getLsbD 0⟩, lfsr := s.cfgIn.lfsrPreset,
            tapmask := s.cfgIn.tapsPeriodic }
        flt := ⟨⟨0, 0, 0, 0⟩, ⟨0, 0, 0, 0⟩⟩
        fifo := ⟨[], 0, 0, 0, 0, [], [], none, none⟩ }

/-- R264: RESET_SOFT changes nothing at all. -/
def Obligations.SoftResetChangesNothing : Prop :=
  ∀ s : State, exec .resetSoft s = .next s

/-- The state after reset meets the machine's invariant, and its PSG, filter and FIFO are those of R41 under the reference configuration
(the configuration is this model's choice, log 3; the values are the spec's decision D36). -/
def Obligations.ResetMeetsTheInvariant : Prop :=
  Inv State.reset ∧
  State.reset.psg =
    { tone := ⟨0, 0, 0⟩, nctrl := 0, volidx := ⟨15, 15, 15, 15⟩, latch := 0, period := ⟨0, 0, 0, 131072⟩, cnt := ⟨0, 0, 0, 0⟩,
      out := ⟨false, false, false, false⟩, lfsr := 0x8000#16, tapmask := 0x0001#16 } ∧
  State.reset.flt = ⟨⟨0, 0, 0, 0⟩, ⟨0, 0, 0, 0⟩⟩ ∧
  State.reset.fifo = ⟨[], 0, 0, 0, 0, [], [], none, none⟩

/-- R27, R28, R32, R33, R251: every step keeps the parameters valid, the derived periods and tap mask in agreement with the registers, the
shift register away from zero, every counter under its bound and `X1` a sample (R33 and the counters' bound are the spec's own
derivations; the noise counter's bound, by the longest of all four noise periods, is this model's choice, log 19). -/
def Obligations.EveryStepKeepsTheMachineInvariant : Prop :=
  ∀ s t : State, Inv s → step s = .next t → Inv t

/-- R14: every operation, in every state, with operands in their declared ranges, has a next state, the uses the spec refuses apart: a FIFO
operation inside one of its own side, a hard reset inside a CONSUME, and a hard reset to parameters outside their constraints. -/
def Obligations.EveryOperationIsTotal : Prop :=
  ∀ (i : Instr) (s : State), OperandsInRange s.cfg i →
    (i = .resetHard → s.cfgIn.Valid ∧ s.fifo.consuming = none) →
    (i.agent = .aud → s.fifo.consuming = none) →
    (i = .count ∨ (∃ burst, i = .produce burst) → s.fifo.producing = none) →
    ∃ t, exec i s = .next t

/-- R20, R26 to R32, R34 to R37, R39, R40, R233: who may change each piece of state. No operation changes a live or a presented input, and
only RESET_HARD changes the parameters in force. Every other change is by RESET_HARD or as R20's table says: `TONE[c]` and `PERIOD[c]` by
a byte that writes that tone register; `PERIOD[3]` by a noise-control write or, with `RATE` 3, by a write to the linked tone register;
`NCTRL` and `TAPMASK` by a noise-control write; `VOLIDX[c]` by a byte that writes that volume register; `LATCH` by latch bytes; `CNT` and a
tone's `OUT` by SAMPLE and UPDATE; `OUT[3]` and `LFSR` by these and a noise-control write; filter state by FILTER; `SLOT` and `WCUR` by
PRODUCE; `RCUR` and `W_OBS` by CONSUME; `R_OBS` by PRODUCE and COUNT; no whole operation begins or ends an operation in flight. A data
byte under `low4` is a noise-control or volume write (the spec's decision D6). -/
def Obligations.OnlyTheNamedOperationsWriteEachState : Prop :=
  ∀ (i : Instr) (s t : State), exec i s = .next t →
    t.cfgIn = s.cfgIn ∧ t.live = s.live ∧
    (i ≠ .resetHard →
      t.cfg = s.cfg ∧
      (∀ c : ToneCh, t.psg.tone.get c ≠ s.psg.tone.get c → WritesTone s i c) ∧
      (∀ c : ToneCh, t.psg.period.get c.chan ≠ s.psg.period.get c.chan → WritesTone s i c) ∧
      (t.psg.period.n ≠ s.psg.period.n →
        WritesNoise s i ∨ (s.psg.nctrl.toNat % 4 = 3 ∧ WritesTone s i s.cfg.noiseLinkCh)) ∧
      (t.psg.nctrl ≠ s.psg.nctrl → WritesNoise s i) ∧
      (t.psg.tapmask ≠ s.psg.tapmask → WritesNoise s i) ∧
      (∀ c : Chan, t.psg.volidx.get c ≠ s.psg.volidx.get c → WritesVolume s i c) ∧
      (t.psg.latch ≠ s.psg.latch → i.byteRow ≠ none ∧ ∀ u, i ≠ .data u) ∧
      (t.psg.cnt ≠ s.psg.cnt → RunsTime i) ∧
      (∀ c : ToneCh, t.psg.out.get c.chan ≠ s.psg.out.get c.chan → RunsTime i) ∧
      (t.psg.out.n ≠ s.psg.out.n → RunsTime i ∨ WritesNoise s i) ∧
      (t.psg.lfsr ≠ s.psg.lfsr → RunsTime i ∨ WritesNoise s i) ∧
      (t.flt ≠ s.flt → ∃ xL xR, i = .filter xL xR) ∧
      (t.fifo.slots ≠ s.fifo.slots → ∃ burst, i = .produce burst) ∧
      (t.fifo.wcur ≠ s.fifo.wcur → ∃ burst, i = .produce burst) ∧
      (t.fifo.rcur ≠ s.fifo.rcur → ∃ n, i = .consume n) ∧
      (t.fifo.rObs ≠ s.fifo.rObs → i = .count ∨ ∃ burst, i = .produce burst) ∧
      (t.fifo.wObs ≠ s.fifo.wObs → ∃ n, i = .consume n) ∧
      t.fifo.producing = s.fifo.producing ∧ t.fifo.consuming = s.fifo.consuming)

/-- R253: what is private stays private. A turn of AUD changes no PSG or filter state, no parameter or input, nothing EMU observed and no
slot; a turn of EMU that is not a hard reset changes nothing AUD observed, not `RCUR`, and not AUD's operation in flight. -/
def Obligations.AgentsKeepOutOfEachOthersState : Prop :=
  ∀ (whole : Bool) (s t : State),
    (audTurn whole s = .next t →
      t.psg = s.psg ∧ t.flt = s.flt ∧ t.cfg = s.cfg ∧ t.cfgIn = s.cfgIn ∧ t.live = s.live ∧ t.fifo.rObs = s.fifo.rObs ∧
      t.fifo.wcur = s.fifo.wcur ∧ t.fifo.slots = s.fifo.slots ∧ t.fifo.producing = s.fifo.producing ∧
      t.env.emuQ = s.env.emuQ) ∧
    (emuTurn whole s = .next t → (s.fifo.producing = none → s.env.emuQ.head? ≠ some (.use (.rst 1#1))) →
      t.fifo.wObs = s.fifo.wObs ∧ t.fifo.rcur = s.fifo.rcur ∧ t.fifo.consuming = s.fifo.consuming ∧
      t.bus.popOut = s.bus.popOut ∧ t.env.audQ = s.env.audQ)

/-- R250 (the spec's decision D42): a use of a port by the agent that does not own it is refused, whether whole or by atoms (the agents'
queues are this model's, log 1). -/
def Obligations.WrongAgentIsRefused : Prop :=
  ∀ (s : State) (whole : Bool) (u : PortUse),
    (∀ rest, s.fifo.producing = none → s.env.emuQ = .use u :: rest → u.agent = .aud → emuTurn whole s = .refused .wrongAgent) ∧
    (∀ rest, s.fifo.consuming = none → s.env.audQ = u :: rest → u.agent = .emu → audTurn whole s = .refused .wrongAgent)

/-- A step runs the decoded operation: where the environment gives a whole turn to the agent whose queue begins with a use of its own port,
and that agent has nothing in flight, the step is exec of the decoded operation on the state with turn and use taken off; on an atom
turn it is exec too, but for PRODUCE and CONSUME, which begin (R9, R76; the turns are this model's, log 8). -/
def Obligations.StepRunsTheDecodedOperation : Prop :=
  ∀ (s : State) (u : PortUse) (turns : List Turn),
    (∀ rest, u.agent = .emu → s.fifo.producing = none → s.env.emuQ = .use u :: rest →
      (s.env.turns = .whole .emu :: turns →
        step s = exec (decode u) { s with env := { s.env with turns := turns, emuQ := rest } }) ∧
      (s.env.turns = .atom .emu :: turns → (∀ burst, decode u ≠ .produce burst) →
        step s = exec (decode u) { s with env := { s.env with turns := turns, emuQ := rest } }) ∧
      (s.env.turns = .atom .emu :: turns → ∀ burst, decode u = .produce burst → (∀ f ∈ burst, f.InRange) →
        step s = .next (produceBegin burst { s with env := { s.env with turns := turns, emuQ := rest } }))) ∧
    (∀ rest, u.agent = .aud → s.fifo.consuming = none → s.env.audQ = u :: rest →
      (s.env.turns = .whole .aud :: turns →
        step s = exec (decode u) { s with env := { s.env with turns := turns, audQ := rest } }) ∧
      (s.env.turns = .atom .aud :: turns → ∀ n, decode u = .consume n →
        step s = .next (consumeBegin n { s with env := { s.env with turns := turns, audQ := rest } })))

/-- A table word placed by `withFetchWord` is the next operation to run: the step is exec of the instruction the decoder reads from it, on
the state as it was, but for the agent's operation in flight (log 1, 2). -/
def Obligations.PlacedWordRunsNext : Prop :=
  ∀ (s : State) (nbits w : Nat) (i : Instr), decodeTableWord nbits w = some i →
    step (s.withFetchWord nbits w) = exec i { s with fifo := { s.fifo with producing := none } }

/-- R233: a change of a live input or of the reset-time inputs is an event in EMU's order that writes no state of the block: only that input
changes (the parameters in force among what stays; the spec's decision D41; the queue of events is this model's, log 1). -/
def Obligations.InputChangesWriteNoState : Prop :=
  ∀ (s : State) (whole : Bool) (rest : List HostEvent) (p : Int) (b : Bool) (q : Params), s.fifo.producing = none →
    (s.env.emuQ = .setLpfPct p :: rest →
      emuTurn whole s = .next { s with live := { s.live with lpfPct := p }, env := { s.env with emuQ := rest } }) ∧
    (s.env.emuQ = .setFmEn b :: rest →
      emuTurn whole s = .next { s with live := { s.live with fmEn := b }, env := { s.env with emuQ := rest } }) ∧
    (s.env.emuQ = .setPsgEn b :: rest →
      emuTurn whole s = .next { s with live := { s.live with psgEn := b }, env := { s.env with emuQ := rest } }) ∧
    (s.env.emuQ = .setParams q :: rest → emuTurn whole s = .next { s with cfgIn := q, env := { s.env with emuQ := rest } })
end

