-- ==== Sys2Proof/Laws/State.lean ====
section
/-! SUPPORT. One lemma per field of State per setter, and the register files' reads of writes. -/
namespace Sys2Proof

namespace PerTone
variable {α : Type}

@[simp] theorem get_set_same (x : PerTone α) (c : ToneCh) (v : α) : (x.set c v).get c = v := by cases c <;> rfl

theorem get_set_other (x : PerTone α) {c d : ToneCh} (v : α) (h : d ≠ c) : (x.set c v).get d = x.get d := by
  cases c <;> cases d <;> first | rfl | exact absurd rfl h

end PerTone

namespace PerChan
variable {α : Type}

@[simp] theorem get_set_same (x : PerChan α) (c : Chan) (v : α) : (x.set c v).get c = v := by cases c <;> rfl

theorem get_set_other (x : PerChan α) {c d : Chan} (v : α) (h : d ≠ c) : (x.set c v).get d = x.get d := by
  cases c <;> cases d <;> first | rfl | exact absurd rfl h

end PerChan

namespace Machine

@[simp] theorem State.setPsg_psg (s : State) v : (s.setPsg v).psg = v := rfl
@[simp] theorem State.setPsg_flt (s : State) v : (s.setPsg v).flt = s.flt := rfl
@[simp] theorem State.setPsg_fifo (s : State) v : (s.setPsg v).fifo = s.fifo := rfl
@[simp] theorem State.setPsg_cfg (s : State) v : (s.setPsg v).cfg = s.cfg := rfl
@[simp] theorem State.setPsg_cfgIn (s : State) v : (s.setPsg v).cfgIn = s.cfgIn := rfl
@[simp] theorem State.setPsg_live (s : State) v : (s.setPsg v).live = s.live := rfl
@[simp] theorem State.setPsg_bus (s : State) v : (s.setPsg v).bus = s.bus := rfl
@[simp] theorem State.setPsg_env (s : State) v : (s.setPsg v).env = s.env := rfl

@[simp] theorem State.setFlt_psg (s : State) v : (s.setFlt v).psg = s.psg := rfl
@[simp] theorem State.setFlt_flt (s : State) v : (s.setFlt v).flt = v := rfl
@[simp] theorem State.setFlt_fifo (s : State) v : (s.setFlt v).fifo = s.fifo := rfl
@[simp] theorem State.setFlt_cfg (s : State) v : (s.setFlt v).cfg = s.cfg := rfl
@[simp] theorem State.setFlt_cfgIn (s : State) v : (s.setFlt v).cfgIn = s.cfgIn := rfl
@[simp] theorem State.setFlt_live (s : State) v : (s.setFlt v).live = s.live := rfl
@[simp] theorem State.setFlt_bus (s : State) v : (s.setFlt v).bus = s.bus := rfl
@[simp] theorem State.setFlt_env (s : State) v : (s.setFlt v).env = s.env := rfl

@[simp] theorem State.setFifo_psg (s : State) v : (s.setFifo v).psg = s.psg := rfl
@[simp] theorem State.setFifo_flt (s : State) v : (s.setFifo v).flt = s.flt := rfl
@[simp] theorem State.setFifo_fifo (s : State) v : (s.setFifo v).fifo = v := rfl
@[simp] theorem State.setFifo_cfg (s : State) v : (s.setFifo v).cfg = s.cfg := rfl
@[simp] theorem State.setFifo_cfgIn (s : State) v : (s.setFifo v).cfgIn = s.cfgIn := rfl
@[simp] theorem State.setFifo_live (s : State) v : (s.setFifo v).live = s.live := rfl
@[simp] theorem State.setFifo_bus (s : State) v : (s.setFifo v).bus = s.bus := rfl
@[simp] theorem State.setFifo_env (s : State) v : (s.setFifo v).env = s.env := rfl

@[simp] theorem State.setCfg_psg (s : State) v : (s.setCfg v).psg = s.psg := rfl
@[simp] theorem State.setCfg_flt (s : State) v : (s.setCfg v).flt = s.flt := rfl
@[simp] theorem State.setCfg_fifo (s : State) v : (s.setCfg v).fifo = s.fifo := rfl
@[simp] theorem State.setCfg_cfg (s : State) v : (s.setCfg v).cfg = v := rfl
@[simp] theorem State.setCfg_cfgIn (s : State) v : (s.setCfg v).cfgIn = s.cfgIn := rfl
@[simp] theorem State.setCfg_live (s : State) v : (s.setCfg v).live = s.live := rfl
@[simp] theorem State.setCfg_bus (s : State) v : (s.setCfg v).bus = s.bus := rfl
@[simp] theorem State.setCfg_env (s : State) v : (s.setCfg v).env = s.env := rfl

@[simp] theorem State.setCfgIn_psg (s : State) v : (s.setCfgIn v).psg = s.psg := rfl
@[simp] theorem State.setCfgIn_flt (s : State) v : (s.setCfgIn v).flt = s.flt := rfl
@[simp] theorem State.setCfgIn_fifo (s : State) v : (s.setCfgIn v).fifo = s.fifo := rfl
@[simp] theorem State.setCfgIn_cfg (s : State) v : (s.setCfgIn v).cfg = s.cfg := rfl
@[simp] theorem State.setCfgIn_cfgIn (s : State) v : (s.setCfgIn v).cfgIn = v := rfl
@[simp] theorem State.setCfgIn_live (s : State) v : (s.setCfgIn v).live = s.live := rfl
@[simp] theorem State.setCfgIn_bus (s : State) v : (s.setCfgIn v).bus = s.bus := rfl
@[simp] theorem State.setCfgIn_env (s : State) v : (s.setCfgIn v).env = s.env := rfl

@[simp] theorem State.setLive_psg (s : State) v : (s.setLive v).psg = s.psg := rfl
@[simp] theorem State.setLive_flt (s : State) v : (s.setLive v).flt = s.flt := rfl
@[simp] theorem State.setLive_fifo (s : State) v : (s.setLive v).fifo = s.fifo := rfl
@[simp] theorem State.setLive_cfg (s : State) v : (s.setLive v).cfg = s.cfg := rfl
@[simp] theorem State.setLive_cfgIn (s : State) v : (s.setLive v).cfgIn = s.cfgIn := rfl
@[simp] theorem State.setLive_live (s : State) v : (s.setLive v).live = v := rfl
@[simp] theorem State.setLive_bus (s : State) v : (s.setLive v).bus = s.bus := rfl
@[simp] theorem State.setLive_env (s : State) v : (s.setLive v).env = s.env := rfl

@[simp] theorem State.setBus_psg (s : State) v : (s.setBus v).psg = s.psg := rfl
@[simp] theorem State.setBus_flt (s : State) v : (s.setBus v).flt = s.flt := rfl
@[simp] theorem State.setBus_fifo (s : State) v : (s.setBus v).fifo = s.fifo := rfl
@[simp] theorem State.setBus_cfg (s : State) v : (s.setBus v).cfg = s.cfg := rfl
@[simp] theorem State.setBus_cfgIn (s : State) v : (s.setBus v).cfgIn = s.cfgIn := rfl
@[simp] theorem State.setBus_live (s : State) v : (s.setBus v).live = s.live := rfl
@[simp] theorem State.setBus_bus (s : State) v : (s.setBus v).bus = v := rfl
@[simp] theorem State.setBus_env (s : State) v : (s.setBus v).env = s.env := rfl

@[simp] theorem State.setEnv_psg (s : State) v : (s.setEnv v).psg = s.psg := rfl
@[simp] theorem State.setEnv_flt (s : State) v : (s.setEnv v).flt = s.flt := rfl
@[simp] theorem State.setEnv_fifo (s : State) v : (s.setEnv v).fifo = s.fifo := rfl
@[simp] theorem State.setEnv_cfg (s : State) v : (s.setEnv v).cfg = s.cfg := rfl
@[simp] theorem State.setEnv_cfgIn (s : State) v : (s.setEnv v).cfgIn = s.cfgIn := rfl
@[simp] theorem State.setEnv_live (s : State) v : (s.setEnv v).live = s.live := rfl
@[simp] theorem State.setEnv_bus (s : State) v : (s.setEnv v).bus = s.bus := rfl
@[simp] theorem State.setEnv_env (s : State) v : (s.setEnv v).env = v := rfl

/-- Two states with the same parts are the same state. -/
theorem State.eq_of_parts {s t : State} (h1 : t.psg = s.psg) (h2 : t.flt = s.flt) (h3 : t.fifo = s.fifo) (h4 : t.cfg = s.cfg)
    (h5 : t.cfgIn = s.cfgIn) (h6 : t.live = s.live) (h7 : t.bus = s.bus) (h8 : t.env = s.env) : t = s := by
  cases s; cases t; simp_all

end Machine
end Sys2Proof
end

