-- ==== Sys2Proof/Laws/Ops.lean ====
section
/-! SUPPORT. What each shared operation can do: slots, draws, cursor loads and stores, ring arithmetic. -/
namespace Sys2Proof.Machine

/-! Ring arithmetic. -/

theorem ringDist_of_lt {cap a b : Nat} (ha : a < cap) (hb : b < cap) :
    ringDist cap a b = if a ≤ b then b - a else b + cap - a := by
  unfold ringDist
  split
  · rw [Int.emod_eq_of_lt (by omega) (by omega)]; omega
  · rw [← Int.add_emod_right, Int.emod_eq_of_lt (by omega) (by omega)]; omega

theorem ringDist_lt {cap : Nat} (a b : Nat) (h : 0 < cap) : ringDist cap a b < cap := by
  unfold ringDist
  have h1 := Int.emod_nonneg ((b : Int) - a) (by omega : (cap : Int) ≠ 0)
  have h2 := Int.emod_lt_of_pos ((b : Int) - a) (by omega : (0 : Int) < cap)
  omega

@[simp] theorem ringDist_self (cap a : Nat) : ringDist cap a a = 0 := by simp [ringDist]

theorem advance_lt {cap : Nat} (c k : Nat) (h : 0 < cap) : advance cap c k < cap := Nat.mod_lt _ h

theorem advance_of_lt {cap c k : Nat} (hc : c < cap) (hk : k ≤ cap) :
    advance cap c k = if c + k < cap then c + k else c + k - cap := by
  unfold advance
  split
  · exact Nat.mod_eq_of_lt ‹_›
  · rw [Nat.mod_eq_sub_mod (by omega), Nat.mod_eq_of_lt (by omega)]

@[simp] theorem advance_zero {cap c : Nat} (hc : c < cap) : advance cap c 0 = c := by
  simp [advance, Nat.mod_eq_of_lt hc]

theorem ringDist_advance {cap c k : Nat} (hc : c < cap) (hk : k < cap) : ringDist cap c (advance cap c k) = k := by
  rw [ringDist_of_lt hc (advance_lt c k (by omega)), advance_of_lt hc hk.le]; split <;> split <;> omega

theorem advance_ringDist {cap a b : Nat} (ha : a < cap) (hb : b < cap) : advance cap a (ringDist cap a b) = b := by
  rw [advance_of_lt ha (ringDist_lt a b (by omega)).le, ringDist_of_lt ha hb]; split <;> split <;> omega

theorem advance_inj {cap c i j : Nat} (hi : i < cap) (hj : j < cap) (h : advance cap c i = advance cap c j) : i = j := by
  have h1 : (c % cap + i) % cap = (c % cap + j) % cap := by simpa [advance, Nat.add_mod] using h
  have hc : c % cap < cap := Nat.mod_lt _ (by omega)
  have e1 := advance_of_lt (k := i) hc hi.le
  have e2 := advance_of_lt (k := j) hc hj.le
  unfold advance at e1 e2
  rw [e1, e2] at h1
  split at h1 <;> split at h1 <;> omega

/-- The way round through a third position is never shorter. -/
theorem ringDist_triangle {cap a b c : Nat} (ha : a < cap) (hb : b < cap) (hc : c < cap) :
    ringDist cap a c ≤ ringDist cap a b + ringDist cap b c := by
  rw [ringDist_of_lt ha hc, ringDist_of_lt ha hb, ringDist_of_lt hb hc]; split <;> split <;> split <;> omega

/-! The slot memory. -/

theorem slotLookup_insert_same (i : Nat) (f : Frame) (m : Memory) : slotLookup i (slotInsert i f m) = some f := by
  induction m with
  | nil => simp [slotInsert, slotLookup]
  | cons e m ih =>
    obtain ⟨j, g⟩ := e
    simp only [slotInsert]
    split
    · simp [slotLookup]
    · split
      · simp [slotLookup]
      · simp [slotLookup, *]

theorem slotLookup_insert_other {i k : Nat} (f : Frame) (m : Memory) (h : k ≠ i) :
    slotLookup k (slotInsert i f m) = slotLookup k m := by
  induction m with
  | nil => simp [slotInsert, slotLookup, h]
  | cons e m ih =>
    obtain ⟨j, g⟩ := e
    simp only [slotInsert]
    split
    · simp [slotLookup, h]
    · split
      · subst_vars; simp [slotLookup, h]
      · simp [slotLookup, ih]

theorem Memory.wf_cons {e : Nat × Frame} {m : Memory} :
    Memory.wf (e :: m) = true ↔ (∀ x ∈ m.head?, e.1 < x.1) ∧ Memory.wf m = true := by
  cases m <;> simp [Memory.wf]

theorem slotInsert_head (i : Nat) (f : Frame) (m : Memory) :
    ∀ x ∈ (slotInsert i f m).head?, x.1 = i ∨ ∃ y ∈ m.head?, x.1 = y.1 := by
  cases m with
  | nil => simp [slotInsert]
  | cons e m =>
    obtain ⟨j, g⟩ := e
    simp only [slotInsert]
    split
    · simp
    · split <;> simp

/-- A slot write keeps the canonical form. -/
theorem slotInsert_wf (i : Nat) (f : Frame) (m : Memory) (h : m.wf = true) : (slotInsert i f m).wf = true := by
  induction m with
  | nil => simp [slotInsert, Memory.wf]
  | cons e m ih =>
    obtain ⟨j, g⟩ := e
    have h' := Memory.wf_cons.mp h
    simp only [slotInsert]
    split
    · exact Memory.wf_cons.mpr ⟨by simpa using ‹i < j›, h⟩
    · split
      · subst_vars; exact Memory.wf_cons.mpr ⟨h'.1, h'.2⟩
      · refine Memory.wf_cons.mpr ⟨fun x hx => ?_, ih h'.2⟩
        rcases slotInsert_head i f m x hx with h1 | ⟨y, hy, h1⟩
        · simp only [h1]; omega
        · rw [h1]; exact h'.1 y hy

theorem slotInsert_mem {i : Nat} {f : Frame} {m : Memory} {x : Nat × Frame} (h : x ∈ slotInsert i f m) :
    x = (i, f) ∨ x ∈ m := by
  induction m with
  | nil => exact .inl (by simpa [slotInsert] using h)
  | cons e m ih =>
    obtain ⟨j, g⟩ := e
    simp only [slotInsert] at h
    split at h
    · rcases List.mem_cons.mp h with h | h <;> simp_all
    · split at h
      · rcases List.mem_cons.mp h with h | h <;> simp_all
      · rcases List.mem_cons.mp h with h | h
        · simp [h]
        · rcases ih h with h | h <;> simp [h]

/-- Two writes to different slots may be made in either order: the memory is the same data. -/
theorem slotInsert_comm {i k : Nat} (f g : Frame) (m : Memory) (h : i ≠ k) :
    slotInsert i f (slotInsert k g m) = slotInsert k g (slotInsert i f m) := by
  induction m with
  | nil =>
    rcases Nat.lt_or_gt_of_ne h with h | h <;>
      simp [slotInsert, h, Nat.lt_asymm h, Nat.ne_of_gt h]
  | cons e m ih =>
    obtain ⟨j, v⟩ := e
    rcases Nat.lt_trichotomy k j with h1 | h1 | h1 <;> rcases Nat.lt_trichotomy i j with h2 | h2 | h2 <;>
      rcases Nat.lt_or_gt_of_ne h with h3 | h3 <;>
      first
      | omega
      | (simp [slotInsert, h1, h2, h3, ih, Nat.lt_asymm h1, Nat.lt_asymm h2, Nat.lt_asymm h3, Nat.ne_of_gt h1, Nat.ne_of_gt h2,
          Nat.ne_of_gt h3])
      | (subst h1; simp [slotInsert, h2, Nat.lt_asymm h2, Nat.ne_of_gt h2])
      | (subst h2; simp [slotInsert, h1, Nat.lt_asymm h1, Nat.ne_of_gt h1])

/-! Draws. -/

theorem Env.choose_lt (n : Nat) (e : Env) (h : 0 < n) : (e.choose n).1 < n := by
  unfold Env.choose
  split
  · omega
  · split <;> exact Nat.mod_lt _ h

/-- A draw touches neither the queues nor the turns. -/
theorem Env.choose_frame (n : Nat) (e : Env) :
    (e.choose n).2.emuQ = e.emuQ ∧ (e.choose n).2.audQ = e.audQ ∧ (e.choose n).2.turns = e.turns := by
  unfold Env.choose
  split
  · simp
  · split <;> simp

/-- Any number below `n` is drawn when the environment supplies it. -/
theorem Env.choose_supplied {n d : Nat} (e : Env) (ds : List Nat) (h : d < n) :
    (({ e with draws := d :: ds }).choose n).1 = d := by
  unfold Env.choose
  split
  · simp only; omega
  · exact Nat.mod_eq_of_lt h

/-! The cursors. -/

/-- All an acquire load of `RCUR` can do: it returns the element `k` places after the one last seen, and remembers that. -/
theorem State.loadRcur_cases (s : State) : ∃ k e, k ≤ s.fifo.unseenR.length ∧
    (e.emuQ = s.env.emuQ ∧ e.audQ = s.env.audQ ∧ e.turns = s.env.turns) ∧
    s.loadRcur = { s with
      fifo := { s.fifo with rObs := (s.fifo.rObs :: s.fifo.unseenR).getD k 0, unseenR := s.fifo.unseenR.drop k }
      env := e } :=
  ⟨_, _, Nat.lt_succ_iff.mp (Env.choose_lt _ s.env (by omega)), Env.choose_frame _ s.env, rfl⟩

/-- All an acquire load of `WCUR` can do. -/
theorem State.loadWcur_cases (s : State) : ∃ k e, k ≤ s.fifo.unseenW.length ∧
    (e.emuQ = s.env.emuQ ∧ e.audQ = s.env.audQ ∧ e.turns = s.env.turns) ∧
    s.loadWcur = { s with
      fifo := { s.fifo with wObs := (s.fifo.wObs :: s.fifo.unseenW).getD k 0, unseenW := s.fifo.unseenW.drop k }
      env := e } :=
  ⟨_, _, Nat.lt_succ_iff.mp (Env.choose_lt _ s.env (by omega)), Env.choose_frame _ s.env, rfl⟩

end Sys2Proof.Machine
end

