-- ==== Sys2Proof/Laws/Fifo.lean ====
section
/-! SUPPORT. What PRODUCE, CONSUME and their atoms can do: the slot writes of a burst, the canonical form of the slot memory, and the
walk round the ring. -/
namespace Sys2Proof.Machine

/-! The slot writes of a burst. -/

@[simp] theorem slotWrites_length (cap start i : Nat) (fs : List Frame) : (slotWrites cap start i fs).length = fs.length := by
  induction fs generalizing i with
  | nil => rfl
  | cons f fs ih => simp [slotWrites, ih]

/-- The `k`-th slot write of a burst puts its `k`-th frame `k` places on. -/
theorem slotWrites_getElem? (cap start i k : Nat) (fs : List Frame) :
    (slotWrites cap start i fs)[k]? = fs[k]?.map (fun f => (advance cap start (i + k), f)) := by
  induction fs generalizing i k with
  | nil => rfl
  | cons f fs ih =>
    cases k with
    | zero => simp [slotWrites]
    | succ k => simp [slotWrites, ih, Nat.add_assoc, Nat.add_comm 1 k]

/-- Writing many slots changes the slots only. -/
theorem writeAll_eq (q : Fifo) (ws : List (Nat × Frame)) : writeAll q ws = { q with slots := (writeAll q ws).slots } := by
  induction ws generalizing q with
  | nil => rfl
  | cons w ws ih => simp only [writeAll]; rw [ih]; rfl

/-- A slot none of the writes goes to keeps its content. -/
theorem writeAll_lookup_other (q : Fifo) (ws : List (Nat × Frame)) (x : Nat) (h : ∀ w ∈ ws, x ≠ w.1) :
    slotLookup x (writeAll q ws).slots = slotLookup x q.slots := by
  induction ws generalizing q with
  | nil => rfl
  | cons w ws ih =>
    simp only [writeAll]
    rw [ih _ (fun v hv => h v (List.mem_cons_of_mem _ hv))]
    exact slotLookup_insert_other _ _ (h w List.mem_cons_self)

/-- With every write to a slot of its own, each of them lands. -/
theorem writeAll_lookup (q : Fifo) (ws : List (Nat × Frame)) (once : (ws.map (·.1)).Nodup) (w : Nat × Frame) (h : w ∈ ws) :
    slotLookup w.1 (writeAll q ws).slots = some w.2 := by
  induction ws generalizing q with
  | nil => cases h
  | cons v ws ih =>
    obtain ⟨hv, once'⟩ := List.nodup_cons.mp once
    simp only [writeAll]
    rcases List.mem_cons.mp h with rfl | h
    · rw [writeAll_lookup_other]
      · exact slotLookup_insert_same _ _ _
      · intro u hu e; exact hv (List.mem_map.mpr ⟨u, hu, e.symm⟩)
    · exact ih _ once' h

/-! What the atoms can do. -/

/-- All an atom of a PRODUCE in flight can do: store when no write is left, or make one of the writes left. -/
theorem produceAtom_cases {s : State} {c : ProduceCtl} (h : s.fifo.producing = some c) :
    (c.pending = [] ∧ produceAtom s = s.setFifo (produceStore s.cfg.capacity c s.fifo)) ∨
    (∃ j w e, c.pending[j]? = some w ∧ (e.emuQ = s.env.emuQ ∧ e.audQ = s.env.audQ ∧ e.turns = s.env.turns) ∧
      produceAtom s =
        (s.setFifo { s.fifo.slotWrite w.1 w.2 with producing := some { c with pending := c.pending.eraseIdx j } }).setEnv e) := by
  simp only [produceAtom, h]
  by_cases hp : c.pending = []
  · exact .inl ⟨hp, if_pos hp⟩
  · refine .inr ?_
    have hlt := Env.choose_lt c.pending.length s.env (List.length_pos_iff.mpr hp)
    refine ⟨_, _, _, List.getElem?_eq_getElem hlt, Env.choose_frame c.pending.length s.env, ?_⟩
    rw [if_neg hp]
    simp [produceWrite, List.getElem?_eq_getElem hlt]

/-- All an atom of a CONSUME in flight can do: store when no read is left, or make one of the reads left. -/
theorem consumeAtom_cases {s : State} {c : ConsumeCtl} (h : s.fifo.consuming = some c) :
    (c.pending = [] ∧ consumeAtom s = consumeStore c s) ∨
    (∃ j i e, c.pending[j]? = some i ∧ (e.emuQ = s.env.emuQ ∧ e.audQ = s.env.audQ ∧ e.turns = s.env.turns) ∧
      consumeAtom s =
        (s.setFifo { s.fifo with consuming := some { c with
          got := c.got.set i (some (s.slotRead (advance s.cfg.capacity s.fifo.rcur i)))
          pending := c.pending.eraseIdx j } }).setEnv e) := by
  simp only [consumeAtom, h]
  by_cases hp : c.pending = []
  · exact .inl ⟨hp, if_pos hp⟩
  · refine .inr ?_
    have hlt := Env.choose_lt c.pending.length s.env (List.length_pos_iff.mpr hp)
    refine ⟨_, _, _, List.getElem?_eq_getElem hlt, Env.choose_frame c.pending.length s.env, ?_⟩
    rw [if_neg hp]
    simp [consumeRead, List.getElem?_eq_getElem hlt]

/-! The canonical form of the slot memory: every operation over it keeps it, and it holds at reset. -/

theorem Memory.wf_reset : State.reset.fifo.slots.wf = true := rfl

theorem Fifo.slotWrite_wf (q : Fifo) (i : Nat) (f : Frame) (h : q.slots.wf = true) : (q.slotWrite i f).slots.wf = true :=
  slotInsert_wf i f q.slots h

theorem writeAll_wf (q : Fifo) (ws : List (Nat × Frame)) (h : q.slots.wf = true) : (writeAll q ws).slots.wf = true := by
  induction ws generalizing q with
  | nil => exact h
  | cons w ws ih => exact ih _ (q.slotWrite_wf w.1 w.2 h)

theorem produceAtom_wf (s : State) (h : s.fifo.slots.wf = true) : (produceAtom s).fifo.slots.wf = true := by
  cases hp : s.fifo.producing with
  | none => simpa [produceAtom, hp] using h
  | some c =>
    obtain ⟨-, e⟩ | ⟨j, w, e, -, -, e'⟩ := produceAtom_cases hp
    · rw [e]; exact h
    · rw [e']; exact s.fifo.slotWrite_wf w.1 w.2 h

theorem runProduce_wf (burst : List Frame) (s : State) (h : s.fifo.slots.wf = true) : (runProduce burst s).fifo.slots.wf = true := by
  simp only [runProduce, State.setFifo_fifo, Fifo.storeWcur]
  exact writeAll_wf _ _ h

theorem produceBegin_slots (burst : List Frame) (s : State) : (produceBegin burst s).fifo.slots = s.fifo.slots := rfl

theorem consumeBegin_slots (n : Nat) (s : State) : (consumeBegin n s).fifo.slots = s.fifo.slots := rfl

theorem consumeAtom_slots (s : State) : (consumeAtom s).fifo.slots = s.fifo.slots := by
  cases hc : s.fifo.consuming with
  | none => simp [consumeAtom, hc]
  | some c =>
    obtain ⟨-, e⟩ | ⟨j, i, e, -, -, e'⟩ := consumeAtom_cases hc
    · rw [e]; rfl
    · rw [e']; rfl

theorem runConsume_slots (n : Nat) (s : State) : (runConsume n s).fifo.slots = s.fifo.slots := rfl

theorem runCount_slots (s : State) : (runCount s).fifo.slots = s.fifo.slots := rfl

theorem hardReset_slots_wf (s : State) : (hardReset s).fifo.slots.wf = true := rfl

/-! The walk round the ring. -/

theorem walkLength_cons_cons (cap a b : Nat) (l : List Nat) :
    walkLength cap (a :: b :: l) = ringDist cap a b + walkLength cap (b :: l) := rfl

/-- A walk is the walk to a position in it and the walk from there. -/
theorem walkLength_append (cap : Nat) (l : List Nat) (a : Nat) (r : List Nat) :
    walkLength cap (l ++ a :: r) = walkLength cap (l ++ [a]) + walkLength cap (a :: r) := by
  induction l with
  | nil => simp [walkLength]
  | cons x l ih =>
    cases l with
    | nil => simp [walkLength]
    | cons y l => simp only [List.cons_append, walkLength] at *; omega

/-- Going straight to the end is never longer than the walk. -/
theorem ringDist_le_walkLength (cap a b : Nat) (l : List Nat) (ha : a < cap) (hb : b < cap) (hl : ∀ x ∈ l, x < cap) :
    ringDist cap a b ≤ walkLength cap (a :: (l ++ [b])) := by
  induction l generalizing a with
  | nil => simp [walkLength]
  | cons x l ih =>
    have hx := hl x List.mem_cons_self
    have := ih x hx (fun y hy => hl y (List.mem_cons_of_mem _ hy))
    have := ringDist_triangle ha hx hb
    simp only [List.cons_append, walkLength] at *; omega

/-- Leaving out the first position makes a walk no longer. -/
theorem walkLength_tail_le (cap a : Nat) (l : List Nat) : walkLength cap l ≤ walkLength cap (a :: l) := by
  cases l with
  | nil => simp [walkLength]
  | cons b l => simp [walkLength]

/-- Leaving out a position inside a walk makes it no longer. -/
theorem walkLength_skip_le (cap a b c : Nat) (l : List Nat) (ha : a < cap) (hb : b < cap) (hc : c < cap) :
    walkLength cap (a :: c :: l) ≤ walkLength cap (a :: b :: c :: l) := by
  have := ringDist_triangle ha hb hc
  simp only [walkLength]; omega

end Sys2Proof.Machine
end

