-- ==== Sys2Proof/Laws/Cursors.lean ====
section
/-! SUPPORT. The cursors: what their invariant says in ring distances, and that loads and stores keep it (10_state.md R39). -/
namespace Sys2Proof.Machine

/-- Two legs that stay within one lap add up. -/
theorem ringDist_add {cap a b c : Nat} (ha : a < cap) (hb : b < cap) (hc : c < cap)
    (h : ringDist cap a b + ringDist cap b c ≤ cap - 1) : ringDist cap a c = ringDist cap a b + ringDist cap b c := by
  rw [ringDist_of_lt ha hb, ringDist_of_lt hb hc] at *
  rw [ringDist_of_lt ha hc]
  split_ifs at * <;> omega

/-- A walk within one lap is as long as the distance from its first to its last position. -/
theorem ringDist_eq_walkLength {cap a b : Nat} {l : List Nat} (hl : ∀ x ∈ a :: l, x < cap)
    (h : walkLength cap (a :: l) ≤ cap - 1) (last : (a :: l).getLast? = some b) : ringDist cap a b = walkLength cap (a :: l) := by
  induction l generalizing a with
  | nil => obtain rfl : a = b := by simpa using last
           simp [walkLength]
  | cons x l ih =>
    have hx : ∀ y ∈ x :: l, y < cap := fun y hy => hl y (List.mem_cons_of_mem _ hy)
    have last' : (x :: l).getLast? = some b := by simpa using last
    rw [walkLength_cons_cons] at *
    have e := ih hx (by omega) last'
    have hb : b < cap := hx b (List.mem_of_getLast? last')
    rw [ringDist_add (hl a List.mem_cons_self) (hx x List.mem_cons_self) hb (by omega), e]

/-- A walk made of two, joined by one leg. -/
theorem walkLength_join (cap : Nat) {l : List Nat} {a b : Nat} (r : List Nat) (last : l.getLast? = some a) :
    walkLength cap (l ++ b :: r) = walkLength cap l + ringDist cap a b + walkLength cap (b :: r) := by
  induction l with
  | nil => cases last
  | cons x l ih =>
    cases l with
    | nil => obtain rfl : x = a := by simpa using last
             simp [walkLength]
    | cons y l =>
      have := ih (by simpa using last)
      simp only [List.cons_append, walkLength] at *; omega

/-- A part left out at the front makes a walk no longer. -/
theorem walkLength_drop_le (cap k : Nat) (l : List Nat) : walkLength cap (l.drop k) ≤ walkLength cap l := by
  induction k generalizing l with
  | zero => simp
  | succ k ih =>
    cases l with
    | nil => simp
    | cons a l => exact (ih l).trans (walkLength_tail_le cap a l)

/-- The element an acquire load returns, and those after it, are a tail of the history. -/
theorem cons_drop_eq {α : Type} (a : α) (l : List α) (d : α) {k : Nat} (h : k ≤ l.length) :
    (a :: l).getD k d :: l.drop k = (a :: l).drop k := by
  cases k with
  | zero => simp
  | succ k =>
    have hk : k < l.length := by omega
    simp [List.getD, hk]

/-- The walk through all positions, leg by leg. -/
theorem CursorInv.walk_eq {cap : Nat} {q : Fifo} (h : CursorInv cap q) :
    walkLength cap (q.rObs :: q.unseenR) + ringDist cap q.rcur q.wObs + walkLength cap (q.wObs :: q.unseenW) ≤ cap - 1 := by
  have := h.oneLap
  rwa [Fifo.positions, walkLength_join cap _ h.latestR] at this

theorem CursorInv.indicesR {cap : Nat} {q : Fifo} (h : CursorInv cap q) : ∀ x ∈ q.rObs :: q.unseenR, x < cap :=
  fun x hx => h.indices x (List.mem_append_left _ hx)

theorem CursorInv.indicesW {cap : Nat} {q : Fifo} (h : CursorInv cap q) : ∀ x ∈ q.wObs :: q.unseenW, x < cap :=
  fun x hx => h.indices x (List.mem_append_right _ hx)

/-- `R_OBS`, `RCUR`, `W_OBS` and `WCUR` are indices. -/
theorem CursorInv.lt {cap : Nat} {q : Fifo} (h : CursorInv cap q) : q.rObs < cap ∧ q.rcur < cap ∧ q.wObs < cap ∧ q.wcur < cap :=
  ⟨h.indicesR _ List.mem_cons_self, h.indicesR _ (List.mem_of_getLast? h.latestR), h.indicesW _ List.mem_cons_self,
    h.indicesW _ (List.mem_of_getLast? h.latestW)⟩

/-- `R_OBS`, `RCUR`, `W_OBS`, `WCUR` in ring order within one lap (10_state.md R39). -/
theorem CursorInv.order {cap : Nat} {q : Fifo} (h : CursorInv cap q) :
    ringDist cap q.rObs q.wcur = ringDist cap q.rObs q.rcur + ringDist cap q.rcur q.wObs + ringDist cap q.wObs q.wcur ∧
    ringDist cap q.rcur q.wcur = ringDist cap q.rcur q.wObs + ringDist cap q.wObs q.wcur ∧
    ringDist cap q.rObs q.wcur ≤ cap - 1 := by
  obtain ⟨h1, h2, h3, h4⟩ := h.lt
  have hw := h.walk_eq
  have eR := ringDist_eq_walkLength h.indicesR (by omega) h.latestR
  have eW := ringDist_eq_walkLength h.indicesW (by omega) h.latestW
  have e1 := ringDist_add h2 h3 h4 (by omega)
  have e2 := ringDist_add h1 h2 h4 (by omega)
  exact ⟨by omega, by omega, by omega⟩

/-- An acquire load of `RCUR` keeps the invariant, whatever it returns. -/
theorem CursorInv.loadR {cap : Nat} {q : Fifo} (h : CursorInv cap q) {k : Nat} (hk : k ≤ q.unseenR.length) :
    CursorInv cap { q with rObs := (q.rObs :: q.unseenR).getD k 0, unseenR := q.unseenR.drop k } := by
  have e := cons_drop_eq q.rObs q.unseenR 0 hk
  refine ⟨?_, h.latestW, ?_, ?_⟩
  · simp only [e]
    rw [List.getLast?_drop, if_neg (by simp; omega)]; exact h.latestR
  · simp only [Fifo.positions, e]
    intro x hx
    rcases List.mem_append.mp hx with hx | hx
    · exact h.indicesR x (List.mem_of_mem_drop hx)
    · exact h.indicesW x hx
  · simp only [Fifo.positions, e]
    have hd := walkLength_drop_le cap k (q.rObs :: q.unseenR)
    have hw := h.walk_eq
    rw [walkLength_join cap (a := q.rcur) _ (by rw [List.getLast?_drop, if_neg (by simp; omega)]; exact h.latestR)]
    omega

/-- An acquire load of `WCUR` keeps the invariant, whatever it returns. -/
theorem CursorInv.loadW {cap : Nat} {q : Fifo} (h : CursorInv cap q) {k : Nat} (hk : k ≤ q.unseenW.length) :
    CursorInv cap { q with wObs := (q.wObs :: q.unseenW).getD k 0, unseenW := q.unseenW.drop k } := by
  have e := cons_drop_eq q.wObs q.unseenW 0 hk
  have hlast : ((q.wObs :: q.unseenW).drop k).getLast? = some q.wcur := by
    rw [List.getLast?_drop, if_neg (by simp; omega)]; exact h.latestW
  refine ⟨h.latestR, by simpa only [e] using hlast, ?_, ?_⟩
  · simp only [Fifo.positions, e]
    intro x hx
    rcases List.mem_append.mp hx with hx | hx
    · exact h.indicesR x hx
    · exact h.indicesW x (List.mem_of_mem_drop hx)
  · have hw := h.walk_eq
    obtain ⟨h1, h2, h3, h4⟩ := h.lt
    have hmem : (q.wObs :: q.unseenW).getD k 0 ∈ q.wObs :: q.unseenW := by
      have : k < (q.wObs :: q.unseenW).length := by simp; omega
      rw [List.getD, List.getElem?_eq_getElem this]; exact List.getElem_mem _
    have split : q.wObs :: q.unseenW = (q.wObs :: q.unseenW).take k ++ (q.wObs :: q.unseenW).getD k 0 :: q.unseenW.drop k := by
      rw [e, List.take_append_drop]
    have hnew := h.indicesW _ hmem
    have legs : ringDist cap q.rcur ((q.wObs :: q.unseenW).getD k 0) +
        walkLength cap ((q.wObs :: q.unseenW).getD k 0 :: q.unseenW.drop k) ≤
        ringDist cap q.rcur q.wObs + walkLength cap (q.wObs :: q.unseenW) := by
      generalize hv : (q.wObs :: q.unseenW).getD k 0 = v at *
      cases k with
      | zero => simp only [List.getD_cons_zero] at hv; subst hv; simp
      | succ k =>
        have e' : q.wObs :: q.unseenW = q.wObs :: (q.unseenW.take k ++ v :: q.unseenW.drop (k + 1)) := by
          simpa using split
        rw [e', ← List.cons_append, walkLength_append, List.cons_append]
        have := ringDist_le_walkLength cap q.wObs v (q.unseenW.take k) h3 hnew
          (fun x hx => h.indicesW x (List.mem_cons_of_mem _ (List.mem_of_mem_take hx)))
        have := ringDist_triangle h2 h3 hnew
        omega
    simp only [Fifo.positions]
    rw [walkLength_join cap _ h.latestR]
    omega

/-- A release store of `WCUR`, moved on by no more than the free space, keeps the invariant. -/
theorem CursorInv.storeW {cap : Nat} {q : Fifo} (h : CursorInv cap q) {a : Nat} (ha : a ≤ freeSlots cap q) :
    CursorInv cap (q.storeWcur (advance cap q.wcur a)) := by
  obtain ⟨h1, h2, h3, h4⟩ := h.lt
  obtain ⟨o1, o2, o3⟩ := h.order
  have hw := h.walk_eq
  have eR := ringDist_eq_walkLength h.indicesR (by omega) h.latestR
  have eW := ringDist_eq_walkLength h.indicesW (by omega) h.latestW
  unfold freeSlots at ha
  have hlt := advance_lt q.wcur a (by omega : 0 < cap)
  refine ⟨h.latestR, ?_, ?_, ?_⟩
  · rw [Fifo.storeWcur, ← List.cons_append, List.getLast?_concat]
  · simp only [Fifo.positions, Fifo.storeWcur]
    intro x hx
    rcases List.mem_append.mp hx with hx | hx
    · exact h.indicesR x hx
    · rcases List.mem_append.mp (by simpa only [← List.cons_append] using hx) with hx | hx
      · exact h.indicesW x hx
      · rw [List.mem_singleton.mp hx]; exact hlt
  · simp only [Fifo.positions, Fifo.storeWcur]
    rw [walkLength_join cap _ h.latestR, ← List.cons_append, walkLength_join cap [] h.latestW, ringDist_advance h4 (by omega)]
    simp only [walkLength]; omega

/-- A release store of `RCUR`, moved on by no more than what is available, keeps the invariant. -/
theorem CursorInv.storeR {cap : Nat} {q : Fifo} (h : CursorInv cap q) {m : Nat} (hm : m ≤ availFrames cap q) :
    CursorInv cap (q.storeRcur (advance cap q.rcur m)) := by
  obtain ⟨h1, h2, h3, h4⟩ := h.lt
  have hw := h.walk_eq
  unfold availFrames at hm
  have hlt := advance_lt q.rcur m (by omega : 0 < cap)
  have hlast : (q.rObs :: (q.unseenR ++ [advance cap q.rcur m])).getLast? = some (advance cap q.rcur m) := by
    rw [← List.cons_append, List.getLast?_concat]
  have d1 := ringDist_advance h2 (by omega : m < cap)
  have d2 : ringDist cap (advance cap q.rcur m) q.wObs = ringDist cap q.rcur q.wObs - m := by
    rw [ringDist_of_lt h2 h3] at hm ⊢
    rw [ringDist_of_lt hlt h3, advance_of_lt h2 (by split at hm <;> omega)]
    split at hm <;> split <;> split <;> omega
  refine ⟨hlast, h.latestW, ?_, ?_⟩
  · simp only [Fifo.positions, Fifo.storeRcur]
    intro x hx
    rcases List.mem_append.mp hx with hx | hx
    · rcases List.mem_append.mp (by simpa only [← List.cons_append] using hx) with hx | hx
      · exact h.indicesR x hx
      · rw [List.mem_singleton.mp hx]; exact hlt
    · exact h.indicesW x hx
  · simp only [Fifo.positions, Fifo.storeRcur]
    rw [walkLength_join cap _ hlast, ← List.cons_append, walkLength_join cap [] h.latestR, d1, d2]
    simp only [walkLength]; omega

end Sys2Proof.Machine
end

