-- ==== Sys2Proof/Laws/Encoding.lean ====
section
/-! SUPPORT. The operand words: fields taken from joined fields, and the range of a sample. -/
namespace Sys2Proof

/-- A sample survives the trip through its 16 bits. -/
theorem toInt_ofInt_sample {v : Int} (h : IsSample v) : (BitVec.ofInt 16 v).toInt = v := by
  rw [BitVec.toInt_ofInt]; simp [Int.bmod]; omega

/-- Sixteen bits read as two's complement are a sample. -/
theorem isSample_toInt (w : BitVec 16) : IsSample w.toInt := by
  have h1 := BitVec.toInt_lt (x := w)
  have h2 := BitVec.le_toInt (x := w)
  simp only [Nat.add_one_sub_one] at h1 h2
  constructor <;> omega

theorem high_of_append16 (a b : BitVec 16) : BitVec.extractLsb' 16 16 (a ++ b) = a := by
  apply BitVec.eq_of_getLsbD_eq; intro i hi
  rw [BitVec.getLsbD_extractLsb', BitVec.getLsbD_append]
  simp [hi]

theorem low_of_append16 (a b : BitVec 16) : BitVec.extractLsb' 0 16 (a ++ b) = b := by
  apply BitVec.eq_of_getLsbD_eq; intro i hi
  rw [BitVec.getLsbD_extractLsb', BitVec.getLsbD_append]
  simp [hi]

theorem append_halves (w : BitVec 32) : BitVec.extractLsb' 16 16 w ++ BitVec.extractLsb' 0 16 w = w := by
  apply BitVec.eq_of_getLsbD_eq; intro i hi
  rw [BitVec.getLsbD_append]
  simp only [BitVec.getLsbD_extractLsb']
  split
  · simp [*]
  · have : 16 + (i - 16) = i := by omega
    simp [this]; omega

theorem top_of_append48 (x y z : BitVec 16) : BitVec.extractLsb' 32 16 ((x ++ y) ++ z) = x := by
  apply BitVec.eq_of_getLsbD_eq; intro i hi
  rw [BitVec.getLsbD_extractLsb', BitVec.getLsbD_append, BitVec.getLsbD_append]
  have h1 : ¬ 32 + i < 16 := by omega
  have h2 : ¬ 32 + i - 16 < 16 := by omega
  have h3 : 32 + i - 16 - 16 = i := by omega
  simp [hi, h1, h2, h3]

theorem middle_of_append48 (x y z : BitVec 16) : BitVec.extractLsb' 16 16 ((x ++ y) ++ z) = y := by
  apply BitVec.eq_of_getLsbD_eq; intro i hi
  rw [BitVec.getLsbD_extractLsb', BitVec.getLsbD_append, BitVec.getLsbD_append]
  simp [hi]

theorem bottom_of_append48 (x y z : BitVec 16) : BitVec.extractLsb' 0 16 ((x ++ y) ++ z) = z := by
  apply BitVec.eq_of_getLsbD_eq; intro i hi
  rw [BitVec.getLsbD_extractLsb', BitVec.getLsbD_append]
  simp [hi]

theorem append_thirds (w : BitVec 48) : (BitVec.extractLsb' 32 16 w ++ BitVec.extractLsb' 16 16 w) ++ BitVec.extractLsb' 0 16 w = w := by
  apply BitVec.eq_of_getLsbD_eq; intro i hi
  rw [BitVec.getLsbD_append, BitVec.getLsbD_append]
  simp only [BitVec.getLsbD_extractLsb']
  split
  · simp [*]
  · split
    · have : 16 + (i - 16) = i := by omega
      simp [this]; omega
    · have : 32 + (i - 16 - 16) = i := by omega
      simp [this]; omega

/-- A frame in range survives the trip through its operand word. -/
theorem frameOfWord_wordOfFrame {f : Frame} (h : f.InRange) : frameOfWord (wordOfFrame f) = f := by
  simp only [frameOfWord, wordOfFrame]
  rw [high_of_append16, low_of_append16, toInt_ofInt_sample h.1, toInt_ofInt_sample h.2]

/-- An operand word survives the trip through its frame. -/
theorem wordOfFrame_frameOfWord (w : BitVec 32) : wordOfFrame (frameOfWord w) = w := by
  simp only [frameOfWord, wordOfFrame, BitVec.ofInt_toInt]
  exact append_halves w

/-- Every frame read from an operand word is in range. -/
theorem frameOfWord_inRange (w : BitVec 32) : (frameOfWord w).InRange :=
  ⟨isSample_toInt _, isSample_toInt _⟩

end Sys2Proof
end

