-- ==== Sys2Proof/Laws/PerInstr.lean ====
section
/-! SUPPORT. Statements made per instruction, one lemma per constructor. -/
namespace Sys2Proof.Laws

/-- The port an operation is encoded on belongs to the agent that issues it (00_scope.md R8; 30_encoding.md R90). -/
def PortAgent.Statement (i : Instr) : Prop := (encode i).agent = i.agent

theorem PortAgent.toneLatch0 (d : BitVec 4) : PortAgent.Statement (.toneLatch0 d) := rfl
theorem PortAgent.volWrite0 (d : BitVec 4) : PortAgent.Statement (.volWrite0 d) := rfl
theorem PortAgent.toneLatch1 (d : BitVec 4) : PortAgent.Statement (.toneLatch1 d) := rfl
theorem PortAgent.volWrite1 (d : BitVec 4) : PortAgent.Statement (.volWrite1 d) := rfl
theorem PortAgent.toneLatch2 (d : BitVec 4) : PortAgent.Statement (.toneLatch2 d) := rfl
theorem PortAgent.volWrite2 (d : BitVec 4) : PortAgent.Statement (.volWrite2 d) := rfl
theorem PortAgent.noiseCtrl (f : BitVec 1) (nn : BitVec 2) : PortAgent.Statement (.noiseCtrl f nn) := rfl
theorem PortAgent.volWrite3 (d : BitVec 4) : PortAgent.Statement (.volWrite3 d) := rfl
theorem PortAgent.data (u : BitVec 6) : PortAgent.Statement (.data u) := rfl
theorem PortAgent.sample : PortAgent.Statement .sample := rfl
theorem PortAgent.update (n : Nat) : PortAgent.Statement (.update n) := rfl
theorem PortAgent.mix (fmL fmR : Int) (psg : Nat) : PortAgent.Statement (.mix fmL fmR psg) := rfl
theorem PortAgent.filter (xL xR : Int) : PortAgent.Statement (.filter xL xR) := rfl
theorem PortAgent.produce (burst : List Frame) : PortAgent.Statement (.produce burst) := rfl
theorem PortAgent.consume (n : Nat) : PortAgent.Statement (.consume n) := rfl
theorem PortAgent.count : PortAgent.Statement .count := rfl
theorem PortAgent.resetHard : PortAgent.Statement .resetHard := rfl
theorem PortAgent.resetSoft : PortAgent.Statement .resetSoft := rfl

end Sys2Proof.Laws
end

