-- ==== Sys2Proof/Laws/Psg.lean ====
section
/-! SUPPORT. The PSG's operand fields in numbers, what a re-derived period changes, and the accumulation loop. -/
namespace Sys2Proof.Machine

/-! Fields in numbers. -/

theorem withLow4_toNat (old : BitVec 10) (d : BitVec 4) : (withLow4 old d).toNat = old.toNat / 16 * 16 + d.toNat := by
  unfold withLow4
  rw [BitVec.toNat_append, Nat.shiftLeft_eq, BitVec.extractLsb'_toNat, Nat.shiftRight_eq_div_pow]
  have h1 := old.isLt
  have h2 := d.isLt
  rw [Nat.mod_eq_of_lt (by omega), ← Nat.shiftLeft_eq, ← Nat.shiftLeft_add_eq_or_of_lt h2, Nat.shiftLeft_eq]

theorem withHigh6_toNat (old : BitVec 10) (u : BitVec 6) : (withHigh6 old u).toNat = u.toNat * 16 + old.toNat % 16 := by
  unfold withHigh6
  rw [BitVec.toNat_append, BitVec.extractLsb'_toNat, Nat.shiftRight_zero,
    ← Nat.shiftLeft_add_eq_or_of_lt (by omega : old.toNat % 2 ^ 4 < 2 ^ 4), Nat.shiftLeft_eq]
  norm_num

theorem noiseControlBits_toNat (f : BitVec 1) (nn : BitVec 2) : (noiseControlBits f nn).toNat = 4 * f.toNat + nn.toNat := by
  revert f nn; decide

theorem nctrlRate_toNat (c : BitVec 3) : (nctrlRate c).toNat = c.toNat % 4 := by revert c; decide

theorem nctrlRate_eq_three (c : BitVec 3) : nctrlRate c = 3#2 ↔ c.toNat % 4 = 3 := by revert c; decide

theorem nctrlRate_noiseControlBits (f : BitVec 1) (nn : BitVec 2) : nctrlRate (noiseControlBits f nn) = nn := by
  revert f nn; decide

theorem fb_noiseControlBits (f : BitVec 1) (nn : BitVec 2) : (noiseControlBits f nn).getLsbD 2 = decide (f = 1#1) := by
  revert f nn; decide

/-- The latched tone register, by its number. -/
theorem latchedTone_eq_some (l : BitVec 3) (c : ToneCh) : latchedTone l = some c ↔ l.toNat = 2 * c.index := by
  cases c <;> revert l <;> decide

/-- The channel of a latched volume register, by its number. -/
theorem latchedChan_of_volume (l : BitVec 3) (c : Chan) (h : l.toNat = 2 * c.index + 1) : latchedChan l = c := by
  cases c <;> revert l <;> decide

theorem ToneCh.chan_ne_n (c : ToneCh) : c.chan ≠ .n := by cases c <;> decide

theorem ToneCh.chan_inj {c e : ToneCh} (h : e ≠ c) : e.chan ≠ c.chan := by
  cases c <;> cases e <;> first | exact absurd rfl h | decide

/-! Channel time. -/

/-- SAMPLE writes nothing of the PSG but the counters, the output levels and the shift register. -/
theorem samplePsg_eq (p : Params) (g : Psg) : (samplePsg p g).2 =
    { g with cnt := (samplePsg p g).2.cnt, out := (samplePsg p g).2.out, lfsr := (samplePsg p g).2.lfsr } := rfl

/-- Nor does UPDATE. -/
theorem updatePsg_eq (p : Params) (n : Nat) (g : Psg) : (updatePsg p n g).2 =
    { g with cnt := (updatePsg p n g).2.cnt, out := (updatePsg p n g).2.out, lfsr := (updatePsg p n g).2.lfsr } := by
  induction n generalizing g with
  | zero => rfl
  | succ n ih => simp only [updatePsg]; rw [ih]; rfl

/-! Re-derivation. -/

/-- Re-deriving writes nothing but the periods. -/
theorem rederive_eq (p : Params) (g : Psg) (c : ToneCh) : rederive p g c = { g with period := (rederive p g c).period } := by
  unfold rederive; split <;> rfl

theorem rederive_own (p : Params) (g : Psg) (c : ToneCh) :
    (rederive p g c).period.get c.chan = tonePeriod p (g.tone.get c) := by
  unfold rederive
  split
  · simp [PerChan.get_set_other _ _ (ToneCh.chan_ne_n c)]
  · simp

theorem rederive_other (p : Params) (g : Psg) {c e : ToneCh} (h : e ≠ c) :
    (rederive p g c).period.get e.chan = g.period.get e.chan := by
  unfold rederive
  split
  · simp [PerChan.get_set_other _ _ (ToneCh.chan_ne_n e), PerChan.get_set_other _ _ (ToneCh.chan_inj h)]
  · simp [PerChan.get_set_other _ _ (ToneCh.chan_inj h)]

theorem rederive_noise (p : Params) (g : Psg) (c : ToneCh) : (rederive p g c).period.n =
    if c = p.noiseLinkCh ∧ g.nctrl.toNat % 4 = 3 then 2 * tonePeriod p (g.tone.get c) else g.period.n := by
  unfold rederive
  simp only [nctrlRate_eq_three]
  split
  · cases c <;> rfl
  · cases c <;> rfl

end Sys2Proof.Machine
end

