-- ==== Sys2Proof/Tests/Slice0.lean ====
section
/-! SUPPORT. The modeller's tests: ill-formed terms refused, words decoded, single steps with the numbers of 95_test_vectors.md, and for
each statement with hypotheses a witness that meets them. -/
namespace Sys2Proof.Tests
open Sys2Proof Sys2Proof.Machine

/-! The well-formedness checks (30_encoding.md R102): each refuses an ill-formed term. -/

theorem test_wf_update : (Instr.update 65536).wf = false ∧ (Instr.update 65535).wf = true := by decide
theorem test_wf_consume : (Instr.consume 65536).wf = false ∧ (Instr.consume 65535).wf = true := by decide
theorem test_wf_mix_left : (Instr.mix 32768 0 0).wf = false ∧ (Instr.mix 32767 (-32768) 65535).wf = true := by decide
theorem test_wf_mix_right : (Instr.mix 0 (-32769) 0).wf = false := by decide
theorem test_wf_mix_psg : (Instr.mix 0 0 65536).wf = false := by decide
theorem test_wf_filter : (Instr.filter (-32769) 0).wf = false ∧ (Instr.filter 0 32768).wf = false := by decide
theorem test_wf_produce : (Instr.produce [⟨0, 0⟩, ⟨0, 32768⟩]).wf = false ∧ (Instr.produce [⟨32767, -32768⟩]).wf = true := by
  decide

/-! Words written out from 30_encoding.md R94, R102 and R104. -/

/-- `1 cc 0 dddd`. -/
theorem test_decode_toneLatch : decodeByte 0b10000101#8 = .toneLatch0 5#4 ∧ decodeByte 0b10101111#8 = .toneLatch1 15#4 ∧
    decodeByte 0b11000010#8 = .toneLatch2 2#4 := by decide

/-- `1 cc 1 dddd`. -/
theorem test_decode_volWrite : decodeByte 0b10010001#8 = .volWrite0 1#4 ∧ decodeByte 0b10111111#8 = .volWrite1 15#4 ∧
    decodeByte 0b11010010#8 = .volWrite2 2#4 ∧ decodeByte 0b11110000#8 = .volWrite3 0#4 := by decide

/-- `1 11 0 - f nn`: bit 3 is ignored (R99; vector V15). -/
theorem test_decode_noiseCtrl : decodeByte 0b11100100#8 = .noiseCtrl 1#1 0#2 ∧ decodeByte 0b11101100#8 = .noiseCtrl 1#1 0#2 ∧
    decodeByte 0b11100011#8 = .noiseCtrl 0#1 3#2 := by decide

/-- `0 - uuuuuu`: bit 6 is ignored (R99; vector V15). -/
theorem test_decode_data : decodeByte 0b00000010#8 = .data 2#6 ∧ decodeByte 0b01000010#8 = .data 2#6 ∧
    decodeByte 0b01111111#8 = .data 63#6 := by decide

/-- The ports with an empty bus, and the counts. -/
theorem test_decode_ports : decode .psgSmp = .sample ∧ decode .fifoCnt = .count ∧
    decode (.psgUpd 0b1000000000000001#16) = .update 32769 ∧ decode (.fifoPop 0b0000000000001010#16) = .consume 10 ∧
    decode (.rst 1#1) = .resetHard ∧ decode (.rst 0#1) = .resetSoft := by decide

/-- `fm_l` bits 47:32, `fm_r` bits 31:16, `psg` bits 15:0. -/
theorem test_decode_mix : decode (.mixIn 0b000000000110010011111111100111000000000011001000#48) = .mix 100 (-100) 200 := by decide

/-- `x_l` bits 31:16, `x_r` bits 15:0. -/
theorem test_decode_filter : decode (.fltIn 0b10000000000000000111111111111111#32) = .filter (-32768) 32767 := by decide

/-- One 32-bit word a frame, left in bits 31:16. -/
theorem test_decode_produce : decode (.fifoPush [0b00000000000000010000000000000010#32, 0b11111111111111110000000000000000#32]) =
    .produce [⟨1, 2⟩, ⟨-1, 0⟩] := by decide

/-- Table words, by width (log 2). -/
theorem test_decodeTableWord : decodeTableWord 8 0x85 = some (.toneLatch0 5#4) ∧ decodeTableWord 16 0x8001 = some (.update 32769) ∧
    decodeTableWord 48 0x0064FF9C00C8 = some (.mix 100 (-100) 200) ∧ decodeTableWord 32 0x80007FFF = some (.filter (-32768) 32767) ∧
    decodeTableWord 0 0 = some .sample ∧ decodeTableWord 1 1 = some .resetHard ∧
    decodeTableWord 64 0xFFFF000000010002 = some (.produce [⟨1, 2⟩, ⟨-1, 0⟩]) := by decide

/-! Helpers: the state a step gives, and small states. -/

/-- The next state, if there is one. -/
def nextOf (o : Host.Outcome State Fault Refusal) : Option State :=
  match o with
  | .next t => some t
  | .fault _ => none
  | .refused _ => none

/-- A field of the state after one operation. -/
def after {α : Type} (i : Instr) (s : State) (f : State → α) : Option α := (nextOf (exec i s)).map f

/-- The reset state with another PSG. -/
def withPsg (f : Psg → Psg) : State := State.reset.setPsg (f State.reset.psg)

/-- The reset state with the FIFO at the given cursors, slots 0 to 6 holding frames `k+1, -(k+1)` and slot 7 never written, both agents
having observed everything. -/
def withCursors (r w : Nat) : State :=
  State.reset.setFifo { Fifo.atReset with
    slots := [(0, ⟨1, -1⟩), (1, ⟨2, -2⟩), (2, ⟨3, -3⟩), (3, ⟨4, -4⟩), (4, ⟨5, -5⟩), (5, ⟨6, -6⟩), (6, ⟨7, -7⟩)]
    wcur := w, rcur := r, rObs := r, wObs := w }

/-- The frames `G_0` to `G_3` of 95_test_vectors.md 2.8. -/
def gFrames : List Frame := [⟨100, -100⟩, ⟨101, -101⟩, ⟨102, -102⟩, ⟨103, -103⟩]

/-! Single steps, numbers from 95_test_vectors.md. -/

/-- V9: `WR 81` on `TONE[0] = 0x020`. -/
theorem test_toneLatch0 : after (.toneLatch0 1#4) (withPsg fun g => { g with tone := ⟨0x020#10, 0#10, 0#10⟩, latch := 1#3 })
    (fun t => (t.psg.tone.t0, t.psg.period.t0, t.psg.latch)) = some (0x021#10, 135168, 0#3) := by decide

/-- V8: `WR A8` with the noise linked to T1. -/
theorem test_toneLatch1 : after (.toneLatch1 8#4) (withPsg fun g => { g with nctrl := 7#3 })
    (fun t => (t.psg.tone.t1, t.psg.period.t1, t.psg.period.n, t.psg.latch)) = some (8#10, 32768, 65536, 2#3) := by decide

/-- V13: `WR C8`; with the noise linked to T1 its period stays. -/
theorem test_toneLatch2 : after (.toneLatch2 8#4) (withPsg fun g => { g with nctrl := 7#3 })
    (fun t => (t.psg.tone.t2, t.psg.period.t2, t.psg.period.n, t.psg.latch)) = some (8#10, 32768, 131072, 4#3) := by decide

/-- V12: `TONE[0] = 1` is the sentinel, period 0. -/
theorem test_toneLatch0_sentinel : after (.toneLatch0 1#4) State.reset
    (fun t => (t.psg.tone.t0, t.psg.period.t0)) = some (1#10, 0) := by decide

/-- V2: `WR 90`. -/
theorem test_volWrite0 : after (.volWrite0 0#4) State.reset (fun t => (t.psg.volidx, t.psg.latch)) =
    some (⟨0#4, 15#4, 15#4, 15#4⟩, 1#3) := by decide
theorem test_volWrite1 : after (.volWrite1 0#4) State.reset (fun t => (t.psg.volidx, t.psg.latch)) =
    some (⟨15#4, 0#4, 15#4, 15#4⟩, 3#3) := by decide
theorem test_volWrite2 : after (.volWrite2 0#4) State.reset (fun t => (t.psg.volidx, t.psg.latch)) =
    some (⟨15#4, 15#4, 0#4, 15#4⟩, 5#3) := by decide
/-- P2: `WR F0`. -/
theorem test_volWrite3 : after (.volWrite3 0#4) State.reset (fun t => (t.psg.volidx, t.psg.latch)) =
    some (⟨15#4, 15#4, 15#4, 0#4⟩, 7#3) := by decide

/-- V16: the second `WR E4` puts the preset back and keeps the counter. -/
theorem test_noiseCtrl_presets : after (.noiseCtrl 1#1 0#2)
    (withPsg fun g => { g with lfsr := 0x2000#16, cnt := ⟨0, 0, 0, 65536⟩, nctrl := 4#3 })
    (fun t => (t.psg.lfsr, t.psg.out.n, t.psg.cnt.n, t.psg.tapmask, t.psg.latch)) =
    some (0x8000#16, false, 65536, 0x0009#16, 6#3) := by decide

/-- V8: `WR E7` with `PERIOD[1] = 32768`. -/
theorem test_noiseCtrl_linked : after (.noiseCtrl 1#1 3#2) (withPsg fun g => { g with period := ⟨0, 32768, 0, 131072⟩ })
    (fun t => (t.psg.period.n, t.psg.nctrl)) = some (65536, 7#3) := by decide

/-- V14: `WR 3F` with no latch since reset. -/
theorem test_data_tone : after (.data 0x3F#6) State.reset
    (fun t => (t.psg.tone.t0, t.psg.period.t0, t.psg.latch)) = some (0x3F0#10, 4128768, 0#3) := by decide

/-- V10: `WR 3F` while volume register 1 is latched, under `ignore` and under `low4`. -/
theorem test_data_volume :
    after (.data 0x3F#6) (withPsg fun g => { g with latch := 1#3, volidx := ⟨5#4, 15#4, 15#4, 15#4⟩ })
      (fun t => t.psg.volidx.t0) = some 5#4 ∧
    after (.data 0x3F#6) ((withPsg fun g => { g with latch := 1#3, volidx := ⟨5#4, 15#4, 15#4, 15#4⟩ }).setCfg
      { referenceParams with dataNontone := .low4 }) (fun t => t.psg.volidx.t0) = some 15#4 := by decide

/-- V4, first sample: `TONE[0] = 5`, `PERIOD[0] = 20480`; its result and trace line. -/
theorem test_sample_tone : after .sample
    (withPsg fun g => { g with tone := ⟨5#10, 0#10, 0#10⟩, period := ⟨20480, 0, 0, 131072⟩, volidx := ⟨0#4, 15#4, 15#4, 15#4⟩ })
    (fun t => (t.bus.psgOut, t.psg.cnt.t0, t.psg.out.t0, t.psg.lfsr)) = some (6826, 16384, false, 0x4000#16) := by
  decide +kernel

/-- V6: four channels held high at full volume, clamped to the ceiling. -/
theorem test_sample_clamp : after .sample
    (withPsg fun g => { g with period := ⟨0, 0, 0, 0⟩, volidx := ⟨0#4, 0#4, 0#4, 0#4⟩, nctrl := 3#3 })
    (fun t => (t.bus.psgOut, t.psg.out, t.psg.cnt, t.psg.lfsr)) =
    some (32767, ⟨true, true, true, true⟩, ⟨0, 0, 0, 0⟩, 0x8000#16) := by decide +kernel

/-- V4 as one UPDATE. -/
theorem test_update : after (.update 5)
    (withPsg fun g => { g with tone := ⟨5#10, 0#10, 0#10⟩, period := ⟨20480, 0, 0, 131072⟩, volidx := ⟨0#4, 15#4, 15#4, 15#4⟩ })
    (fun t => (t.bus.updOut, t.psg.cnt.t0, t.psg.out.t0, t.psg.cnt.n, t.psg.lfsr)) =
    some ([6826, 4778, 5461, 6143, 4095], 20480, true, 65536, 0x1000#16) := by decide +kernel

/-- UPDATE 0 does nothing but give an empty result. -/
theorem test_update_zero : after (.update 0) State.reset (fun t => (t.psg, t.bus.updOut)) = some (State.reset.psg, []) := by
  decide +kernel

/-- NS1: the output bits of shifts 1 to 64 under the white taps, and the state after them. -/
theorem test_white_noise : ((shifts 0x0009#16 64 0x8000#16).1.map (fun b => if b then 1 else 0)) =
    [0,0,0,0,0,0,0,0,0,0,0,0,0,0,1,0] ++ [0,0,0,0,0,0,0,0,0,0,0,1,0,0,1,0] ++ [0,0,0,0,0,0,0,0,1,0,0,0,0,0,1,0] ++
    [0,0,0,0,0,1,0,0,1,0,0,1,0,0,1,0] ∧ (shifts 0x0009#16 64 0x8000#16).2 = 0x8008#16 := by decide +kernel

/-- The volume tables of 95_test_vectors.md 2.5. -/
theorem test_volTable : volTable 10922 =
      #v[10922, 8675, 6891, 5473, 4348, 3453, 2743, 2179, 1731, 1374, 1092, 867, 689, 547, 434, 0] ∧
    volTable 32767 =
      #v[32767, 26027, 20674, 16422, 13044, 10361, 8230, 6537, 5193, 4125, 3276, 2602, 2067, 1642, 1304, 0] := by decide +kernel

/-- M4 and M6: both sources, and the saturation. -/
theorem test_mix : after (.mix 100 (-100) 200) (State.reset.setLive ⟨0, true, true⟩) (fun t => t.bus.mixOut) = some ⟨162, -12⟩ ∧
    after (.mix (-32768) 32767 32767) (State.reset.setLive ⟨0, true, true⟩) (fun t => t.bus.mixOut) = some ⟨-16385, 32767⟩ := by
  decide +kernel

/-- F3, first step, by hand in 95_test_vectors.md 2.7. -/
theorem test_filter_full : after (.filter 1000 1000) (State.reset.setLive ⟨100, false, false⟩) (fun t => (t.bus.fltOut, t.flt.l)) =
    some (⟨97, 97⟩, ⟨1000, 994, 4677171, 1060683⟩) := by decide +kernel

/-- F10: saturated on the output only. F7: rounding toward zero, in the other lane. -/
theorem test_filter_saturates : after (.filter 32767 (-3)) (State.reset.setFlt ⟨⟨-32768, 0, 0, 0⟩, ⟨0, 0, 0, 0⟩⟩)
    (fun t => (t.bus.fltOut, t.flt.l, t.flt.r)) = some (⟨32767, -2⟩, ⟨32767, 65207, 0, 0⟩, ⟨-3, -2, 0, 0⟩) := by decide +kernel

/-- The coefficients at 1, 37 and 99 percent (95_test_vectors.md 2.7). -/
theorem test_coefficients : coef lpfFullDefault 1 = ⟨16237, 31, 16, -154, 54⟩ ∧
    coef lpfFullDefault 37 = ⟨10914, 1183, 592, -5715, 2020⟩ ∧ coef lpfFullDefault 99 = ⟨1748, 3166, 1584, -15292, 5406⟩ := by
  decide +kernel

/-- Q5: four frames accepted, wrapping. -/
theorem test_produce_wraps : after (.produce gFrames) (withCursors 4 7)
    (fun t => (t.fifo.wcur, t.fifo.slots.map (·.1), slotLookup 7 t.fifo.slots, slotLookup 2 t.fifo.slots, t.fifo.unseenW)) =
    some (3, [0, 1, 2, 3, 4, 5, 6, 7], some ⟨100, -100⟩, some ⟨103, -103⟩, [3]) := by decide +kernel

/-- Q8: with the stale draw 0 nothing is accepted; with the draw of the latest value, all four frames. -/
theorem test_produce_stale :
    after (.produce gFrames) (((withCursors 4 7).setFifo { (withCursors 4 7).fifo with rObs := 0, unseenR := [4] }).setEnv
      ⟨[], [], [], [0], 0⟩) (fun t => (t.fifo.wcur, t.fifo.rObs)) = some (7, 0) ∧
    after (.produce gFrames) (((withCursors 4 7).setFifo { (withCursors 4 7).fifo with rObs := 0, unseenR := [4] }).setEnv
      ⟨[], [], [], [1], 0⟩) (fun t => (t.fifo.wcur, t.fifo.rObs)) = some (3, 4) := by decide +kernel

/-- Q4. -/
theorem test_consume : after (.consume 4) (withCursors 0 7) (fun t => (t.bus.popOut, t.fifo.rcur, t.fifo.unseenR)) =
    some ([⟨1, -1⟩, ⟨2, -2⟩, ⟨3, -3⟩, ⟨4, -4⟩], 4, [4]) := by decide +kernel

/-- Q9: draw 5 of `H(WCUR) = 0, 5, 7`. -/
theorem test_consume_stale : after (.consume 7)
    (((withCursors 0 7).setFifo { (withCursors 0 7).fifo with wObs := 0, unseenW := [5, 7] }).setEnv ⟨[], [], [], [1], 0⟩)
    (fun t => (t.bus.popOut, t.fifo.rcur)) =
    some ([⟨1, -1⟩, ⟨2, -2⟩, ⟨3, -3⟩, ⟨4, -4⟩, ⟨5, -5⟩, ⟨0, 0⟩, ⟨0, 0⟩], 5) := by decide +kernel

/-- Q10: the latest draw gives 3, the stale one 7. -/
theorem test_count :
    after .count (((withCursors 4 7).setFifo { (withCursors 4 7).fifo with rObs := 0, unseenR := [4] }).setEnv
      ⟨[], [], [], [1], 0⟩) (fun t => t.bus.cntOut) = some 3 ∧
    after .count (((withCursors 4 7).setFifo { (withCursors 4 7).fifo with rObs := 0, unseenR := [4] }).setEnv
      ⟨[], [], [], [0], 0⟩) (fun t => t.bus.cntOut) = some 7 := by decide +kernel

/-- P4, C2.0: AUD reads slot 4, the environment having drawn the first of the reads left. -/
theorem test_consume_atom : (consumeAtom (((withCursors 4 7).setFifo
      { (withCursors 4 7).fifo with consuming := some ⟨5, [none, none, none], [0, 1, 2]⟩ }).setEnv ⟨[], [], [], [0], 0⟩)).fifo.consuming =
    some ⟨5, [some ⟨5, -5⟩, none, none], [1, 2]⟩ := by decide +kernel

/-- 10_state.md R41: a hard reset restores the table; the live inputs stay (44_system_ops.md R230). -/
theorem test_resetHard : after .resetHard (((withCursors 4 7).setPsg { State.reset.psg with lfsr := 5#16, tone := ⟨1, 2, 3⟩ }).setLive
    ⟨7, true, false⟩) (fun t => (t.psg, t.flt, t.fifo, t.live)) =
    some (State.reset.psg, State.reset.flt, State.reset.fifo, ⟨7, true, false⟩) := by decide +kernel

/-- 44_system_ops.md R231. -/
theorem test_resetSoft : after .resetSoft (withCursors 4 7) (fun t => t.fifo) = some (withCursors 4 7).fifo := by decide

/-- A table word placed after reset runs next (log 1, 2). -/
theorem test_withFetchWord : (nextOf (step (State.reset.withFetchWord 8 0x8F))).map (fun t => t.psg.tone.t0) = some 15#10 ∧
    (nextOf (step (State.reset.withFetchWord 0 0))).map (fun t => t.psg.cnt.n) = some 65536 := by decide +kernel

/-- V6: what `WR E3` leaves after a change of the linked channel's period to 0 (10_state.md R28). -/
theorem test_rederive_linked : after (.toneLatch1 0#4) (withPsg fun g => { g with nctrl := 3#3, period := ⟨0, 32768, 0, 65536⟩ })
    (fun t => t.psg.period) = some ⟨0, 0, 0, 0⟩ := by decide

/-! Witnesses: for each statement with hypotheses, a concrete case that meets them all together; for one with several clauses, a
case for each. -/

theorem exists_next {o : Host.Outcome State Fault Refusal} (h : (nextOf o).isSome = true) : ∃ t, o = .next t := by
  cases o with
  | next t => exact ⟨t, rfl⟩
  | fault f => cases f
  | refused r => cases h

/-- Program P4 after its steps C1 and P1: both operations in flight. AUD's turn is next. -/
def p4 : State :=
  ((withCursors 4 7).setFifo { (withCursors 4 7).fifo with
    unseenR := []
    producing := some ⟨[⟨100, -100⟩, ⟨101, -101⟩, ⟨102, -102⟩], [(7, ⟨100, -100⟩), (0, ⟨101, -101⟩), (1, ⟨102, -102⟩)]⟩
    consuming := some ⟨5, [none, none, none], [0, 1, 2]⟩ }).setEnv ⟨[.use .fifoCnt], [.fifoPop 3#16], [.atom .aud], [0], 0⟩

theorem p4_producing : ProducingInv 8 p4.fifo
    ⟨[⟨100, -100⟩, ⟨101, -101⟩, ⟨102, -102⟩], [(7, ⟨100, -100⟩), (0, ⟨101, -101⟩), (1, ⟨102, -102⟩)]⟩ where
  fits := by decide +kernel
  own := by
    intro w hw
    simp only [List.mem_cons, List.not_mem_nil, or_false] at hw
    rcases hw with rfl | rfl | rfl
    · exact ⟨0, _, rfl, by decide +kernel⟩
    · exact ⟨1, _, rfl, by decide +kernel⟩
    · exact ⟨2, _, rfl, by decide +kernel⟩
  once := by decide +kernel
  landed := by
    intro i f h
    rcases i with _ | _ | _ | i <;> cases h <;> exact .inl (by decide +kernel)

theorem p4_consuming : ConsumingInv 8 p4.fifo ⟨5, [none, none, none], [0, 1, 2]⟩ where
  fits := by decide +kernel
  wanted := by decide +kernel
  own := by decide +kernel
  once := by decide +kernel
  read := by
    intro i h1 h2
    simp only [List.length_cons, List.length_nil] at h1
    simp only [List.mem_cons, List.not_mem_nil, or_false] at h2
    omega

theorem p4_fifoInv : FifoInv 8 p4.fifo where
  cursors := { latestR := by decide +kernel, latestW := by decide +kernel, indices := by decide +kernel, oneLap := by decide +kernel }
  slots := { canonical := by decide +kernel, indices := by decide +kernel, written := by decide +kernel }
  producing := by intro c h; cases h; exact p4_producing
  consuming := by intro c h; cases h; exact p4_consuming

/-- A quiet state: full of frames, everything observed, nothing in flight. -/
theorem quiet_fifoInv : FifoInv 8 (withCursors 0 7).fifo where
  cursors := { latestR := by decide +kernel, latestW := by decide +kernel, indices := by decide +kernel, oneLap := by decide +kernel }
  slots := { canonical := by decide +kernel, indices := by decide +kernel, written := by decide +kernel }
  producing := by intro c h; cases h
  consuming := by intro c h; cases h

theorem referenceParams_valid : referenceParams.Valid := by decide +kernel

theorem p4_inv : Inv p4 where
  cfg := referenceParams_valid
  psg := {
    tonePeriods := by intro c; cases c <;> decide +kernel
    noiseFixed := by intro k _ h; obtain rfl : 0 = k := h; decide +kernel
    noiseLinked := by intro h; exact absurd h (by decide +kernel)
    taps := by decide +kernel
    lfsrNonzero := by decide +kernel
    toneCnt := by intro c; cases c <;> decide +kernel
    noiseCnt := by decide +kernel }
  flt := by unfold FilterInv; decide +kernel
  fifo := p4_fifoInv

theorem witness_DecodeOfEncodeIsTheInstruction :
    (Instr.mix (-32768) 32767 65535).wf = true ∧ (Instr.update 65535).wf = true ∧ (Instr.filter 32767 (-32768)).wf = true ∧
    (Instr.produce [⟨-32768, 32767⟩]).wf = true ∧ (Instr.consume 0).wf = true ∧ (Instr.data 63#6).wf = true := by decide

theorem witness_ByteDecodesByItsBits : (0x7F#8).toNat < 128 ∧ 128 ≤ (0x80#8).toNat ∧
    (0xEF#8).toNat / 16 % 8 = 6 ∧ (0x80#8).toNat / 16 % 8 = 0 ∧ (0x9F#8).toNat / 16 % 8 = 1 ∧ (0xA0#8).toNat / 16 % 8 = 2 ∧
    (0xBF#8).toNat / 16 % 8 = 3 ∧ (0xC0#8).toNat / 16 % 8 = 4 ∧ (0xDF#8).toNat / 16 % 8 = 5 ∧ (0xFF#8).toNat / 16 % 8 = 7 := by
  decide

theorem witness_DataWritesHighSixBitsOfTheLatchedTone :
    State.reset.psg.latch.toNat = 2 * ToneCh.t0.index ∧
    (withPsg fun g => { g with latch := 4#3 }).psg.latch.toNat = 2 * ToneCh.t2.index := by decide

theorem witness_DataOnOtherRegistersFollowsDataNontone :
    (∀ c : ToneCh, (withPsg fun g => { g with latch := 7#3 }).psg.latch.toNat ≠ 2 * c.index) ∧
    (withPsg fun g => { g with latch := 7#3 }).cfg.dataNontone = .ignore ∧
    (withPsg fun g => { g with latch := 7#3 }).psg.latch.toNat = 2 * Chan.n.index + 1 ∧
    (∀ c : ToneCh, (withPsg fun g => { g with latch := 6#3 }).psg.latch.toNat ≠ 2 * c.index) ∧
    ((withPsg fun g => { g with latch := 6#3 }).setCfg { referenceParams with dataNontone := .low4 }).cfg.dataNontone = .low4 ∧
    (withPsg fun g => { g with latch := 6#3 }).psg.latch.toNat = 6 := by
  refine ⟨?_, by decide, by decide, ?_, by decide, by decide⟩ <;> (intro c; cases c <;> decide)

theorem witness_WritesAreIdempotent : (0xDF#8).toNat / 16 ≠ 14 ∧ (0xF0#8).toNat / 16 ≠ 14 ∧ (0x3F#8).toNat / 16 ≠ 14 := by decide

theorem witness_ChannelTimeIsContinuous : 0 < 1 := by decide

theorem witness_ToneIsHighHalfOfWholePeriods : 0 < 20480 ∧ (Osc.mk 20480 true 0#16).cnt ≤ 20480 ∧ 2 * 20480 ∣ 5 * 65536 := by
  decide

theorem witness_ZeroPeriodHoldsTheChannelHigh : State.reset.psg.period.get ToneCh.t0.chan = 0 ∧
    (withPsg fun g => { g with period := ⟨0, 0, 0, 0⟩ }).psg.period.n = 0 := by decide

theorem witness_OutputIsClampedToTheCeiling : 1 ≤ State.reset.cfg.unit := by decide

theorem witness_SilentAfterHardReset : ∃ t, exec .resetHard (withCursors 0 7) = .next t := exists_next (by decide +kernel)

theorem witness_VolumeTableIsTheFloorOfTheLaw : 32767 ≤ 32767 ∧ 0 ≤ 32767 := by decide

theorem witness_MixAddsWeightedTermsAndSaturates : IsSample (-32768) ∧ IsSample 32767 ∧ 32767 ≤ State.reset.cfg.outCeil := by
  decide

theorem witness_MixSaturatesOnlyUpwards : State.reset.cfg.Valid ∧ IsSample (-32768) ∧ IsSample 32767 ∧ 0 ≤ State.reset.cfg.outCeil ∧
    (Live.mk 0 true false).fmEn = true ∧ (Live.mk 0 true false).psgEn = false ∧ (Live.mk 0 false true).psgEn = true ∧
    (Live.mk 0 true true).psgEn = true := ⟨referenceParams_valid, by decide, by decide, by decide, rfl, rfl, rfl, rfl⟩

theorem witness_ValuesOutOfRangeAreRefused :
    ¬ OperandsInRange State.reset.cfg (.mix 0 0 32768) ∧ ¬ OperandsInRange State.reset.cfg (.filter 32768 0) ∧
    ¬ OperandsInRange State.reset.cfg (.produce [⟨0, -32769⟩]) ∧
    State.reset.fifo.consuming = none ∧
    ¬ (State.reset.setCfgIn { referenceParams with capacity := 1 }).cfgIn.Valid := by
  refine ⟨?_, ?_, ?_, rfl, by decide +kernel⟩ <;> (unfold OperandsInRange; decide)

theorem witness_FilterRunsDcBlockerThenBiquad : IsSample (-32768) ∧ IsSample 32767 := by decide

theorem witness_FilterLanesAreIndependent : IsSample (-32768) ∧ IsSample 32767 ∧
    State.reset.cfg = (State.reset.setFlt ⟨⟨0, 0, 0, 0⟩, ⟨1, 2, 3, 4⟩⟩).cfg ∧
    State.reset.live.lpfPct = (State.reset.setFlt ⟨⟨0, 0, 0, 0⟩, ⟨1, 2, 3, 4⟩⟩).live.lpfPct ∧
    State.reset.flt.l = (State.reset.setFlt ⟨⟨0, 0, 0, 0⟩, ⟨1, 2, 3, 4⟩⟩).flt.l ∧
    State.reset.flt.r = (State.reset.setFlt ⟨⟨1, 2, 3, 4⟩, ⟨0, 0, 0, 0⟩⟩).flt.r := by decide +kernel

/-- The clauses meet at 0 and at 100 percent, and agree there. -/
theorem witness_CoefficientsInterpolateFromBypassToFull :
    coef lpfFullDefault 0 = ⟨16384, 0, 0, 0, 0⟩ ∧ coef lpfFullDefault (-5) = coef lpfFullDefault 0 ∧
    coef lpfFullDefault 100 = lpfFullDefault ∧ coef lpfFullDefault 250 = lpfFullDefault := by decide +kernel

theorem witness_BypassIsExactFromTheThirdStep : State.reset.live.lpfPct ≤ 0 ∧ (Frame.mk (-32768) 32767).InRange := by decide

theorem witness_SilenceInSilenceOut : State.reset.flt = ⟨⟨0, 0, 0, 0⟩, ⟨0, 0, 0, 0⟩⟩ := by decide

theorem witness_DcBlockerStaysBounded : State.reset.cfg.alphaQ15 = 32604 ∧ DcBounded ⟨-32768, 200, 0, 0⟩ ∧ DcBounded Lane.atReset ∧
    ∃ t, exec (.filter 32767 (-32768)) (State.reset.setFlt ⟨⟨-32768, 200, 0, 0⟩, Lane.atReset⟩) = .next t :=
  ⟨by decide, ⟨by decide, by decide, by decide⟩, ⟨by decide, by decide, by decide⟩, exists_next (by decide +kernel)⟩

theorem witness_DcBlockerDecaysToZero : (Lane.mk 10922 65408 0 0).x1 = 10922 := rfl

theorem witness_ProduceStoresWhatFits : (∀ f ∈ gFrames, f.InRange) ∧ (withCursors 4 7).fifo.producing = none := by decide

/-- An index below the number delivered whose slot was written, and one above it. -/
theorem witness_ConsumeDeliversThenFillsWithSilence : (withCursors 0 7).fifo.consuming = none ∧
    6 < min 10 (ringDist 8 0 7) ∧ slotLookup ((0 + 6) % 8) (withCursors 0 7).fifo.slots = some ⟨7, -7⟩ ∧
    min 10 (ringDist 8 0 7) ≤ 9 ∧ 9 < 10 := by decide +kernel

theorem witness_CountReturnsTheObservedDistance : (withCursors 0 7).fifo.producing = none := rfl

theorem witness_EveryAdmittedObservationHappens :
    let q := { (withCursors 4 7).fifo with rObs := 0, unseenR := [4], wObs := 0, unseenW := [5, 7] }
    (q.rObs :: q.unseenR)[1]? = some 4 ∧ (q.rObs :: q.unseenR)[0]? = some 0 ∧ (q.wObs :: q.unseenW)[2]? = some 7 := by decide

theorem witness_EveryStepKeepsTheFifoInvariant : p4.cfg.Valid ∧ FifoInv p4.cfg.capacity p4.fifo ∧ ∃ t, step p4 = .next t :=
  ⟨referenceParams_valid, p4_fifoInv, exists_next (by decide +kernel)⟩

theorem witness_NoDataRaceOnSlots : 2 ≤ 8 ∧ FifoInv 8 p4.fifo ∧
    p4.fifo.producing =
      some ⟨[⟨100, -100⟩, ⟨101, -101⟩, ⟨102, -102⟩], [(7, ⟨100, -100⟩), (0, ⟨101, -101⟩), (1, ⟨102, -102⟩)]⟩ ∧
    p4.fifo.consuming = some ⟨5, [none, none, none], [0, 1, 2]⟩ ∧ (0, (⟨101, -101⟩ : Frame)) ∈
      [(7, (⟨100, -100⟩ : Frame)), (0, ⟨101, -101⟩), (1, ⟨102, -102⟩)] ∧ 2 ∈ [0, 1, 2] :=
  ⟨by decide, p4_fifoInv, rfl, rfl, by decide, by decide⟩

/-- With something unseen, and with everything observed in the smallest ring. -/
theorem witness_StaleObservationsAreConservative :
    CursorInv 8 { (withCursors 4 7).fifo with rObs := 0, unseenR := [4] } ∧ 2 ≤ 2 ∧
    CursorInv 2 (State.reset.fifo.storeWcur 1) ∧ (State.reset.fifo.storeWcur 1).unseenR = [] ∧
    CursorInv 8 (withCursors 4 7).fifo ∧ (withCursors 4 7).fifo.unseenW = [] := by
  refine ⟨⟨?_, ?_, ?_, ?_⟩, ?_, ⟨?_, ?_, ?_, ?_⟩, ?_, ⟨?_, ?_, ?_, ?_⟩, ?_⟩ <;> decide +kernel

theorem witness_EveryFrameDeliveredOnceInOrder : p4.cfg.Valid ∧ FifoInv p4.cfg.capacity p4.fifo ∧ NoHardReset p4 ∧
    (stepsTo 1 p4).isSome = true :=
  ⟨referenceParams_valid, p4_fifoInv, by unfold NoHardReset; decide +kernel, by decide +kernel⟩

theorem witness_SequentiallyABoundedQueue : (withCursors 0 7).cfg.Valid ∧ FifoInv (withCursors 0 7).cfg.capacity (withCursors 0 7).fifo ∧
    (withCursors 0 7).fifo.producing = none ∧ (withCursors 0 7).fifo.consuming = none ∧ (withCursors 0 7).fifo.unseenR = [] ∧
    (withCursors 0 7).fifo.unseenW = [] ∧ (∀ f ∈ gFrames, f.InRange) :=
  ⟨referenceParams_valid, quiet_fifoInv, rfl, rfl, rfl, rfl, by decide⟩

/-- Four frames are accepted; `j = 4` is the last count before the store. -/
theorem witness_ProduceAtomsMakeTheWholeOperation : 2 ≤ (withCursors 4 7).cfg.capacity ∧ (withCursors 4 7).fifo.producing = none ∧
    min gFrames.length (8 - 1 - ringDist 8 (runProduce gFrames (withCursors 4 7)).fifo.rObs 7) = 4 ∧ 4 ≤ 4 := by decide +kernel

theorem witness_ConsumeAtomsMakeTheWholeOperation : 2 ≤ (withCursors 0 7).cfg.capacity ∧
    FifoInv (withCursors 0 7).cfg.capacity (withCursors 0 7).fifo ∧ (withCursors 0 7).fifo.consuming = none ∧
    min 10 (ringDist 8 0 (runConsume 10 (withCursors 0 7)).fifo.wObs) = 7 ∧ 7 ≤ 7 :=
  ⟨by decide, quiet_fifoInv, rfl, by decide +kernel, by decide⟩

theorem witness_SlotWritesAreInvisibleBeforeTheStore : 2 ≤ p4.cfg.capacity ∧ FifoInv p4.cfg.capacity p4.fifo ∧
    p4.fifo.producing =
      some ⟨[⟨100, -100⟩, ⟨101, -101⟩, ⟨102, -102⟩], [(7, ⟨100, -100⟩), (0, ⟨101, -101⟩), (1, ⟨102, -102⟩)]⟩ ∧
    [(7, (⟨100, -100⟩ : Frame)), (0, ⟨101, -101⟩), (1, ⟨102, -102⟩)] ≠ [] :=
  ⟨by decide, p4_fifoInv, rfl, by decide⟩

theorem witness_UsesInsideAnOperationAreRefused : p4.fifo.producing ≠ none ∧ (∀ f ∈ gFrames, f.InRange) ∧ p4.fifo.consuming ≠ none := by
  decide

theorem witness_HardResetLeavesTheTableOfReset : (withCursors 0 7).fifo.consuming = none ∧ (withCursors 0 7).cfgIn.Valid :=
  ⟨rfl, referenceParams_valid⟩

theorem witness_EveryStepKeepsTheMachineInvariant : Inv p4 ∧ ∃ t, step p4 = .next t := ⟨p4_inv, exists_next (by decide +kernel)⟩

theorem witness_EveryOperationIsTotal :
    OperandsInRange (withCursors 0 7).cfg (.mix (-32768) 32767 32767) ∧ OperandsInRange (withCursors 0 7).cfg (.consume 70000) ∧
    OperandsInRange (withCursors 0 7).cfg (.produce gFrames) ∧ (withCursors 0 7).cfgIn.Valid ∧
    (withCursors 0 7).fifo.consuming = none ∧ (withCursors 0 7).fifo.producing = none := by
  refine ⟨?_, ?_, ?_, referenceParams_valid, rfl, rfl⟩ <;> (unfold OperandsInRange; decide)

/-- Each of the changes the statement speaks of does happen: by the PSG's writes, by channel time, by the filter and the FIFO. -/
theorem witness_OnlyTheNamedOperationsWriteEachState :
    after (.toneLatch2 5#4) State.reset (fun t => t.psg.tone.t2) = some 5#10 ∧
    after (.data 1#6) State.reset (fun t => (t.psg.tone.t0, t.psg.period.t0)) = some (16#10, 65536) ∧
    after (.toneLatch1 8#4) (withPsg fun g => { g with nctrl := 3#3, period := ⟨0, 0, 0, 0⟩ }) (fun t => t.psg.period.n) = some 65536 ∧
    after (.noiseCtrl 1#1 1#2) (withPsg fun g => { g with lfsr := 5#16, out := ⟨false, false, false, true⟩ })
      (fun t => (t.psg.nctrl, t.psg.tapmask, t.psg.period.n, t.psg.out.n, t.psg.lfsr)) =
      some (5#3, 0x0009#16, 262144, false, 0x8000#16) ∧
    after (.volWrite3 0#4) State.reset (fun t => (t.psg.volidx.n, t.psg.latch)) = some (0#4, 7#3) ∧
    after .sample State.reset (fun t => (t.psg.cnt, t.psg.out.t0, t.psg.lfsr)) = some (⟨0, 0, 0, 65536⟩, true, 0x4000#16) ∧
    after (.filter 1 1) State.reset (fun t => t.flt) ≠ some State.reset.flt ∧
    after (.produce gFrames) State.reset (fun t => (t.fifo.wcur, t.fifo.slots.length)) = some (4, 4) ∧
    after (.consume 7) (withCursors 0 7) (fun t => t.fifo.rcur) = some 7 ∧
    after .count (((withCursors 4 7).setFifo { (withCursors 4 7).fifo with rObs := 0, unseenR := [4] }).setEnv
      ⟨[], [], [], [1], 0⟩) (fun t => t.fifo.rObs) = some 4 := by decide +kernel

/-- Under `low4` a data byte writes the latched volume and noise-control registers. -/
theorem witness_OnlyTheNamedOperationsWriteEachState_low4 :
    after (.data 2#6) ((withPsg fun g => { g with latch := 7#3 }).setCfg { referenceParams with dataNontone := .low4 })
      (fun t => t.psg.volidx.n) = some 2#4 ∧
    after (.data 5#6) ((withPsg fun g => { g with latch := 6#3 }).setCfg { referenceParams with dataNontone := .low4 })
      (fun t => t.psg.nctrl) = some 5#3 := by decide +kernel

theorem witness_AgentsKeepOutOfEachOthersState :
    (∃ t, audTurn false p4 = .next t) ∧ (∃ t, emuTurn false p4 = .next t) ∧ p4.fifo.producing ≠ none ∧
    (∃ t, emuTurn true (p4.setFifo { p4.fifo with producing := none }) = .next t) ∧
    p4.env.emuQ.head? ≠ some (.use (.rst 1#1)) :=
  ⟨exists_next (by decide +kernel), exists_next (by decide +kernel), by decide, exists_next (by decide +kernel), by decide⟩

theorem witness_WrongAgentIsRefused :
    (State.reset.setEnv ⟨[.use (.fifoPop 1#16)], [.psgSmp], [], [], 0⟩).fifo.producing = none ∧
    (State.reset.setEnv ⟨[.use (.fifoPop 1#16)], [.psgSmp], [], [], 0⟩).env.emuQ = [.use (.fifoPop 1#16)] ∧
    (PortUse.fifoPop 1#16).agent = .aud ∧
    (State.reset.setEnv ⟨[.use (.fifoPop 1#16)], [.psgSmp], [], [], 0⟩).fifo.consuming = none ∧
    (State.reset.setEnv ⟨[.use (.fifoPop 1#16)], [.psgSmp], [], [], 0⟩).env.audQ = [.psgSmp] ∧
    PortUse.psgSmp.agent = .emu := by decide

theorem witness_StepRunsTheDecodedOperation :
    (PortUse.psgWr 0x85#8).agent = .emu ∧ State.reset.fifo.producing = none ∧ (∀ burst, decode (.psgWr 0x85#8) ≠ .produce burst) ∧
    decode (.fifoPush [0x00010002#32]) = .produce [⟨1, 2⟩] ∧ (∀ f ∈ [(⟨1, 2⟩ : Frame)], f.InRange) ∧
    (PortUse.fifoPop 3#16).agent = .aud ∧ State.reset.fifo.consuming = none ∧ decode (.fifoPop 3#16) = .consume 3 ∧
    (State.reset.setEnv ⟨[.use (.psgWr 0x85#8)], [.fifoPop 3#16], [.whole .emu], [], 0⟩).env.turns = .whole .emu :: [] := by
  refine ⟨rfl, rfl, ?_, ?_, ?_, rfl, rfl, ?_, rfl⟩
  · intro burst h; exact absurd h (by simp [decode, decodeByte])
  all_goals decide

theorem witness_PlacedWordRunsNext : decodeTableWord 48 0x0064FF9C00C8 = some (.mix 100 (-100) 200) ∧
    decodeTableWord 0 0 = some .sample := by decide

theorem witness_InputChangesWriteNoState :
    (State.reset.setEnv ⟨[.setLpfPct 50], [], [], [], 0⟩).fifo.producing = none ∧
    (State.reset.setEnv ⟨[.setLpfPct 50], [], [], [], 0⟩).env.emuQ = [.setLpfPct 50] ∧
    (State.reset.setEnv ⟨[.setFmEn true], [], [], [], 0⟩).env.emuQ = [.setFmEn true] ∧
    (State.reset.setEnv ⟨[.setPsgEn true], [], [], [], 0⟩).env.emuQ = [.setPsgEn true] ∧
    (State.reset.setEnv ⟨[.setParams referenceParams], [], [], [], 0⟩).env.emuQ = [.setParams referenceParams] :=
  ⟨rfl, rfl, rfl, rfl, rfl⟩

end Sys2Proof.Tests
end

section
/-! When the six operations that can be refused are not: the next state of each under the condition the spec states
(60_exceptions.md R242; 44_system_ops.md R232; 70_reset_and_hazards.md R271). The other twelve have no refusing case. -/
namespace Sys2Proof.Machine

theorem exec_mix_of_inRange {s : State} {fmL fmR : Int} {psg : Nat} (h : OperandsInRange s.cfg (.mix fmL fmR psg)) :
    exec (.mix fmL fmR psg) s =
      .next (s.setBus { s.bus with mixOut := ⟨mixLane s.live fmL psg, mixLane s.live fmR psg⟩ }) := by
  have inRange : mixInRange s.cfg fmL fmR psg = true := decide_eq_true h
  exact if_pos inRange

theorem exec_filter_of_inRange {s : State} {xL xR : Int} (h : OperandsInRange s.cfg (.filter xL xR)) :
    exec (.filter xL xR) s =
      .next ((s.setFlt ⟨(filterLane s.cfg (coef s.cfg.lpfFull s.live.lpfPct) s.flt.l xL).2,
                        (filterLane s.cfg (coef s.cfg.lpfFull s.live.lpfPct) s.flt.r xR).2⟩).setBus
        { s.bus with fltOut := ⟨(filterLane s.cfg (coef s.cfg.lpfFull s.live.lpfPct) s.flt.l xL).1,
                                (filterLane s.cfg (coef s.cfg.lpfFull s.live.lpfPct) s.flt.r xR).1⟩ }) := by
  have inRange : filterInRange xL xR = true := decide_eq_true h
  exact if_pos inRange

theorem exec_produce_of_inRange {s : State} {burst : List Frame} (h : OperandsInRange s.cfg (.produce burst))
    (idle : s.fifo.producing = none) : exec (.produce burst) s = .next (runProduce burst s) := by
  have inRange : burstInRange burst = true := decide_eq_true h
  change execProduce burst s = _
  rw [execProduce, if_pos inRange, idle]

theorem exec_consume_of_idle {s : State} (n : Nat) (idle : s.fifo.consuming = none) :
    exec (.consume n) s = .next (runConsume n s) := by
  change execConsume n s = _
  rw [execConsume, idle]

theorem exec_count_of_idle {s : State} (idle : s.fifo.producing = none) : exec .count s = .next (runCount s) := by
  change execCount s = _
  rw [execCount, idle]

theorem exec_resetHard_of_valid {s : State} (valid : s.cfgIn.Valid) (idle : s.fifo.consuming = none) :
    exec .resetHard s = .next (hardReset s) := by
  change execResetHard s = _
  rw [execResetHard, idle]
  exact if_pos valid

/-- Settles O54: the operations the spec can refuse have a next state by the lemmas above, every other one by its definition. -/
theorem everyOperationIsTotal : Obligations.EveryOperationIsTotal := by
  unfold Obligations.EveryOperationIsTotal
  intro i s inRange resetAllowed audIdle emuIdle
  cases i with
  | mix fmL fmR psg => exact ⟨_, exec_mix_of_inRange inRange⟩
  | filter xL xR => exact ⟨_, exec_filter_of_inRange inRange⟩
  | produce burst => exact ⟨_, exec_produce_of_inRange inRange (emuIdle (.inr ⟨burst, rfl⟩))⟩
  | consume n => exact ⟨_, exec_consume_of_idle n (audIdle rfl)⟩
  | count => exact ⟨_, exec_count_of_idle (emuIdle (.inl rfl))⟩
  | resetHard =>
    obtain ⟨valid, idle⟩ := resetAllowed rfl
    exact ⟨_, exec_resetHard_of_valid valid idle⟩
  | _ => exact ⟨_, rfl⟩

end Sys2Proof.Machine
end

section
/-! The two bytes that write a tone period: what each leaves in `TONE` and `LATCH`, and the operation it runs
(40_psg_writes.md R121, R126). -/
namespace Sys2Proof.Machine

theorem onlyPsg_setPsg (s : State) (g : Psg) : OnlyPsg s (s.setPsg g) := ⟨rfl, rfl, rfl, rfl, rfl, rfl, rfl⟩

@[simp] theorem rederive_tone (p : Params) (g : Psg) (c : ToneCh) : (rederive p g c).tone = g.tone := by rw [rederive_eq]

@[simp] theorem rederive_latch (p : Params) (g : Psg) (c : ToneCh) : (rederive p g c).latch = g.latch := by rw [rederive_eq]

@[simp] theorem latchTone_tone (p : Params) (c : ToneCh) (d : BitVec 4) (g : Psg) :
    (latchTone p c d g).tone = g.tone.set c (withLow4 (g.tone.get c) d) := rederive_tone ..

@[simp] theorem latchTone_latch (p : Params) (c : ToneCh) (d : BitVec 4) (g : Psg) :
    (latchTone p c d g).latch = toneRegister c := rederive_latch ..

@[simp] theorem dataTone_tone (p : Params) (c : ToneCh) (u : BitVec 6) (g : Psg) :
    (dataTone p c u g).tone = g.tone.set c (withHigh6 (g.tone.get c) u) := rederive_tone ..

/-- A latch byte keeps the upper 6 bits of the period (R121). -/
theorem latchTone_own_toNat (p : Params) (c : ToneCh) (d : BitVec 4) (g : Psg) :
    ((latchTone p c d g).tone.get c).toNat = (g.tone.get c).toNat / 16 * 16 + d.toNat := by
  rw [latchTone_tone, PerTone.get_set_same, withLow4_toNat]

/-- A data byte keeps the low 4 bits of the period (R126). -/
theorem dataTone_own_toNat (p : Params) (c : ToneCh) (u : BitVec 6) (g : Psg) :
    ((dataTone p c u g).tone.get c).toNat = u.toNat * 16 + (g.tone.get c).toNat % 16 := by
  rw [dataTone_tone, PerTone.get_set_same, withHigh6_toNat]

theorem toneRegister_toNat (c : ToneCh) : (toneRegister c).toNat = 2 * c.index := by cases c <;> rfl

theorem exec_toneLatchOf (c : ToneCh) (d : BitVec 4) (s : State) :
    exec (toneLatchOf c d) s = .next (s.setPsg (latchTone s.cfg c d s.psg)) := by cases c <;> rfl

/-- A data byte with a tone register latched writes that channel's period (R126). -/
theorem exec_data_of_latched {s : State} {c : ToneCh} (u : BitVec 6) (latched : s.psg.latch.toNat = 2 * c.index) :
    exec (.data u) s = .next (s.setPsg (dataTone s.cfg c u s.psg)) := by
  change execData u s = _
  rw [execData, dataByte, (latchedTone_eq_some _ c).mpr latched]

/-- After the latch byte the data byte goes to the same channel, so the two together set its period (30_encoding.md R96). -/
theorem exec_data_after_toneLatch (c : ToneCh) (d : BitVec 4) (u : BitVec 6) (s : State) :
    exec (.data u) (s.setPsg (latchTone s.cfg c d s.psg)) =
      .next (s.setPsg (dataTone s.cfg c u (latchTone s.cfg c d s.psg))) :=
  exec_data_of_latched u (by rw [State.setPsg_psg, latchTone_latch, toneRegister_toNat])

/-- Settles O11: the latch byte writes the low 4 bits (`latchTone_own_toNat`) and names the channel, so the data byte writes
the upper 6 of the same period (`dataTone_own_toNat`). -/
theorem latchThenDataSetsTheWholePeriod : Obligations.LatchThenDataSetsTheWholePeriod := by
  unfold Obligations.LatchThenDataSetsTheWholePeriod
  intro s c d u
  have latched := latchTone_own_toNat s.cfg c d s.psg
  have whole := dataTone_own_toNat s.cfg c u (latchTone s.cfg c d s.psg)
  refine ⟨_, _, exec_toneLatchOf c d s, exec_data_after_toneLatch c d u s, ?_, ?_, ?_, ?_, onlyPsg_setPsg s _⟩
  · rw [State.setPsg_psg]; omega
  · rw [State.setPsg_psg]; omega
  · rw [State.setPsg_psg]; omega
  · intro e other
    simp [PerTone.get_set_other _ _ other]

end Sys2Proof.Machine
end

section
/-! The byte that writes an attenuation index: what it leaves in `VOLIDX` and `LATCH`, and its frame (40_psg_writes.md R123). -/
namespace Sys2Proof.Machine

theorem volRegister_toNat (c : Chan) : (volRegister c).toNat = 2 * c.index + 1 := by cases c <;> rfl

@[simp] theorem latchVolume_latch (c : Chan) (d : BitVec 4) (g : Psg) : (latchVolume c d g).latch = volRegister c := rfl

theorem exec_volWriteOf (c : Chan) (d : BitVec 4) (s : State) :
    exec (volWriteOf c d) s = .next (s.setPsg (latchVolume c d s.psg)) := by cases c <;> rfl

/-- Whatever `LATCH` becomes with it: a latch byte sets it (R123), a data byte under `low4` keeps it (R127). -/
theorem setVolume_volumeBecomes (c : Chan) (d : BitVec 4) (l : BitVec 3) (s : State) :
    VolumeBecomes s (s.setPsg (setVolume c d { s.psg with latch := l })) c d :=
  ⟨PerChan.get_set_same .., fun _ other => PerChan.get_set_other _ _ other, rfl, rfl, rfl, rfl, rfl, rfl, rfl⟩

/-- R123 for every channel at once. -/
theorem volWriteOf_spec (c : Chan) (d : BitVec 4) (s : State) :
    ∃ t, exec (volWriteOf c d) s = .next t ∧ t.psg.latch.toNat = 2 * c.index + 1 ∧ OnlyPsg s t ∧ VolumeBecomes s t c d := by
  refine ⟨_, exec_volWriteOf c d s, ?latched, onlyPsg_setPsg s _, setVolume_volumeBecomes c d (volRegister c) s⟩
  case latched => rw [State.setPsg_psg, latchVolume_latch, volRegister_toNat]

/-- Settles O7: the four volume writes are `volWriteOf_spec` at each channel. -/
theorem volWriteSetsTheIndex : Obligations.VolWriteSetsTheIndex := by
  unfold Obligations.VolWriteSetsTheIndex
  intro s d
  exact ⟨volWriteOf_spec .t0 d s, volWriteOf_spec .t1 d s, volWriteOf_spec .t2 d s, volWriteOf_spec .n d s⟩

end Sys2Proof.Machine
end

section
/-! MIX and FILTER lane by lane: a lane of MIX in the numbers of R170, and what a lane of FILTER is a function of
(42_mix_filter.md R170, R171, R175). -/
namespace Sys2Proof.Machine

/-- R170, R171: the weights, the enables and the bounds of the saturation, in numbers. -/
theorem mixLane_eq (live : Live) (fm : Int) (psg : Nat) :
    mixLane live fm psg = max (-32768) (min 32767
      ((if live.fmEn then (fm * 7).tdiv 8 else 0) + (if live.psgEn then ((psg : Int) * 3).tdiv 8 else 0))) := rfl

/-- Settles O27: operands in range are not refused (`exec_mix_of_inRange`), and each lane is the saturated sum (`mixLane_eq`). -/
theorem mixAddsWeightedTermsAndSaturates : Obligations.MixAddsWeightedTermsAndSaturates := by
  unfold Obligations.MixAddsWeightedTermsAndSaturates
  intro s fmL fmR psg fmLInRange fmRInRange psgInRange lane
  rw [exec_mix_of_inRange ⟨fmLInRange, fmRInRange, psgInRange⟩, mixLane_eq, mixLane_eq, State.setBus]

/-- A lane's next state and result are a function of the parameters, the percentage, the lane and its operand (R175). -/
theorem filterLane_congr {s u : State} {a b : Lane} {x z : Int} (sameCfg : s.cfg = u.cfg)
    (samePct : s.live.lpfPct = u.live.lpfPct) (sameLane : a = b) (sameOperand : x = z) :
    (filterLane s.cfg (coef s.cfg.lpfFull s.live.lpfPct) a x).2 = (filterLane u.cfg (coef u.cfg.lpfFull u.live.lpfPct) b z).2 ∧
    (filterLane s.cfg (coef s.cfg.lpfFull s.live.lpfPct) a x).1 = (filterLane u.cfg (coef u.cfg.lpfFull u.live.lpfPct) b z).1 := by
  rw [sameCfg, samePct, sameLane, sameOperand]
  exact ⟨rfl, rfl⟩

/-- Settles O31: FILTER runs `filterLane` on each side's own operand and lane, so `filterLane_congr` serves both sides. -/
theorem filterLanesAreIndependent : Obligations.FilterLanesAreIndependent := by
  unfold Obligations.FilterLanesAreIndependent
  intro s u xL xR zL zR xLInRange xRInRange zLInRange zRInRange sameCfg samePct
  refine ⟨_, _, exec_filter_of_inRange ⟨xLInRange, xRInRange⟩, exec_filter_of_inRange ⟨zLInRange, zRInRange⟩, ?left, ?right⟩
  case left => exact filterLane_congr sameCfg samePct
  case right => exact filterLane_congr sameCfg samePct

end Sys2Proof.Machine
end

section
/-! The soft reset (44_system_ops.md R231, R264): `exec` hands it to its own meaning, and that meaning is the state itself. -/
namespace Sys2Proof.Machine

theorem exec_resetSoft (s : State) : exec .resetSoft s = execResetSoft s := rfl

/-- Settles O51: RESET_SOFT runs `execResetSoft` (`exec_resetSoft`), which answers the state it was given. -/
theorem softResetChangesNothing : Obligations.SoftResetChangesNothing := by
  unfold Obligations.SoftResetChangesNothing
  intro s
  rw [exec_resetSoft, execResetSoft]

end Sys2Proof.Machine
end

section
/-! The two operations in flight, atom by atom: each atom keeps the FIFO's invariant (43_fifo_ops.md R200, R206). -/
namespace Sys2Proof.Machine

theorem advance_advance (cap c j k : Nat) : advance cap (advance cap c j) k = advance cap c (j + k) := by
  simp [advance, Nat.add_assoc]

/-! Slots that hold valid frames and slots a PRODUCE may still fill. -/

/-- The slots behind `WCUR` follow the valid ones round the ring. -/
theorem CursorInv.advance_wcur {cap : Nat} {q : Fifo} (h : CursorInv cap q) (i : Nat) :
    advance cap q.wcur i = advance cap q.rcur (q.fill cap + i) := by
  obtain ⟨-, hr, -, hw⟩ := h.lt
  rw [← advance_advance, Fifo.fill, advance_ringDist hr hw]

/-- The valid frames and the free slots EMU sees stay within one lap. -/
theorem CursorInv.fill_add_free {cap : Nat} {q : Fifo} (h : CursorInv cap q) : q.fill cap + freeSlots cap q ≤ cap - 1 := by
  obtain ⟨ho, hf, hlap⟩ := h.order
  unfold Fifo.fill freeSlots; omega

/-- The free slots follow the valid ones within one lap, so none of them is both. -/
theorem CursorInv.valid_ne_free {cap k i : Nat} {q : Fifo} (h : CursorInv cap q) (valid : k < q.fill cap)
    (free : i < freeSlots cap q) : advance cap q.rcur k ≠ advance cap q.wcur i := by
  have := h.fill_add_free
  rw [h.advance_wcur]
  intro same
  have := advance_inj (by omega) (by omega) same
  omega

/-- Publishing `a` frames makes `a` more of them valid. -/
theorem CursorInv.fill_storeWcur {cap a : Nat} {q : Fifo} (h : CursorInv cap q) (room : a ≤ freeSlots cap q) :
    ringDist cap q.rcur (advance cap q.wcur a) = q.fill cap + a := by
  obtain ⟨-, hr, -, -⟩ := h.lt
  have := h.fill_add_free
  rw [h.advance_wcur, ringDist_advance hr (by omega)]

/-- The frames AUD sees are valid ones. -/
theorem CursorInv.avail_le_fill {cap : Nat} {q : Fifo} (h : CursorInv cap q) : availFrames cap q ≤ q.fill cap := by
  obtain ⟨-, hf, -⟩ := h.order
  unfold availFrames Fifo.fill; omega

/-- The frames a CONSUME in flight will deliver are valid ones. -/
theorem FifoInv.got_le_fill {cap : Nat} {q : Fifo} {c : ConsumeCtl} (h : FifoInv cap q) (hc : q.consuming = some c) :
    c.got.length ≤ q.fill cap :=
  (h.consuming c hc).fits.trans h.cursors.avail_le_fill

/-- A pending slot write of a PRODUCE is one of its own frames on a free slot. -/
theorem ProducingInv.pending_own {cap : Nat} {q : Fifo} {c : ProduceCtl} {w : Nat × Frame} (h : ProducingInv cap q c)
    (hw : w ∈ c.pending) : ∃ i f, c.accepted[i]? = some f ∧ w = (advance cap q.wcur i, f) ∧
      i < freeSlots cap q := by
  obtain ⟨i, f, hf, rfl⟩ := h.own w hw
  obtain ⟨hi, -⟩ := List.getElem?_eq_some_iff.mp hf
  exact ⟨i, f, hf, rfl, hi.trans_le h.fits⟩

/-- A pending slot write of a PRODUCE goes to no valid frame's slot (R204). -/
theorem FifoInv.pending_ne_valid {cap k : Nat} {q : Fifo} {c : ProduceCtl} {w : Nat × Frame} (h : FifoInv cap q)
    (hc : q.producing = some c) (hw : w ∈ c.pending) (valid : k < q.fill cap) : advance cap q.rcur k ≠ w.1 := by
  obtain ⟨i, f, -, rfl, free⟩ := (h.producing c hc).pending_own hw
  exact h.cursors.valid_ne_free valid free

/-- A slot write of a PRODUCE in flight leaves every valid frame (R204). -/
theorem FifoInv.lookup_slotWrite {cap k : Nat} {q : Fifo} {c : ProduceCtl} {w : Nat × Frame} (h : FifoInv cap q)
    (hc : q.producing = some c) (hw : w ∈ c.pending) (valid : k < q.fill cap) :
    slotLookup (advance cap q.rcur k) (q.slotWrite w.1 w.2).slots = slotLookup (advance cap q.rcur k) q.slots :=
  slotLookup_insert_other _ _ (h.pending_ne_valid hc hw valid)

/-! PRODUCE. -/

/-- The writes still to come stay the PRODUCE's own after one of them is made (P2.i). -/
theorem ProducingInv.slotWrite {cap j : Nat} {q : Fifo} {c : ProduceCtl} {w : Nat × Frame} (h : ProducingInv cap q c)
    (hw : c.pending[j]? = some w) :
    ProducingInv cap { q.slotWrite w.1 w.2 with producing := some { c with pending := c.pending.eraseIdx j } }
      { c with pending := c.pending.eraseIdx j } where
  fits := h.fits
  own := fun v hv => h.own v (List.mem_of_mem_eraseIdx hv)
  once := h.once.sublist ((List.eraseIdx_sublist ..).map _)
  landed := by
    intro i f hf
    obtain ⟨i', f', hf', rfl, free'⟩ := h.pending_own (List.mem_of_getElem? hw)
    have free : i < freeSlots cap q :=
      (List.getElem?_eq_some_iff.mp hf).1.trans_le h.fits
    have lt_cap {n} (hn : n < freeSlots cap q) : n < cap := by unfold freeSlots at hn; omega
    by_cases same : i = i'
    · subst same
      obtain rfl : f = f' := Option.some.inj (hf.symm.trans hf')
      exact .inr (slotLookup_insert_same ..)
    · have other : advance cap q.wcur i ≠ advance cap q.wcur i' := fun e =>
        same (advance_inj (lt_cap free) (lt_cap free') e)
      rcases h.landed i f hf with pending | landed
      · refine .inl ((List.mem_eraseIdx_iff_getElem?).mpr ?_)
        obtain ⟨k, hk⟩ := List.mem_iff_getElem?.mp pending
        exact ⟨k, by rintro rfl; simp_all, hk⟩
      · exact .inr ((slotLookup_insert_other _ _ other).trans landed)

/-- Atom P2.i keeps the invariant. -/
theorem FifoInv.slotWrite {cap j : Nat} {q : Fifo} {c : ProduceCtl} {w : Nat × Frame} (h : FifoInv cap q)
    (hc : q.producing = some c) (hw : c.pending[j]? = some w) :
    FifoInv cap { q.slotWrite w.1 w.2 with producing := some { c with pending := c.pending.eraseIdx j } } := by
  have mem := List.mem_of_getElem? hw
  have keeps {k} (valid : k < q.fill cap) := h.lookup_slotWrite hc mem valid
  constructor
  case cursors => exact ⟨h.cursors.latestR, h.cursors.latestW, h.cursors.indices, h.cursors.oneLap⟩
  case slots =>
    refine ⟨q.slotWrite_wf _ _ h.slots.canonical, fun x hx => ?_, fun k valid => ?_⟩
    · rcases slotInsert_mem hx with rfl | old
      · obtain ⟨i, f, -, e, -⟩ := (h.producing c hc).pending_own mem
        rw [e]
        exact advance_lt _ _ (by have := h.cursors.lt; omega)
      · exact h.slots.indices x old
    · exact (keeps valid).trans_ne (h.slots.written k valid)
  case producing =>
    rintro c' ⟨⟩
    exact (h.producing c hc).slotWrite hw
  case consuming =>
    intro d hd
    have inv := h.consuming d hd
    refine ⟨inv.fits, inv.wanted, inv.own, inv.once, fun i hi done => ?_⟩
    rw [inv.read i hi done]
    exact congrArg some (keeps (hi.trans_le (h.got_le_fill hd))).symm

/-- Atom P3 keeps the invariant: every accepted frame is in its slot by then. -/
theorem FifoInv.produceStore {cap : Nat} {q : Fifo} {c : ProduceCtl} (h : FifoInv cap q) (hc : q.producing = some c)
    (done : c.pending = []) : FifoInv cap (produceStore cap c q) := by
  have inv := h.producing c hc
  have cursors := h.cursors.storeW inv.fits
  constructor
  case cursors => exact ⟨cursors.latestR, cursors.latestW, cursors.indices, cursors.oneLap⟩
  case slots =>
    refine ⟨h.slots.canonical, h.slots.indices, fun k (hk : k < ringDist cap q.rcur (advance cap q.wcur _)) => ?_⟩
    rw [h.cursors.fill_storeWcur inv.fits] at hk
    change slotLookup (advance cap q.rcur k) q.slots ≠ none
    by_cases old : k < q.fill cap
    · exact h.slots.written k old
    · have new : k - q.fill cap < c.accepted.length := by omega
      have landed := inv.landed _ _ (List.getElem?_eq_getElem new)
      rw [done, h.cursors.advance_wcur, Nat.add_sub_cancel' (by omega)] at landed
      rcases landed with pending | landed
      · cases pending
      · rw [landed]; exact nofun
  case producing => exact nofun
  case consuming =>
    intro d hd
    have inv := h.consuming d hd
    exact ⟨inv.fits, inv.wanted, inv.own, inv.once, inv.read⟩

/-- EMU's next atom keeps the invariant, with a PRODUCE in flight or not. -/
theorem FifoInv.produceAtom {s : State} (h : FifoInv s.cfg.capacity s.fifo) :
    FifoInv s.cfg.capacity (produceAtom s).fifo := by
  cases hc : s.fifo.producing with
  | none => simpa only [Machine.produceAtom, hc] using h
  | some c =>
    obtain ⟨done, e⟩ | ⟨j, w, e', hw, -, e⟩ := produceAtom_cases hc
    · rw [e]; exact h.produceStore hc done
    · rw [e]; exact h.slotWrite hc hw

/-- EMU's acquire load keeps the invariant. -/
theorem FifoInv.loadRcur {s : State} (h : FifoInv s.cfg.capacity s.fifo) (idle : s.fifo.producing = none) :
    FifoInv s.cfg.capacity s.loadRcur.fifo := by
  obtain ⟨k, e, hk, -, eq⟩ := s.loadRcur_cases
  rw [eq]
  refine ⟨h.cursors.loadR hk, ⟨h.slots.canonical, h.slots.indices, h.slots.written⟩, fun c hc => ?_, fun d hd => ?_⟩
  · exact absurd (idle.symm.trans hc) nofun
  · obtain ⟨fits, wanted, own, once, read⟩ := h.consuming d hd
    exact ⟨fits, wanted, own, once, read⟩

/-- The slot writes of a burst go to consecutive slots. -/
theorem slotWrites_slots (cap start : Nat) (fs : List Frame) :
    (slotWrites cap start 0 fs).map (·.1) = (List.range fs.length).map (advance cap start) := by
  apply List.ext_getElem?
  intro k
  rw [List.getElem?_map, List.getElem?_map, slotWrites_getElem?, Nat.zero_add]
  by_cases hk : k < fs.length <;> simp [hk]

/-- A burst that fits in the ring goes to each slot at most once. -/
theorem slotWrites_once {cap : Nat} (start : Nat) {fs : List Frame} (fits : fs.length ≤ cap) :
    ((slotWrites cap start 0 fs).map (·.1)).Nodup := by
  rw [slotWrites_slots]
  refine List.nodup_range.map_on fun i hi k hk same => ?_
  rw [List.mem_range] at hi hk
  exact advance_inj (hi.trans_le fits) (hk.trans_le fits) same

/-- What P1 accepts fits in the free space EMU sees. -/
theorem accepted_length_le (cap : Nat) (q : Fifo) (burst : List Frame) :
    (burst.take (freeSlots cap q)).length ≤ freeSlots cap q := by
  rw [List.length_take]; exact Nat.min_le_left ..

/-- A PRODUCE that has just begun has all its writes still to make. -/
theorem ProducingInv.begin (cap : Nat) (q : Fifo) (p : Option ProduceCtl) (burst : List Frame) :
    ProducingInv cap { q with producing := p }
      ⟨burst.take (freeSlots cap q), slotWrites cap q.wcur 0 (burst.take (freeSlots cap q))⟩ where
  fits := accepted_length_le cap q burst
  own := by
    intro w hw
    obtain ⟨k, hk⟩ := List.mem_iff_getElem?.mp hw
    rw [slotWrites_getElem?, Nat.zero_add] at hk
    obtain ⟨f, hf, e⟩ := Option.map_eq_some_iff.mp hk
    exact ⟨k, f, hf, e.symm⟩
  once := by
    have := accepted_length_le cap q burst
    exact slotWrites_once _ (by unfold freeSlots at *; omega)
  landed := by
    intro i f hf
    refine .inl (List.mem_iff_getElem?.mpr ⟨i, ?_⟩)
    rw [slotWrites_getElem?, hf, Nat.zero_add]; rfl

/-- Atom P1 keeps the invariant. -/
theorem FifoInv.produceBegin {s : State} (burst : List Frame) (h : FifoInv s.cfg.capacity s.fifo)
    (idle : s.fifo.producing = none) : FifoInv s.cfg.capacity (produceBegin burst s).fifo := by
  obtain ⟨cursors, slots, -, consuming⟩ := h.loadRcur idle
  constructor
  case cursors => exact ⟨cursors.latestR, cursors.latestW, cursors.indices, cursors.oneLap⟩
  case slots => exact ⟨slots.canonical, slots.indices, slots.written⟩
  case producing =>
    rintro c ⟨⟩
    exact ProducingInv.begin s.cfg.capacity s.loadRcur.fifo _ burst
  case consuming =>
    intro d hd
    obtain ⟨fits, wanted, own, once, read⟩ := consuming d hd
    exact ⟨fits, wanted, own, once, read⟩

/-! CONSUME. -/

theorem State.slotRead_of_lookup {s : State} {i : Nat} {f : Frame} (h : slotLookup i s.fifo.slots = some f) :
    s.slotRead i = f := by
  rw [State.slotRead, slotValue, h]

/-- A read of a valid frame's slot returns that frame: no valid slot is unwritten (R78). -/
theorem FifoInv.lookup_eq_slotRead {cap k : Nat} {s : State} (h : FifoInv cap s.fifo) (valid : k < s.fifo.fill cap) :
    slotLookup (advance cap s.fifo.rcur k) s.fifo.slots = some (s.slotRead (advance cap s.fifo.rcur k)) := by
  obtain ⟨f, hf⟩ := Option.ne_none_iff_exists'.mp (h.slots.written k valid)
  rw [hf, State.slotRead_of_lookup hf]

/-- AUD's next atom keeps the invariant, with a CONSUME in flight or not. -/
theorem FifoInv.consumeRead {s : State} {c : ConsumeCtl} {j i : Nat} (h : FifoInv s.cfg.capacity s.fifo)
    (hc : s.fifo.consuming = some c) (hi : c.pending[j]? = some i) :
    FifoInv s.cfg.capacity { s.fifo with consuming := some { c with
      got := c.got.set i (some (s.slotRead (advance s.cfg.capacity s.fifo.rcur i)))
      pending := c.pending.eraseIdx j } } := by
  have inv := h.consuming c hc
  have own := inv.own i (List.mem_of_getElem? hi)
  constructor
  case cursors => exact ⟨h.cursors.latestR, h.cursors.latestW, h.cursors.indices, h.cursors.oneLap⟩
  case slots => exact ⟨h.slots.canonical, h.slots.indices, h.slots.written⟩
  case producing =>
    intro p hp
    obtain ⟨fits, own, once, landed⟩ := h.producing p hp
    exact ⟨fits, own, once, landed⟩
  case consuming =>
    rintro c' ⟨⟩
    refine ⟨?_, ?_, ?_, inv.once.sublist (List.eraseIdx_sublist ..), ?_⟩
    · simpa using inv.fits
    · simpa using inv.wanted
    · simpa using fun k hk => inv.own k (List.mem_of_mem_eraseIdx hk)
    · intro k hk done
      simp only [List.length_set] at hk done ⊢
      by_cases same : k = i
      · subst same
        rw [List.getElem?_set_self hk, h.lookup_eq_slotRead (hk.trans_le (h.got_le_fill hc))]
      · rw [List.getElem?_set_ne (Ne.symm same)]
        refine inv.read k hk fun pending => done ((List.mem_eraseIdx_iff_getElem?).mpr ?_)
        obtain ⟨n, hn⟩ := List.mem_iff_getElem?.mp pending
        exact ⟨n, by rintro rfl; simp_all, hn⟩

/-- Taking `m` frames makes `m` fewer of them valid. -/
theorem CursorInv.fill_storeRcur {cap m : Nat} {q : Fifo} (h : CursorInv cap q) (avail : m ≤ q.fill cap) :
    ringDist cap (advance cap q.rcur m) q.wcur = q.fill cap - m := by
  obtain ⟨-, hr, -, hw⟩ := h.lt
  have := h.fill_add_free
  have back : q.wcur = advance cap (advance cap q.rcur m) (q.fill cap - m) := by
    rw [advance_advance, Nat.add_sub_cancel' avail, Fifo.fill, advance_ringDist hr hw]
  nth_rw 1 [back]
  exact ringDist_advance (advance_lt _ _ (by omega)) (by omega)

/-- The store of a CONSUME keeps the invariant (C3). -/
theorem FifoInv.storeRcur {cap m : Nat} {q : Fifo} (h : FifoInv cap q) (fits : m ≤ availFrames cap q) :
    FifoInv cap { q.storeRcur (advance cap q.rcur m) with consuming := none } := by
  have avail := fits.trans h.cursors.avail_le_fill
  have cursors := h.cursors.storeR fits
  constructor
  case cursors => exact ⟨cursors.latestR, cursors.latestW, cursors.indices, cursors.oneLap⟩
  case slots =>
    refine ⟨h.slots.canonical, h.slots.indices, fun k (hk : k < ringDist cap (advance cap q.rcur m) q.wcur) => ?_⟩
    rw [h.cursors.fill_storeRcur avail] at hk
    change slotLookup (advance cap (advance cap q.rcur m) k) q.slots ≠ none
    rw [advance_advance]
    exact h.slots.written _ (by omega)
  case producing =>
    intro p hp
    obtain ⟨fits, own, once, landed⟩ := h.producing p hp
    exact ⟨fits, own, once, landed⟩
  case consuming => exact nofun

/-- AUD's next atom keeps the invariant, with a CONSUME in flight or not. -/
theorem FifoInv.consumeAtom {s : State} (h : FifoInv s.cfg.capacity s.fifo) :
    FifoInv s.cfg.capacity (consumeAtom s).fifo := by
  cases hc : s.fifo.consuming with
  | none => simpa only [Machine.consumeAtom, hc] using h
  | some c =>
    obtain ⟨done, e⟩ | ⟨j, w, e', hw, -, e⟩ := consumeAtom_cases hc
    · rw [e]; exact h.storeRcur (h.consuming c hc).fits
    · rw [e]; exact h.consumeRead hc hw

/-- AUD's acquire load keeps the invariant. -/
theorem FifoInv.loadWcur {s : State} (h : FifoInv s.cfg.capacity s.fifo) (idle : s.fifo.consuming = none) :
    FifoInv s.cfg.capacity s.loadWcur.fifo := by
  obtain ⟨k, e, hk, -, eq⟩ := s.loadWcur_cases
  rw [eq]
  refine ⟨h.cursors.loadW hk, ⟨h.slots.canonical, h.slots.indices, h.slots.written⟩, fun p hp => ?_, fun d hd => ?_⟩
  · obtain ⟨fits, own, once, landed⟩ := h.producing p hp
    exact ⟨fits, own, once, landed⟩
  · exact absurd (idle.symm.trans hd) nofun

/-- Atom C1 keeps the invariant. -/
theorem FifoInv.consumeBegin {s : State} (n : Nat) (h : FifoInv s.cfg.capacity s.fifo)
    (idle : s.fifo.consuming = none) : FifoInv s.cfg.capacity (consumeBegin n s).fifo := by
  obtain ⟨cursors, slots, producing, -⟩ := h.loadWcur idle
  constructor
  case cursors => exact ⟨cursors.latestR, cursors.latestW, cursors.indices, cursors.oneLap⟩
  case slots => exact ⟨slots.canonical, slots.indices, slots.written⟩
  case producing =>
    intro p hp
    obtain ⟨fits, own, once, landed⟩ := producing p hp
    exact ⟨fits, own, once, landed⟩
  case consuming =>
    rintro c ⟨⟩
    constructor
    case fits => rw [List.length_replicate]; exact Nat.min_le_right ..
    case wanted => rw [List.length_replicate]; exact Nat.min_le_left ..
    case own => simp
    case once => exact List.nodup_range
    case read =>
      intro i hi done
      simp only [List.length_replicate] at hi
      exact absurd (List.mem_range.mpr hi) done

end Sys2Proof.Machine
end

section
/-! A whole FIFO operation is its atoms run with nothing in between (20_memory.md R74 to R76, R79). -/
namespace Sys2Proof.Machine

/-! What FIFO operations leave alone. -/

theorem OnlyFifo.refl (s : State) : OnlyFifo s s := ⟨rfl, rfl, rfl, rfl, rfl, rfl, rfl, rfl⟩

theorem OnlyFifo.trans {s t u : State} (h : OnlyFifo s t) (k : OnlyFifo t u) : OnlyFifo s u := by
  obtain ⟨h1, h2, h3, h4, h5, h6, h7, h8⟩ := h
  obtain ⟨k1, k2, k3, k4, k5, k6, k7, k8⟩ := k
  exact ⟨k1.trans h1, k2.trans h2, k3.trans h3, k4.trans h4, k5.trans h5, k6.trans h6, k7.trans h7, k8.trans h8⟩

theorem OnlyFifo.cfg {s t : State} (h : OnlyFifo s t) : t.cfg = s.cfg := by
  obtain ⟨-, -, cfg, -⟩ := h
  exact cfg

theorem OnlyFifo.emuQ {s t : State} (h : OnlyFifo s t) : t.env.emuQ = s.env.emuQ := by
  obtain ⟨-, -, -, -, -, emuQ, -⟩ := h
  exact emuQ

theorem OnlyFifo.audQ {s t : State} (h : OnlyFifo s t) : t.env.audQ = s.env.audQ := by
  obtain ⟨-, -, -, -, -, -, audQ, -⟩ := h
  exact audQ

theorem OnlyFifo.iterate {f : State → State} (h : ∀ s, OnlyFifo s (f s)) (n : Nat) (s : State) : OnlyFifo s (f^[n] s) := by
  induction n generalizing s with
  | zero => exact .refl s
  | succ n ih => exact (h s).trans (ih (f s))

theorem loadRcur_onlyFifo (s : State) : OnlyFifo s s.loadRcur := by
  obtain ⟨h1, h2, h3⟩ := Env.choose_frame (s.fifo.unseenR.length + 1) s.env
  exact ⟨rfl, rfl, rfl, rfl, rfl, h1, h2, h3⟩

theorem loadWcur_onlyFifo (s : State) : OnlyFifo s s.loadWcur := by
  obtain ⟨h1, h2, h3⟩ := Env.choose_frame (s.fifo.unseenW.length + 1) s.env
  exact ⟨rfl, rfl, rfl, rfl, rfl, h1, h2, h3⟩

theorem produceBegin_onlyFifo (burst : List Frame) (s : State) : OnlyFifo s (produceBegin burst s) := loadRcur_onlyFifo s

theorem consumeBegin_onlyFifo (n : Nat) (s : State) : OnlyFifo s (consumeBegin n s) := loadWcur_onlyFifo s

theorem runProduce_onlyFifo (burst : List Frame) (s : State) : OnlyFifo s (runProduce burst s) := loadRcur_onlyFifo s

theorem runConsume_onlyFifo (n : Nat) (s : State) : OnlyFifo s (runConsume n s) := loadWcur_onlyFifo s

theorem runCount_onlyFifo (s : State) : OnlyFifo s (runCount s) := loadRcur_onlyFifo s

theorem produceAtom_onlyFifo (s : State) : OnlyFifo s (produceAtom s) := by
  cases hc : s.fifo.producing with
  | none => rw [produceAtom, hc]; exact .refl s
  | some c =>
    obtain ⟨-, e⟩ | ⟨j, w, e', -, ⟨h1, h2, h3⟩, e⟩ := produceAtom_cases hc
    · rw [e]; exact .refl s
    · rw [e]; exact ⟨rfl, rfl, rfl, rfl, rfl, h1, h2, h3⟩

theorem consumeAtom_onlyFifo (s : State) : OnlyFifo s (consumeAtom s) := by
  cases hc : s.fifo.consuming with
  | none => rw [consumeAtom, hc]; exact .refl s
  | some c =>
    obtain ⟨-, e⟩ | ⟨j, w, e', -, ⟨h1, h2, h3⟩, e⟩ := consumeAtom_cases hc
    · rw [e]; exact .refl s
    · rw [e]; exact ⟨rfl, rfl, rfl, rfl, rfl, h1, h2, h3⟩

theorem produceAtom_bus (s : State) : (produceAtom s).bus = s.bus := by
  cases hc : s.fifo.producing with
  | none => rw [produceAtom, hc]
  | some c => obtain ⟨-, e⟩ | ⟨j, w, e', -, -, e⟩ := produceAtom_cases hc <;> rw [e] <;> rfl

theorem produceAtom_iterate_bus (n : Nat) (s : State) : (produceAtom^[n] s).bus = s.bus := by
  induction n generalizing s with
  | zero => rfl
  | succ n ih => exact (ih (produceAtom s)).trans (produceAtom_bus s)

/-! The atoms of a PRODUCE. -/

/-- Writes to different slots may be made in any order (R74). -/
theorem writeAll_perm {ws vs : List (Nat × Frame)} (q : Fifo) (perm : ws.Perm vs) (once : (ws.map (·.1)).Nodup) :
    writeAll q ws = writeAll q vs := by
  induction perm generalizing q with
  | nil => rfl
  | cons w _ ih => exact ih _ (List.nodup_cons.mp once).2
  | swap w v _ =>
    have other : w.1 ≠ v.1 := fun same => (List.nodup_cons.mp once).1 (by simp [same])
    simp only [writeAll, Fifo.slotWrite, slotInsert_comm _ _ _ other]
  | trans p _ ih1 ih2 => exact (ih1 q once).trans (ih2 q ((p.map _).nodup_iff.mp once))

theorem writeAll_setProducing (q : Fifo) (p : Option ProduceCtl) (ws : List (Nat × Frame)) :
    writeAll { q with producing := p } ws = { writeAll q ws with producing := p } := by
  induction ws generalizing q with
  | nil => rfl
  | cons w ws ih => exact ih (q.slotWrite w.1 w.2)

/-- A PRODUCE in flight with `n` writes left is finished by `n + 1` atoms and not before, and leaves every write made and the new
`WCUR` published, in whatever order the writes came. -/
theorem produceAtom_run {n : Nat} {s : State} {c : ProduceCtl} (hc : s.fifo.producing = some c) (left : c.pending.length = n)
    (once : (c.pending.map (·.1)).Nodup) :
    (∀ j, j ≤ n → (produceAtom^[j] s).fifo.producing ≠ none) ∧
    (produceAtom^[n + 1] s).fifo = produceStore s.cfg.capacity c (writeAll s.fifo c.pending) := by
  induction n generalizing s c with
  | zero =>
    have done := List.length_eq_zero_iff.mp left
    obtain ⟨-, e⟩ | ⟨j, w, -, hw, -⟩ := produceAtom_cases hc
    · refine ⟨fun j hj => ?_, ?_⟩
      · obtain rfl := Nat.le_zero.mp hj
        rw [Function.iterate_zero_apply, hc]; exact nofun
      · rw [Function.iterate_one, e, done]; rfl
    · rw [done] at hw; cases hw
  | succ n ih =>
    obtain ⟨done, -⟩ | ⟨j, w, e', hw, -, e⟩ := produceAtom_cases hc
    · rw [done] at left; cases left
    obtain ⟨hj, rfl⟩ := List.getElem?_eq_some_iff.mp hw
    have hc' : (produceAtom s).fifo.producing = some { c with pending := c.pending.eraseIdx j } := by rw [e]; rfl
    have left' : (c.pending.eraseIdx j).length = n := by rw [List.length_eraseIdx_of_lt hj, left]; rfl
    obtain ⟨before, final⟩ := ih hc' left' (once.sublist ((List.eraseIdx_sublist ..).map _))
    refine ⟨fun i hi => ?_, ?_⟩
    · cases i with
      | zero => rw [Function.iterate_zero_apply, hc]; exact nofun
      | succ i => exact before i (Nat.le_of_succ_le_succ hi)
    · have moved := List.getElem_cons_eraseIdx_perm hj
      have order := writeAll_perm s.fifo moved ((moved.map _).nodup_iff.mpr once)
      rw [Function.iterate_succ_apply, final, e, ← order]
      simp only [State.setEnv_fifo, State.setFifo_fifo, writeAll_setProducing]
      rfl

/-- What a PRODUCE accepts, after its load of `RCUR`: as much of the burst as fits, oldest frames first (R201). -/
def accepted (burst : List Frame) (s : State) : List Frame := burst.take (freeSlots s.cfg.capacity s.loadRcur.fifo)

theorem accepted_le_free (burst : List Frame) (s : State) :
    (accepted burst s).length ≤ freeSlots s.cfg.capacity s.loadRcur.fifo := accepted_length_le ..

theorem accepted_le_capacity (burst : List Frame) (s : State) : (accepted burst s).length ≤ s.cfg.capacity :=
  (accepted_le_free burst s).trans (by unfold freeSlots; omega)

/-- What a whole PRODUCE leaves of the FIFO. -/
theorem runProduce_fifo (burst : List Frame) (s : State) : (runProduce burst s).fifo =
    { s.loadRcur.fifo with
      slots := (writeAll s.loadRcur.fifo (slotWrites s.cfg.capacity s.fifo.wcur 0 (accepted burst s))).slots
      wcur := advance s.cfg.capacity s.fifo.wcur (accepted burst s).length
      unseenW := s.fifo.unseenW ++ [advance s.cfg.capacity s.fifo.wcur (accepted burst s).length] } := by
  simp only [runProduce, State.setFifo_fifo, Fifo.storeWcur]
  rw [writeAll_eq]; rfl

/-- A whole PRODUCE does what its atoms do (R76, R79). -/
theorem produceAtoms_run {s : State} (burst : List Frame) (idle : s.fifo.producing = none) :
    (∀ j, j ≤ (accepted burst s).length → (produceAtom^[j] (produceBegin burst s)).fifo.producing ≠ none) ∧
    (produceAtom^[(accepted burst s).length + 1] (produceBegin burst s)).fifo = (runProduce burst s).fifo := by
  have once := slotWrites_once s.fifo.wcur (accepted_le_capacity burst s)
  obtain ⟨before, final⟩ := produceAtom_run (s := produceBegin burst s) rfl (slotWrites_length ..) once
  refine ⟨before, final.trans ?_⟩
  have idle' : s.loadRcur.fifo.producing = none := idle
  rw [runProduce_fifo]
  simp only [produceBegin, State.setFifo_fifo, State.setFifo_cfg, writeAll_setProducing, produceStore]
  rw [writeAll_eq]
  simp only [Fifo.storeWcur, idle']
  rfl

/-- Settles O46: the atoms run by `produceAtoms_run`, and no atom touches anything outside the FIFO and the draws. -/
theorem produceAtomsMakeTheWholeOperation : Obligations.ProduceAtomsMakeTheWholeOperation := by
  unfold Obligations.ProduceAtomsMakeTheWholeOperation
  intro s burst _ idle a t
  have count : (accepted burst s).length = a := by
    rw [accepted, List.length_take, Nat.min_comm]
    simp only [a, runProduce_fifo]; rfl
  obtain ⟨before, final⟩ := produceAtoms_run burst idle
  rw [count] at before final
  have bus : t.bus = s.bus := produceAtom_iterate_bus (a + 1) (produceBegin burst s)
  refine ⟨final, bus, ?_, ?_, before⟩
  · exact (produceBegin_onlyFifo burst s).trans (.iterate produceAtom_onlyFifo _ _)
  · rw [final, runProduce_fifo]
    exact idle

theorem FifoInv.produceAtom_iterate {s : State} (n : Nat) (h : FifoInv s.cfg.capacity s.fifo) :
    FifoInv s.cfg.capacity (Machine.produceAtom^[n] s).fifo := by
  induction n generalizing s with
  | zero => exact h
  | succ n ih =>
    have cfg : (Machine.produceAtom s).cfg = s.cfg := (produceAtom_onlyFifo s).cfg
    have next := h.produceAtom
    rw [← cfg] at next ⊢
    exact ih next

/-- A whole PRODUCE keeps the invariant, because each of its atoms does. -/
theorem FifoInv.runProduce {s : State} (burst : List Frame) (h : FifoInv s.cfg.capacity s.fifo)
    (idle : s.fifo.producing = none) : FifoInv s.cfg.capacity (runProduce burst s).fifo := by
  rw [← (produceAtoms_run burst idle).2]
  exact FifoInv.produceAtom_iterate (s := Machine.produceBegin burst s) _ (h.produceBegin burst idle)

/-! The atoms of a CONSUME. -/

/-- The frames of valid slots, as AUD reads them. -/
theorem FifoInv.slotRun_eq_reads {cap m : Nat} {s : State} (h : FifoInv cap s.fifo) (valid : m ≤ s.fifo.fill cap) :
    slotRun cap s.fifo.slots s.fifo.rcur m = (List.range m).map (fun i => s.slotRead (advance cap s.fifo.rcur i)) := by
  refine List.map_congr_left fun i hi => ?_
  rw [h.lookup_eq_slotRead ((List.mem_range.mp hi).trans_le valid), Option.getD_some]

/-- What a CONSUME with all its reads made delivers: the frames from `RCUR` on, then silence (R206, R207). -/
theorem FifoInv.delivered_eq {cap : Nat} {q : Fifo} {c : ConsumeCtl} (h : FifoInv cap q) (hc : q.consuming = some c)
    (done : c.pending = []) : delivered c =
      slotRun cap q.slots q.rcur c.got.length ++ List.replicate (c.wanted - c.got.length) Frame.zero := by
  rw [delivered, slotRun]
  congr 1
  apply List.ext_getElem?
  intro i
  by_cases hi : i < c.got.length
  · have read := (h.consuming c hc).read i hi (by simp [done])
    rw [List.getElem?_map, read, List.getElem?_map, List.getElem?_range hi]; rfl
  · simp [hi]

/-- A CONSUME in flight with `n` reads left is finished by `n + 1` atoms and not before, and leaves the new `RCUR` published and its
frames on the bus, in whatever order the reads came. -/
theorem consumeAtom_run {n : Nat} {s : State} {c : ConsumeCtl} (h : FifoInv s.cfg.capacity s.fifo)
    (hc : s.fifo.consuming = some c) (left : c.pending.length = n) :
    (∀ j, j ≤ n → (consumeAtom^[j] s).fifo.consuming ≠ none) ∧
    (consumeAtom^[n + 1] s).fifo =
      { s.fifo.storeRcur (advance s.cfg.capacity s.fifo.rcur c.got.length) with consuming := none } ∧
    (consumeAtom^[n + 1] s).bus = { s.bus with
      popOut := slotRun s.cfg.capacity s.fifo.slots s.fifo.rcur c.got.length ++
        List.replicate (c.wanted - c.got.length) Frame.zero } := by
  induction n generalizing s c with
  | zero =>
    have done := List.length_eq_zero_iff.mp left
    obtain ⟨-, e⟩ | ⟨j, w, -, hw, -⟩ := consumeAtom_cases hc
    · refine ⟨fun j hj => ?_, ?_, ?_⟩
      · obtain rfl := Nat.le_zero.mp hj
        rw [Function.iterate_zero_apply, hc]; exact nofun
      · rw [Function.iterate_one, e]; rfl
      · rw [Function.iterate_one, e, ← h.delivered_eq hc done]; rfl
    · rw [done] at hw; cases hw
  | succ n ih =>
    obtain ⟨done, -⟩ | ⟨j, i, e', hi, -, e⟩ := consumeAtom_cases hc
    · rw [done] at left; cases left
    have cfg : (consumeAtom s).cfg = s.cfg := (consumeAtom_onlyFifo s).cfg
    obtain ⟨hj, -⟩ := List.getElem?_eq_some_iff.mp hi
    have hc' : (consumeAtom s).fifo.consuming = some ⟨c.wanted,
        c.got.set i (some (s.slotRead (advance s.cfg.capacity s.fifo.rcur i))), c.pending.eraseIdx j⟩ := by rw [e]; rfl
    have left' : (c.pending.eraseIdx j).length = n := by rw [List.length_eraseIdx_of_lt hj, left]; rfl
    obtain ⟨before, fifo, bus⟩ := ih (by rw [cfg]; exact h.consumeAtom) hc' left'
    rw [Function.iterate_succ_apply, fifo, bus, List.length_set, cfg, e]
    refine ⟨fun i hi => ?_, rfl, rfl⟩
    cases i with
    | zero => rw [Function.iterate_zero_apply, hc]; exact nofun
    | succ i => exact before i (Nat.le_of_succ_le_succ hi)

theorem runConsume_fifo {s : State} (n : Nat) (idle : s.fifo.consuming = none) : (runConsume n s).fifo =
    { s.loadWcur.fifo.storeRcur (advance s.cfg.capacity s.fifo.rcur (min n (availFrames s.cfg.capacity s.loadWcur.fifo))) with
      consuming := none } :=
  congrArg (fun d => { (runConsume n s).fifo with consuming := d }) idle

/-- A whole CONSUME delivers the valid frames from `RCUR` on, then silence (R206, R207). -/
theorem FifoInv.runConsume_bus {s : State} (n : Nat) (h : FifoInv s.cfg.capacity s.fifo) (idle : s.fifo.consuming = none) :
    (runConsume n s).bus = { s.bus with
      popOut := slotRun s.cfg.capacity s.fifo.slots s.fifo.rcur (min n (availFrames s.cfg.capacity s.loadWcur.fifo)) ++
        List.replicate (n - min n (availFrames s.cfg.capacity s.loadWcur.fifo)) Frame.zero } := by
  have loaded := h.loadWcur idle
  have reads := loaded.slotRun_eq_reads ((Nat.min_le_right n _).trans loaded.cursors.avail_le_fill)
  exact congrArg (fun frames => { s.bus with
    popOut := frames ++ List.replicate (n - min n (availFrames s.cfg.capacity s.loadWcur.fifo)) Frame.zero }) reads.symm

/-- A whole CONSUME does what its atoms do (R76, R79). -/
theorem consumeAtoms_run {s : State} (n : Nat) (h : FifoInv s.cfg.capacity s.fifo) (idle : s.fifo.consuming = none) :
    let m := min n (availFrames s.cfg.capacity s.loadWcur.fifo)
    (∀ j, j ≤ m → (consumeAtom^[j] (consumeBegin n s)).fifo.consuming ≠ none) ∧
    (consumeAtom^[m + 1] (consumeBegin n s)).fifo = (runConsume n s).fifo ∧
    (consumeAtom^[m + 1] (consumeBegin n s)).bus = (runConsume n s).bus := by
  intro m
  obtain ⟨before, fifo, bus⟩ := consumeAtom_run (s := consumeBegin n s) (n := m) (h.consumeBegin n idle) rfl (List.length_range ..)
  rw [fifo, bus, List.length_replicate]
  exact ⟨before, (runConsume_fifo n idle).symm, (h.runConsume_bus n idle).symm⟩

/-- Settles O47: the atoms run by `consumeAtoms_run`, and no atom touches anything outside the FIFO, its bus and the draws. -/
theorem consumeAtomsMakeTheWholeOperation : Obligations.ConsumeAtomsMakeTheWholeOperation := by
  unfold Obligations.ConsumeAtomsMakeTheWholeOperation
  intro s n _ h idle m t
  obtain ⟨before, fifo, bus⟩ := consumeAtoms_run n h idle
  refine ⟨fifo, bus, ?_, ?_, before⟩
  · exact (consumeBegin_onlyFifo n s).trans (.iterate consumeAtom_onlyFifo _ _)
  · exact (congrArg Fifo.consuming fifo).trans idle

/-- A whole CONSUME keeps the invariant: it is a load and a store. -/
theorem FifoInv.runConsume {s : State} (n : Nat) (h : FifoInv s.cfg.capacity s.fifo)
    (idle : s.fifo.consuming = none) : FifoInv s.cfg.capacity (runConsume n s).fifo := by
  rw [runConsume_fifo n idle]
  exact (h.loadWcur idle).storeRcur (Nat.min_le_right ..)

end Sys2Proof.Machine
end

section
/-! What a whole operation and one step can do (20_memory.md R76; 00_scope.md R9): the inversion lemmas of `exec`, of either agent's
turn and of `step`. -/
namespace Sys2Proof.Machine

/-! The operations that can be refused, from a next state back to what they did. -/

theorem exec_mix_inv {fmL fmR : Int} {psg : Nat} {s t : State} (h : exec (.mix fmL fmR psg) s = .next t) :
    t = s.setBus { s.bus with mixOut := ⟨mixLane s.live fmL psg, mixLane s.live fmR psg⟩ } := by
  change execMix fmL fmR psg s = _ at h
  unfold execMix at h
  split at h
  · exact (Host.Outcome.next.inj h).symm
  · cases h

theorem exec_filter_inv {xL xR : Int} {s t : State} (h : exec (.filter xL xR) s = .next t) :
    (IsSample xL ∧ IsSample xR) ∧
    t.flt = ⟨(filterLane s.cfg (coef s.cfg.lpfFull s.live.lpfPct) s.flt.l xL).2,
             (filterLane s.cfg (coef s.cfg.lpfFull s.live.lpfPct) s.flt.r xR).2⟩ ∧
    ∃ out, t = (s.setFlt t.flt).setBus { s.bus with fltOut := out } := by
  change execFilter xL xR s = _ at h
  unfold execFilter at h
  split at h
  next inRange =>
    obtain rfl := Host.Outcome.next.inj h
    exact ⟨of_decide_eq_true inRange, rfl, _, rfl⟩
  next => cases h

theorem exec_produce_inv {burst : List Frame} {s t : State} (h : exec (.produce burst) s = .next t) :
    s.fifo.producing = none ∧ t = runProduce burst s := by
  change execProduce burst s = _ at h
  unfold execProduce at h
  split at h
  · split at h
    next idle => exact ⟨idle, (Host.Outcome.next.inj h).symm⟩
    next => cases h
  · cases h

theorem exec_consume_inv {n : Nat} {s t : State} (h : exec (.consume n) s = .next t) :
    s.fifo.consuming = none ∧ t = runConsume n s := by
  change execConsume n s = _ at h
  unfold execConsume at h
  split at h
  next idle => exact ⟨idle, (Host.Outcome.next.inj h).symm⟩
  next => cases h

theorem exec_count_inv {s t : State} (h : exec .count s = .next t) : s.fifo.producing = none ∧ t = runCount s := by
  change execCount s = _ at h
  unfold execCount at h
  split at h
  next idle => exact ⟨idle, (Host.Outcome.next.inj h).symm⟩
  next => cases h

theorem exec_resetHard_inv {s t : State} (h : exec .resetHard s = .next t) : s.cfgIn.Valid ∧ t = hardReset s := by
  change execResetHard s = _ at h
  unfold execResetHard at h
  split at h
  · cases h
  · split at h
    next valid => exact ⟨valid, (Host.Outcome.next.inj h).symm⟩
    next => cases h

/-! The FIFO's side of every operation. -/

/-- Nothing changed of the FIFO and its result bus, of the parameters and inputs, and of the queues. -/
def KeepsFifo (s t : State) : Prop :=
  t.fifo = s.fifo ∧ t.bus.popOut = s.bus.popOut ∧ t.cfg = s.cfg ∧ t.cfgIn = s.cfgIn ∧ t.live = s.live ∧ t.env = s.env

/-- All an operation can do to the FIFO: nothing, unless it is one of the FIFO's own three or the hard reset. -/
theorem exec_fifo_cases {i : Instr} {s t : State} (h : exec i s = .next t) :
    KeepsFifo s t ∨
    (∃ burst, i = .produce burst ∧ s.fifo.producing = none ∧ t = runProduce burst s) ∨
    (∃ n, i = .consume n ∧ s.fifo.consuming = none ∧ t = runConsume n s) ∨
    (i = .count ∧ s.fifo.producing = none ∧ t = runCount s) ∨
    (i = .resetHard ∧ s.cfgIn.Valid ∧ t = hardReset s) := by
  cases i with
  | mix fmL fmR psg => rw [exec_mix_inv h]; exact .inl ⟨rfl, rfl, rfl, rfl, rfl, rfl⟩
  | filter xL xR =>
    obtain ⟨-, -, out, e⟩ := exec_filter_inv h
    rw [e]; exact .inl ⟨rfl, rfl, rfl, rfl, rfl, rfl⟩
  | produce burst => exact .inr (.inl ⟨burst, rfl, exec_produce_inv h⟩)
  | consume n => exact .inr (.inr (.inl ⟨n, rfl, exec_consume_inv h⟩))
  | count => exact .inr (.inr (.inr (.inl ⟨rfl, exec_count_inv h⟩)))
  | resetHard => exact .inr (.inr (.inr (.inr ⟨rfl, exec_resetHard_inv h⟩)))
  | _ =>
    obtain rfl := Host.Outcome.next.inj h
    exact .inl ⟨rfl, rfl, rfl, rfl, rfl, rfl⟩

/-! Bytes. -/

/-- A byte is a tone-period latch, a volume latch, a noise-control latch or a data byte (30_encoding.md R93). -/
theorem decodeByte_cases (b : Byte) :
    (∃ c d, decodeByte b = toneLatchOf c d) ∨ (∃ c d, decodeByte b = volWriteOf c d) ∨
    (∃ f nn, decodeByte b = .noiseCtrl f nn) ∨ (∃ u, decodeByte b = .data u) := by
  unfold decodeByte
  dsimp only
  split
  · split
    · exact .inr (.inr (.inl ⟨_, _, rfl⟩))
    · split
      · exact .inr (.inl ⟨_, _, rfl⟩)
      · split
        · exact .inl ⟨.t0, _, rfl⟩
        · split
          · exact .inl ⟨.t1, _, rfl⟩
          · exact .inl ⟨.t2, _, rfl⟩
  · exact .inr (.inr (.inr ⟨_, rfl⟩))

/-- Only a use of `RST` with its bit set is a hard reset (30_encoding.md R90). -/
theorem eq_rst_of_decode {u : PortUse} (h : decode u = .resetHard) : u = .rst 1#1 := by
  cases u with
  | psgWr b =>
    change decodeByte b = _ at h
    obtain ⟨c, d, e⟩ | ⟨c, d, e⟩ | ⟨f, nn, e⟩ | ⟨v, e⟩ := decodeByte_cases b
    · rw [e] at h; cases c <;> cases h
    · rw [e] at h; cases c <;> cases h
    · rw [e] at h; cases h
    · rw [e] at h; cases h
  | rst b =>
    by_cases hb : b = 1#1
    · rw [hb]
    · rw [decode, if_neg hb] at h; cases h
  | _ => cases h

/-- The operation read off a port is issued by the agent that owns the port (00_scope.md R8; 60_exceptions.md R250). -/
theorem decode_agent (u : PortUse) : (decode u).agent = u.agent := by
  cases u with
  | psgWr b =>
    change (decodeByte b).agent = .emu
    obtain ⟨c, d, e⟩ | ⟨c, d, e⟩ | ⟨f, nn, e⟩ | ⟨v, e⟩ := decodeByte_cases b
    · rw [e]; cases c <;> rfl
    · rw [e]; cases c <;> rfl
    · rw [e]; rfl
    · rw [e]; rfl
  | rst b =>
    change (if b = 1#1 then Instr.resetHard else Instr.resetSoft).agent = .emu
    split <;> rfl
  | _ => rfl

/-! Turns. -/

/-- What a turn of AUD can do: nothing, an atom of its CONSUME in flight, or the beginning or the whole of its next one. -/
inductive AudMove (s : State) : State → Prop
  | nothing : AudMove s s
  | atom : AudMove s (consumeAtom s)
  | begins (n : Nat) (idle : s.fifo.consuming = none) : AudMove s (consumeBegin n s)
  | whole (n : Nat) (idle : s.fifo.consuming = none) : AudMove s (runConsume n s)

/-- What a turn of EMU can do: nothing, an atom of its PRODUCE in flight, the beginning of its next one, an operation of its own, which
is a hard reset only if `mayReset`, or a change of an input. -/
inductive EmuMove (mayReset : Prop) (s : State) : State → Prop
  | nothing : EmuMove mayReset s s
  | atom : EmuMove mayReset s (produceAtom s)
  | begins (burst : List Frame) (idle : s.fifo.producing = none) : EmuMove mayReset s (produceBegin burst s)
  | operation {i : Instr} {t : State} (own : i.agent = .emu) (hard : i = .resetHard → mayReset) (h : exec i s = .next t) :
    EmuMove mayReset s t
  | live (v : Live) : EmuMove mayReset s (s.setLive v)
  | params (p : Params) : EmuMove mayReset s (s.setCfgIn p)

theorem EmuMove.mono {p q : Prop} {s t : State} (pq : p → q) (h : EmuMove p s t) : EmuMove q s t := by
  cases h with
  | nothing => exact .nothing
  | atom => exact .atom
  | begins burst idle => exact .begins burst idle
  | operation own hard h => exact .operation own (pq ∘ hard) h
  | live v => exact .live v
  | params v => exact .params v

theorem startProduce_inv {burst : List Frame} {s t : State} (h : startProduce burst s = .next t) :
    s.fifo.producing = none ∧ t = produceBegin burst s := by
  unfold startProduce at h
  split at h
  · split at h
    next idle => exact ⟨idle, (Host.Outcome.next.inj h).symm⟩
    next => cases h
  · cases h

theorem startConsume_inv {n : Nat} {s t : State} (h : startConsume n s = .next t) :
    s.fifo.consuming = none ∧ t = consumeBegin n s := by
  unfold startConsume at h
  split at h
  next idle => exact ⟨idle, (Host.Outcome.next.inj h).symm⟩
  next => cases h

/-- All an operation issued on an atom turn can do: PRODUCE and CONSUME begin, any other runs whole (R76). -/
theorem beginInstr_cases {i : Instr} {s t : State} (h : beginInstr i s = .next t) :
    (∃ burst, i = .produce burst ∧ s.fifo.producing = none ∧ t = produceBegin burst s) ∨
    (∃ n, i = .consume n ∧ s.fifo.consuming = none ∧ t = consumeBegin n s) ∨ exec i s = .next t := by
  cases i with
  | produce burst => exact .inl ⟨burst, rfl, startProduce_inv h⟩
  | consume n => exact .inr (.inl ⟨n, rfl, startConsume_inv h⟩)
  | _ => exact .inr (.inr h)

/-- All an issued operation can do: it begins, if it is PRODUCE or CONSUME, or runs whole. -/
theorem issueUse_cases {a : Agent} {whole : Bool} {u : PortUse} {s t : State} (h : issueUse a whole u s = .next t) :
    (decode u).agent = a ∧
    ((∃ burst, decode u = .produce burst ∧ s.fifo.producing = none ∧ t = produceBegin burst s) ∨
     (∃ n, decode u = .consume n ∧ s.fifo.consuming = none ∧ t = consumeBegin n s) ∨ exec (decode u) s = .next t) := by
  unfold issueUse at h
  split at h
  next own =>
    refine ⟨(decode_agent u).trans own, ?_⟩
    cases whole with
    | true => exact .inr (.inr h)
    | false => exact beginInstr_cases h
  next => cases h

/-- CONSUME is AUD's only operation (00_scope.md R8). -/
theorem Instr.eq_consume_of_aud {i : Instr} (h : i.agent = .aud) : ∃ n, i = .consume n := by
  cases i with
  | consume n => exact ⟨n, rfl⟩
  | _ => cases h

theorem audTurn_cases {whole : Bool} {s t : State} (h : audTurn whole s = .next t) :
    ∃ q, AudMove (s.setEnv { s.env with audQ := q }) t := by
  unfold audTurn at h
  split at h
  · obtain rfl := Host.Outcome.next.inj h
    exact ⟨s.env.audQ, .atom⟩
  · split at h
    · obtain rfl := Host.Outcome.next.inj h
      exact ⟨s.env.audQ, .nothing⟩
    next u rest _ =>
      obtain ⟨own, issued⟩ := issueUse_cases h
      obtain ⟨n, e⟩ := Instr.eq_consume_of_aud own
      rw [e] at issued
      refine ⟨rest, ?_⟩
      obtain ⟨_, ⟨⟩, -⟩ | ⟨n, -, idle, rfl⟩ | whole := issued
      · exact .begins n idle
      · obtain ⟨idle, rfl⟩ := exec_consume_inv whole
        exact .whole n idle

/-- EMU issues a hard reset next. -/
def HardResetNext (s : State) : Prop := s.fifo.producing = none ∧ s.env.emuQ.head? = some (.use (.rst 1#1))

theorem hostEvent_cases {whole : Bool} {e : HostEvent} {s t : State} (h : hostEvent whole e s = .next t) :
    EmuMove (e = .use (.rst 1#1)) s t := by
  cases e with
  | use u =>
    obtain ⟨own, ⟨burst, -, idle, rfl⟩ | ⟨n, e, -, -⟩ | whole⟩ := issueUse_cases h
    · exact .begins burst idle
    · rw [e] at own; cases own
    · exact .operation own (fun hard => congrArg _ (eq_rst_of_decode hard)) whole
  | setLpfPct p => obtain rfl := Host.Outcome.next.inj h; exact .live _
  | setFmEn b => obtain rfl := Host.Outcome.next.inj h; exact .live _
  | setPsgEn b => obtain rfl := Host.Outcome.next.inj h; exact .live _
  | setParams p => obtain rfl := Host.Outcome.next.inj h; exact .params p

theorem emuTurn_cases {whole : Bool} {s t : State} (h : emuTurn whole s = .next t) :
    ∃ q, (∀ e ∈ q, e ∈ s.env.emuQ) ∧ EmuMove (HardResetNext s) (s.setEnv { s.env with emuQ := q }) t := by
  unfold emuTurn at h
  split at h
  · obtain rfl := Host.Outcome.next.inj h
    exact ⟨s.env.emuQ, fun _ he => he, .atom⟩
  next idle =>
    split at h
    · obtain rfl := Host.Outcome.next.inj h
      exact ⟨s.env.emuQ, fun _ he => he, .nothing⟩
    next e rest eq =>
      refine ⟨rest, fun x hx => eq ▸ List.mem_cons_of_mem _ hx, (hostEvent_cases h).mono fun he => ⟨idle, ?_⟩⟩
      rw [eq, he]; rfl

/-- What a turn of either agent can do. -/
theorem runTurn_cases {turn : Turn} {s t : State} (h : runTurn turn s = .next t) : ∃ e, (∀ x ∈ e.emuQ, x ∈ s.env.emuQ) ∧
    (AudMove (s.setEnv e) t ∨ EmuMove (.use (.rst 1#1) ∈ s.env.emuQ) (s.setEnv e) t) := by
  have aud {whole} (h : audTurn whole s = .next t) : ∃ e, (∀ x ∈ e.emuQ, x ∈ s.env.emuQ) ∧
      (AudMove (s.setEnv e) t ∨ EmuMove (.use (.rst 1#1) ∈ s.env.emuQ) (s.setEnv e) t) := by
    obtain ⟨q, move⟩ := audTurn_cases h
    exact ⟨{ s.env with audQ := q }, fun _ hx => hx, .inl move⟩
  have emu {whole} (h : emuTurn whole s = .next t) : ∃ e, (∀ x ∈ e.emuQ, x ∈ s.env.emuQ) ∧
      (AudMove (s.setEnv e) t ∨ EmuMove (.use (.rst 1#1) ∈ s.env.emuQ) (s.setEnv e) t) := by
    obtain ⟨q, sub, move⟩ := emuTurn_cases h
    exact ⟨{ s.env with emuQ := q }, sub, .inr (move.mono fun hard => List.mem_of_head? hard.2)⟩
  obtain a | a := turn <;> cases a
  · exact emu h
  · exact aud h
  · exact emu h
  · exact aud h

/-- What one step can do: a move of either agent, the environment's inputs having been read. -/
theorem step_cases {s t : State} (h : step s = .next t) : ∃ e, (∀ x ∈ e.emuQ, x ∈ s.env.emuQ) ∧
    (AudMove (s.setEnv e) t ∨ EmuMove (.use (.rst 1#1) ∈ s.env.emuQ) (s.setEnv e) t) := by
  change nextTurn s = _ at h
  unfold nextTurn at h
  split at h
  · obtain ⟨e, sub, move⟩ := runTurn_cases h
    exact ⟨e, sub, move⟩
  · split at h
    · obtain rfl := Host.Outcome.next.inj h
      exact ⟨s.env, fun _ hx => hx, .inl .nothing⟩
    · obtain ⟨e, sub, move⟩ := runTurn_cases h
      exact ⟨e, sub, move⟩

end Sys2Proof.Machine
end

section
/-! Every step keeps the FIFO's invariant (10_state.md R38, R39), by the moves a step is made of. -/
namespace Sys2Proof.Machine

/-- An empty FIFO meets the invariant (10_state.md R41). -/
theorem fifoInv_atReset {cap : Nat} (pos : 0 < cap) : FifoInv cap Fifo.atReset where
  cursors := by
    refine ⟨rfl, rfl, fun x hx => ?_, ?_⟩
    · have : x = 0 := by simpa [Fifo.positions, Fifo.atReset] using hx
      omega
    · simp [Fifo.positions, Fifo.atReset, walkLength]
  slots := by
    refine ⟨rfl, nofun, fun k hk => ?_⟩
    simp [Fifo.fill, Fifo.atReset] at hk
  producing := nofun
  consuming := nofun

theorem Params.capacity_ge_of_valid {p : Params} (h : p.Valid) : 2 ≤ p.capacity := by
  obtain ⟨-, -, -, -, -, -, -, -, -, -, -, cap⟩ := h
  exact cap

theorem FifoInv.audMove {s t : State} (h : FifoInv s.cfg.capacity s.fifo) (move : AudMove s t) :
    FifoInv t.cfg.capacity t.fifo := by
  cases move with
  | nothing => exact h
  | atom => rw [(consumeAtom_onlyFifo s).cfg]; exact h.consumeAtom
  | begins n idle => exact h.consumeBegin n idle
  | whole n idle => exact h.runConsume n idle

theorem FifoInv.exec {i : Instr} {s t : State} (h : FifoInv s.cfg.capacity s.fifo) (run : exec i s = .next t) :
    FifoInv t.cfg.capacity t.fifo := by
  obtain ⟨fifo, -, cfg, -⟩ | ⟨burst, -, idle, rfl⟩ | ⟨n, -, idle, rfl⟩ | ⟨-, idle, rfl⟩ | ⟨-, valid, rfl⟩ := exec_fifo_cases run
  · rwa [fifo, cfg]
  · exact h.runProduce burst idle
  · exact h.runConsume n idle
  · exact h.loadRcur idle
  · exact fifoInv_atReset (Nat.zero_lt_of_lt (Params.capacity_ge_of_valid valid))

theorem FifoInv.emuMove {p : Prop} {s t : State} (h : FifoInv s.cfg.capacity s.fifo) (move : EmuMove p s t) :
    FifoInv t.cfg.capacity t.fifo := by
  cases move with
  | nothing => exact h
  | atom => rw [(produceAtom_onlyFifo s).cfg]; exact h.produceAtom
  | begins burst idle => exact h.produceBegin burst idle
  | operation _ _ run => exact h.exec run
  | live _ => exact h
  | params _ => exact h

theorem FifoInv.step {s t : State} (h : FifoInv s.cfg.capacity s.fifo) (run : step s = .next t) :
    FifoInv t.cfg.capacity t.fifo := by
  obtain ⟨e, -, move | move⟩ := step_cases run
  · exact FifoInv.audMove (s := s.setEnv e) h move
  · exact FifoInv.emuMove (s := s.setEnv e) h move

/-- Settles O41: each move a step is made of keeps the invariant. -/
theorem everyStepKeepsTheFifoInvariant : Obligations.EveryStepKeepsTheFifoInvariant := by
  unfold Obligations.EveryStepKeepsTheFifoInvariant
  intro s t _ h run
  exact h.step run

end Sys2Proof.Machine
end

section
/-! Every accepted frame is delivered once, in order (43_fifo_ops.md R210): each move keeps the frames received, then those queued, equal
to those queued before, then those published. -/
namespace Sys2Proof.Machine

/-! Runs of slots. -/

@[simp] theorem slotRun_length (cap : Nat) (slots : Memory) (start k : Nat) : (slotRun cap slots start k).length = k := by
  simp [slotRun]

theorem slotRun_add (cap : Nat) (slots : Memory) (start j k : Nat) :
    slotRun cap slots start (j + k) = slotRun cap slots start j ++ slotRun cap slots (advance cap start j) k := by
  simp [slotRun, List.range_add, advance_advance, Function.comp_def]

theorem slotRun_congr {cap : Nat} {slots slots' : Memory} {start k : Nat}
    (same : ∀ i, i < k → slotLookup (advance cap start i) slots' = slotLookup (advance cap start i) slots) :
    slotRun cap slots' start k = slotRun cap slots start k :=
  List.map_congr_left fun i hi => by rw [same i (List.mem_range.mp hi)]

/-- Publishing `a` slots puts their frames at the end of the queue. -/
theorem CursorInv.queue_publish {cap a : Nat} {q q' : Fifo} (h : CursorInv cap q) (room : a ≤ freeSlots cap q)
    (rcur : q'.rcur = q.rcur) (wcur : q'.wcur = advance cap q.wcur a)
    (keeps : ∀ k, k < q.fill cap → slotLookup (advance cap q.rcur k) q'.slots = slotLookup (advance cap q.rcur k) q.slots) :
    q'.queue cap = q.queue cap ++ slotRun cap q'.slots q.wcur a := by
  obtain ⟨-, hr, -, hw⟩ := h.lt
  have back : advance cap q.rcur (q.fill cap) = q.wcur := advance_ringDist hr hw
  rw [Fifo.queue, Fifo.fill, rcur, wcur, h.fill_storeWcur room, slotRun_add, slotRun_congr keeps, back, Fifo.queue]

/-- Taking `m` frames takes them off the front of the queue. -/
theorem CursorInv.queue_take {cap m : Nat} {q q' : Fifo} (h : CursorInv cap q) (avail : m ≤ q.fill cap)
    (slots : q'.slots = q.slots) (wcur : q'.wcur = q.wcur) (rcur : q'.rcur = advance cap q.rcur m) :
    q.queue cap = slotRun cap q.slots q.rcur m ++ q'.queue cap := by
  have rest : q'.queue cap = slotRun cap q.slots (advance cap q.rcur m) (q.fill cap - m) := by
    rw [Fifo.queue, Fifo.fill, slots, wcur, rcur, h.fill_storeRcur avail]
  rw [rest, ← slotRun_add, Nat.add_sub_cancel' avail, Fifo.queue]

/-! One step. -/

/-- Nothing was lost, doubled or put out of order between two states. -/
def Conserves (s t : State) : Prop :=
  s.fifo.queue s.cfg.capacity ++ published s t = received s t ++ t.fifo.queue t.cfg.capacity

theorem published_eq_nil {s t : State} (wcur : t.fifo.wcur = s.fifo.wcur) : published s t = [] := by
  rw [published, wcur, ringDist_self]; rfl

theorem received_eq_nil {s t : State} (rcur : t.fifo.rcur = s.fifo.rcur) : received s t = [] := by
  rw [received, rcur, ringDist_self, List.take_zero]

theorem conserves_of_same_queue {s t : State} (wcur : t.fifo.wcur = s.fifo.wcur) (rcur : t.fifo.rcur = s.fifo.rcur)
    (queue : t.fifo.queue t.cfg.capacity = s.fifo.queue s.cfg.capacity) : Conserves s t := by
  rw [Conserves, published_eq_nil wcur, received_eq_nil rcur, List.append_nil, List.nil_append, queue]

/-- Where the cursors and the slots stay, so does the queue. -/
theorem conserves_of_same_slots {s t : State} (cfg : t.cfg = s.cfg) (wcur : t.fifo.wcur = s.fifo.wcur)
    (rcur : t.fifo.rcur = s.fifo.rcur) (slots : t.fifo.slots = s.fifo.slots) : Conserves s t :=
  conserves_of_same_queue wcur rcur (by simp only [Fifo.queue, Fifo.fill, cfg, wcur, rcur, slots])

/-- A store of `WCUR` publishes what it adds to the queue. -/
theorem conserves_of_publish {s t : State} (added : List Frame) (cfg : t.cfg = s.cfg) (rcur : t.fifo.rcur = s.fifo.rcur)
    (queue : t.fifo.queue s.cfg.capacity = s.fifo.queue s.cfg.capacity ++ added) (new : published s t = added) : Conserves s t := by
  rw [Conserves, new, received_eq_nil rcur, cfg, queue, List.nil_append]

theorem published_of_advance {s t : State} {a : Nat} (inv : CursorInv s.cfg.capacity s.fifo) (cfg : t.cfg = s.cfg)
    (lap : a < s.cfg.capacity) (wcur : t.fifo.wcur = advance s.cfg.capacity s.fifo.wcur a) :
    published s t = slotRun s.cfg.capacity t.fifo.slots s.fifo.wcur a := by
  obtain ⟨-, -, -, hw⟩ := inv.lt
  rw [published, cfg, wcur, ringDist_advance hw lap]

/-- A store of `RCUR` takes off the queue what AUD receives. -/
theorem conserves_of_take {s t : State} {m : Nat} {filler : List Frame} (inv : CursorInv s.cfg.capacity s.fifo)
    (avail : m ≤ s.fifo.fill s.cfg.capacity) (cfg : t.cfg = s.cfg) (slots : t.fifo.slots = s.fifo.slots)
    (wcur : t.fifo.wcur = s.fifo.wcur) (rcur : t.fifo.rcur = advance s.cfg.capacity s.fifo.rcur m)
    (out : t.bus.popOut = slotRun s.cfg.capacity s.fifo.slots s.fifo.rcur m ++ filler) : Conserves s t := by
  obtain ⟨-, hr, -, -⟩ := inv.lt
  have := inv.fill_add_free
  have got : received s t = slotRun s.cfg.capacity s.fifo.slots s.fifo.rcur m := by
    rw [received, cfg, rcur, ringDist_advance hr (by omega), out, List.take_left' (slotRun_length ..)]
  rw [Conserves, published_eq_nil wcur, got, List.append_nil, cfg, inv.queue_take avail slots wcur rcur]

/-! A whole PRODUCE, slot by slot. -/

/-- The accepted frames land in consecutive slots (R200). -/
theorem runProduce_landed (burst : List Frame) (s : State) {i : Nat} (hi : i < (accepted burst s).length) :
    slotLookup (advance s.cfg.capacity s.fifo.wcur i) (runProduce burst s).fifo.slots = (accepted burst s)[i]? := by
  have written : (advance s.cfg.capacity s.fifo.wcur i, (accepted burst s)[i]) ∈
      slotWrites s.cfg.capacity s.fifo.wcur 0 (accepted burst s) := by
    rw [List.mem_iff_getElem?]
    exact ⟨i, by rw [slotWrites_getElem?, Nat.zero_add, List.getElem?_eq_getElem hi]; rfl⟩
  rw [runProduce_fifo, List.getElem?_eq_getElem hi]
  exact writeAll_lookup _ _ (slotWrites_once _ (accepted_le_capacity burst s)) _ written

/-- Every other slot keeps its content (R200). -/
theorem runProduce_lookup_other (burst : List Frame) (s : State) {x : Nat}
    (other : ∀ i, i < (accepted burst s).length → x ≠ advance s.cfg.capacity s.fifo.wcur i) :
    slotLookup x (runProduce burst s).fifo.slots = slotLookup x s.fifo.slots := by
  rw [runProduce_fifo]
  refine writeAll_lookup_other _ _ _ fun w hw => ?_
  obtain ⟨i, hi⟩ := List.mem_iff_getElem?.mp hw
  rw [slotWrites_getElem?, Nat.zero_add] at hi
  obtain ⟨f, hf, rfl⟩ := Option.map_eq_some_iff.mp hi
  exact other i (List.getElem?_eq_some_iff.mp hf).1

/-- The slots a whole PRODUCE publishes hold what it accepted. -/
theorem runProduce_slotRun (burst : List Frame) (s : State) :
    slotRun s.cfg.capacity (runProduce burst s).fifo.slots s.fifo.wcur (accepted burst s).length = accepted burst s := by
  apply List.ext_getElem?
  intro i
  by_cases hi : i < (accepted burst s).length
  · rw [slotRun, List.getElem?_map, List.getElem?_range hi, Option.map_some, runProduce_landed burst s hi,
      List.getElem?_eq_getElem hi, Option.getD_some]
  · rw [List.getElem?_eq_none (by rw [slotRun_length]; omega), List.getElem?_eq_none (by omega)]

/-- A whole PRODUCE puts what it accepts at the end of the queue. -/
theorem FifoInv.queue_runProduce {s : State} (burst : List Frame) (h : FifoInv s.cfg.capacity s.fifo)
    (idle : s.fifo.producing = none) : (Machine.runProduce burst s).fifo.queue s.cfg.capacity =
      s.fifo.queue s.cfg.capacity ++ accepted burst s := by
  have loaded := (h.loadRcur idle).cursors
  have room := accepted_le_free burst s
  have published := loaded.queue_publish (q' := (Machine.runProduce burst s).fifo) room
    (by rw [runProduce_fifo]) (by rw [runProduce_fifo]; rfl)
    fun k valid => runProduce_lookup_other burst s fun i hi => loaded.valid_ne_free valid (hi.trans_le room)
  exact published.trans (congrArg _ (runProduce_slotRun burst s))

/-- A slot write of a PRODUCE in flight leaves the queue as it is (R204). -/
theorem FifoInv.queue_slotWrite {cap j : Nat} {q : Fifo} {c : ProduceCtl} {w : Nat × Frame} (h : FifoInv cap q)
    (hc : q.producing = some c) (hw : c.pending[j]? = some w) (p : Option ProduceCtl) :
    Fifo.queue cap { q.slotWrite w.1 w.2 with producing := p } = q.queue cap :=
  slotRun_congr fun _ valid => h.lookup_slotWrite hc (List.mem_of_getElem? hw) valid

theorem FifoInv.conserves_produceAtom {s : State} (h : FifoInv s.cfg.capacity s.fifo) : Conserves s (Machine.produceAtom s) := by
  cases hc : s.fifo.producing with
  | none => rw [Machine.produceAtom, hc]; exact conserves_of_same_slots rfl rfl rfl rfl
  | some c =>
    obtain ⟨-, e⟩ | ⟨j, w, e', hw, -, e⟩ := produceAtom_cases hc
    · rw [e]
      have room := (h.producing c hc).fits
      have := h.cursors.fill_add_free
      have lap : c.accepted.length < s.cfg.capacity := by
        obtain ⟨_, _, _, _⟩ := h.cursors.lt
        omega
      exact conserves_of_publish _ rfl rfl (h.cursors.queue_publish room rfl rfl fun _ _ => rfl)
        (published_of_advance h.cursors rfl lap rfl)
    · rw [e]; exact conserves_of_same_queue rfl rfl (h.queue_slotWrite hc hw _)

theorem FifoInv.conserves_runProduce {s : State} (burst : List Frame) (h : FifoInv s.cfg.capacity s.fifo)
    (idle : s.fifo.producing = none) : Conserves s (Machine.runProduce burst s) := by
  have room := accepted_le_free burst s
  have := (h.loadRcur idle).cursors.fill_add_free
  have lap : (accepted burst s).length < s.cfg.capacity := by
    obtain ⟨_, _, _, _⟩ := h.cursors.lt
    omega
  refine conserves_of_publish _ rfl (by rw [runProduce_fifo]; rfl) (h.queue_runProduce burst idle) ?_
  rw [published_of_advance (t := Machine.runProduce burst s) h.cursors rfl lap (by rw [runProduce_fifo]), runProduce_slotRun]

theorem FifoInv.conserves_consumeAtom {s : State} (h : FifoInv s.cfg.capacity s.fifo) : Conserves s (Machine.consumeAtom s) := by
  cases hc : s.fifo.consuming with
  | none => rw [Machine.consumeAtom, hc]; exact conserves_of_same_slots rfl rfl rfl rfl
  | some c =>
    obtain ⟨done, e⟩ | ⟨j, w, e', hw, -, e⟩ := consumeAtom_cases hc
    · rw [e]; exact conserves_of_take h.cursors (h.got_le_fill hc) rfl rfl rfl rfl (h.delivered_eq hc done)
    · rw [e]; exact conserves_of_same_slots rfl rfl rfl rfl

theorem FifoInv.conserves_runConsume {s : State} (n : Nat) (h : FifoInv s.cfg.capacity s.fifo)
    (idle : s.fifo.consuming = none) : Conserves s (Machine.runConsume n s) := by
  have avail := (Nat.min_le_right n _).trans (h.loadWcur idle).cursors.avail_le_fill
  exact conserves_of_take h.cursors avail rfl rfl rfl rfl (by rw [h.runConsume_bus n idle])

theorem FifoInv.conserves_audMove {s t : State} (h : FifoInv s.cfg.capacity s.fifo) (move : AudMove s t) : Conserves s t := by
  cases move with
  | nothing => exact conserves_of_same_slots rfl rfl rfl rfl
  | atom => exact h.conserves_consumeAtom
  | begins n idle => exact conserves_of_same_slots rfl rfl rfl rfl
  | whole n idle => exact h.conserves_runConsume n idle

theorem FifoInv.conserves_exec {i : Instr} {s t : State} (h : FifoInv s.cfg.capacity s.fifo) (soft : i ≠ .resetHard)
    (run : Machine.exec i s = .next t) : Conserves s t := by
  obtain ⟨fifo, -, cfg, -⟩ | ⟨burst, -, idle, rfl⟩ | ⟨n, -, idle, rfl⟩ | ⟨-, idle, rfl⟩ | ⟨hard, -⟩ := exec_fifo_cases run
  · exact conserves_of_same_slots cfg (by rw [fifo]) (by rw [fifo]) (by rw [fifo])
  · exact h.conserves_runProduce burst idle
  · exact h.conserves_runConsume n idle
  · exact conserves_of_same_slots rfl rfl rfl rfl
  · exact absurd hard soft

theorem FifoInv.conserves_emuMove {p : Prop} {s t : State} (h : FifoInv s.cfg.capacity s.fifo) (soft : ¬ p)
    (move : EmuMove p s t) : Conserves s t := by
  cases move with
  | nothing => exact conserves_of_same_slots rfl rfl rfl rfl
  | atom => exact h.conserves_produceAtom
  | begins burst idle => exact conserves_of_same_slots rfl rfl rfl rfl
  | operation _ hard run => exact h.conserves_exec (soft ∘ hard) run
  | live _ => exact conserves_of_same_slots rfl rfl rfl rfl
  | params _ => exact conserves_of_same_slots rfl rfl rfl rfl

/-- One step without a hard reset loses, doubles and reorders nothing. -/
theorem FifoInv.conserves_step {s t : State} (h : FifoInv s.cfg.capacity s.fifo) (soft : NoHardReset s)
    (run : Machine.step s = .next t) : Conserves s t := by
  obtain ⟨e, -, move | move⟩ := step_cases run
  · exact FifoInv.conserves_audMove (s := s.setEnv e) h move
  · exact FifoInv.conserves_emuMove (s := s.setEnv e) h soft move

/-! What EMU will issue. -/

theorem AudMove.emuQ {s t : State} (move : AudMove s t) : t.env.emuQ = s.env.emuQ := by
  cases move with
  | nothing => rfl
  | atom => exact (consumeAtom_onlyFifo s).emuQ
  | begins n _ => exact (consumeBegin_onlyFifo n s).emuQ
  | whole n _ => exact (runConsume_onlyFifo n s).emuQ

theorem exec_emuQ {i : Instr} {s t : State} (run : exec i s = .next t) : t.env.emuQ = s.env.emuQ := by
  obtain ⟨-, -, -, -, -, env⟩ | ⟨burst, -, -, rfl⟩ | ⟨n, -, -, rfl⟩ | ⟨-, -, rfl⟩ | ⟨-, -, rfl⟩ := exec_fifo_cases run
  · rw [env]
  · exact (runProduce_onlyFifo burst s).emuQ
  · exact (runConsume_onlyFifo n s).emuQ
  · exact (runCount_onlyFifo s).emuQ
  · rfl

theorem EmuMove.emuQ {p : Prop} {s t : State} (move : EmuMove p s t) : t.env.emuQ = s.env.emuQ := by
  cases move with
  | nothing => rfl
  | atom => exact (produceAtom_onlyFifo s).emuQ
  | begins burst _ => exact (produceBegin_onlyFifo burst s).emuQ
  | operation _ _ run => exact exec_emuQ run
  | live _ => rfl
  | params _ => rfl

/-- A step only takes events off EMU's queue. -/
theorem NoHardReset.step {s t : State} (soft : NoHardReset s) (run : step s = .next t) : NoHardReset t := by
  obtain ⟨e, sub, move | move⟩ := step_cases run
  · exact fun hard => soft (sub _ (move.emuQ ▸ hard))
  · exact fun hard => soft (sub _ (move.emuQ ▸ hard))

/-- Settles O44, by induction on the number of steps: `FifoInv.conserves_step` serves each, and the invariant goes on. -/
theorem everyFrameDeliveredOnceInOrder : Obligations.EveryFrameDeliveredOnceInOrder := by
  unfold Obligations.EveryFrameDeliveredOnceInOrder
  intro k s t valid h soft run
  clear valid
  induction k generalizing s with
  | zero =>
    obtain rfl := Option.some.inj run
    simp [publishedIn, receivedIn]
  | succ k ih =>
    simp only [stepsTo] at run
    simp only [publishedIn, receivedIn]
    cases next : step s with
    | next u =>
      simp only [next] at run ⊢
      have one : Conserves s u := h.conserves_step soft next
      rw [← List.append_assoc, one, List.append_assoc, ih u (h.step next) (soft.step next) run, List.append_assoc]
    | fault f => cases f
    | refused r => simp only [next] at run; cases run

end Sys2Proof.Machine
end

section
/-! Channel time (41_psg_sample.md R141 to R146): the accumulation loop is channel time taken unit by unit, and what follows from that. -/
namespace Sys2Proof.Machine
variable {boundary : Osc → Osc} {period : Nat}

theorem reload_of_pos {o : Osc} (running : 0 < o.cnt) : reload boundary period o = o := if_neg running.ne'

theorem reload_cnt_pos (pos : 0 < period) (o : Osc) : 0 < (reload boundary period o).cnt := by
  unfold reload
  split
  · exact pos
  · exact Nat.pos_of_ne_zero ‹_›

theorem reload_cnt_le (o : Osc) : (reload boundary period o).cnt ≤ max period o.cnt := by
  unfold reload
  split
  · exact Nat.le_max_left ..
  · exact Nat.le_max_right ..

/-- A half-period, or the part of one that the counter still holds, unit by unit. -/
theorem byUnits_segment {seg : Nat} (m : Nat) {o : Osc} (nonempty : 0 < seg) (fits : seg ≤ o.cnt) :
    byUnits boundary period (seg + m) o =
      ((if o.out then seg else 0) + (byUnits boundary period m (reload boundary period { o with cnt := o.cnt - seg })).1,
       (byUnits boundary period m (reload boundary period { o with cnt := o.cnt - seg })).2) := by
  induction seg generalizing o with
  | zero => cases nonempty
  | succ seg ih =>
    rw [Nat.add_right_comm, byUnits, unitTick]
    rcases Nat.eq_zero_or_pos seg with rfl | more
    · simp
    · have running : 0 < o.cnt - 1 := by omega
      rw [reload_of_pos (o := { o with cnt := o.cnt - 1 }) running, ih (o := { o with cnt := o.cnt - 1 }) more (by simp only; omega)]
      simp only [Nat.sub_sub, Nat.add_comm 1 seg, ← Nat.add_assoc]
      cases o.out <;> simp [Nat.add_comm]

/-- The loop over half-periods is channel time taken unit by unit (R142). -/
theorem accLoop_eq_byUnits (pos : 0 < period) {fuel left : Nat} (enough : left < fuel) (high : Nat) (o : Osc) :
    accLoop boundary period fuel left high o =
      (high + (byUnits boundary period left (reload boundary period o)).1,
       (byUnits boundary period left (reload boundary period o)).2) := by
  induction fuel generalizing left high o with
  | zero => cases enough
  | succ fuel ih =>
    have running := reload_cnt_pos (boundary := boundary) pos o
    unfold accLoop
    dsimp only
    generalize reload boundary period o = r at running ⊢
    split
    next done => subst done; rfl
    next more =>
      have segment := byUnits_segment (boundary := boundary) (period := period) (left - min r.cnt left) (o := r)
        (by omega : 0 < min r.cnt left) (Nat.min_le_left ..)
      rw [Nat.add_sub_cancel' (Nat.min_le_right ..)] at segment
      rw [ih (by omega), segment]
      cases r.out <;> simp [Nat.add_assoc]

theorem acc_eq_windowByUnits (boundary : Osc → Osc) (period unit : Nat) (o : Osc) :
    acc boundary period unit o = windowByUnits boundary period unit o := by
  unfold acc windowByUnits
  split
  · rfl
  next nonzero => rw [accLoop_eq_byUnits (Nat.pos_of_ne_zero nonzero) (Nat.lt_succ_self unit), Nat.zero_add]

/-- With a period, a window is channel time from the counter's boundary on, if that is due. -/
theorem acc_of_pos (pos : 0 < period) (unit : Nat) (o : Osc) :
    acc boundary period unit o = byUnits boundary period unit (reload boundary period o) := by
  rw [acc_eq_windowByUnits, windowByUnits, if_neg pos.ne']

/-- Settles O15: `acc_eq_windowByUnits`, by induction on the loop's fuel. -/
theorem accumulationEqualsUnitByUnitTime : Obligations.AccumulationEqualsUnitByUnitTime := by
  unfold Obligations.AccumulationEqualsUnitByUnitTime
  exact acc_eq_windowByUnits

theorem byUnits_add (a b : Nat) (o : Osc) : byUnits boundary period (a + b) o =
    ((byUnits boundary period a o).1 + (byUnits boundary period b (byUnits boundary period a o).2).1,
     (byUnits boundary period b (byUnits boundary period a o).2).2) := by
  induction a generalizing o with
  | zero => simp [byUnits]
  | succ a ih =>
    rw [Nat.add_right_comm]
    simp only [byUnits, ih, Nat.add_assoc]

theorem byUnits_high_le (n : Nat) (o : Osc) : (byUnits boundary period n o).1 ≤ n := by
  induction n generalizing o with
  | zero => exact Nat.le_refl 0
  | succ n ih =>
    have := ih (unitTick boundary period o)
    simp only [byUnits]
    split <;> omega

theorem byUnits_cnt_pos (pos : 0 < period) (n : Nat) {o : Osc} (running : 0 < o.cnt) :
    0 < (byUnits boundary period n o).2.cnt := by
  induction n generalizing o with
  | zero => exact running
  | succ n ih => exact ih (reload_cnt_pos pos _)

theorem byUnits_cnt_le (n : Nat) (o : Osc) : (byUnits boundary period n o).2.cnt ≤ max period o.cnt := by
  induction n generalizing o with
  | zero => exact Nat.le_max_right ..
  | succ n ih =>
    have step : (unitTick boundary period o).cnt ≤ max period (o.cnt - 1) := reload_cnt_le _
    exact (ih _).trans (by omega)

/-- After a window no boundary is due. -/
theorem reload_acc (pos : 0 < period) (unit : Nat) (o : Osc) :
    reload boundary period (acc boundary period unit o).2 = (acc boundary period unit o).2 := by
  rw [acc_of_pos pos]
  exact reload_of_pos (byUnits_cnt_pos pos unit (reload_cnt_pos pos o))

/-- Settles O16: units add up (`byUnits_add`), and the second window finds no boundary due (`reload_acc`). -/
theorem channelTimeIsContinuous : Obligations.ChannelTimeIsContinuous := by
  unfold Obligations.ChannelTimeIsContinuous
  intro boundary period a b o pos
  rw [acc_of_pos pos b, reload_acc pos, acc_of_pos pos, acc_of_pos pos, byUnits_add]

/-- Settles O17: each bound is an induction over the units of the window. -/
theorem accumulationBounds : Obligations.AccumulationBounds := by
  unfold Obligations.AccumulationBounds
  intro boundary period unit o
  constructor
  · rcases Nat.eq_zero_or_pos period with rfl | pos
    · exact Nat.le_refl unit
    · rw [acc_of_pos pos]; exact byUnits_high_le ..
  · intro pos
    have := reload_cnt_le (boundary := boundary) (period := period) o
    have := byUnits_cnt_le (boundary := boundary) (period := period) unit (reload boundary period o)
    rw [acc_of_pos pos]
    exact ⟨byUnits_cnt_pos pos unit (reload_cnt_pos pos o), by omega⟩

/-! A tone over whole periods. -/

/-- Half a period of a tone inverts its level and leaves its phase where it was. -/
theorem byUnits_tone_half {o : Osc} (running : 0 < o.cnt) (phase : o.cnt ≤ period) :
    byUnits toneBoundary period period o = (if o.out then o.cnt else period - o.cnt, { o with out := !o.out }) := by
  have pos : 0 < period := by omega
  have first := byUnits_segment (boundary := toneBoundary) (period := period) (period - o.cnt) running (Nat.le_refl o.cnt)
  rw [Nat.add_sub_cancel' phase, Nat.sub_self] at first
  have flipped : reload toneBoundary period { o with cnt := 0 } = ⟨period, !o.out, o.lfsr⟩ := rfl
  rw [first, flipped]
  rcases Nat.eq_zero_or_pos (period - o.cnt) with ended | rest
  · obtain rfl : o.cnt = period := by omega
    rw [ended]
    cases o.out <;> simp [byUnits]
  · have second := byUnits_segment (boundary := toneBoundary) (period := period) 0 (o := ⟨period, !o.out, o.lfsr⟩) rest (Nat.sub_le ..)
    have back : period - (period - o.cnt) = o.cnt := by omega
    simp only [Nat.add_zero, back, byUnits] at second
    rw [reload_of_pos (o := ⟨o.cnt, !o.out, o.lfsr⟩) running] at second
    rw [second]
    cases o.out <;> simp

/-- A whole period of a tone is high for half of it and leaves the channel where it was. -/
theorem byUnits_tone_whole {o : Osc} (running : 0 < o.cnt) (phase : o.cnt ≤ period) :
    byUnits toneBoundary period (2 * period) o = (period, o) := by
  rw [Nat.two_mul, byUnits_add, byUnits_tone_half running phase, byUnits_tone_half (o := { o with out := !o.out }) running phase]
  obtain ⟨cnt, out, lfsr⟩ := o
  cases out <;> simp_all

theorem byUnits_tone_wholes (k : Nat) {o : Osc} (running : 0 < o.cnt) (phase : o.cnt ≤ period) :
    byUnits toneBoundary period (2 * period * k) o = (period * k, o) := by
  induction k with
  | zero => rfl
  | succ k ih => rw [Nat.mul_succ, byUnits_add, ih, byUnits_tone_whole running phase]; rfl

/-- Windows in a row are one long window (R141). -/
theorem windows_high (pos : 0 < period) (unit m : Nat) (o : Osc) :
    (windows boundary period unit m o).1 = (byUnits boundary period (m * unit) (reload boundary period o)).1 := by
  induction m generalizing o with
  | zero => simp [windows, byUnits]
  | succ m ih =>
    rw [Nat.succ_mul, Nat.add_comm (m * unit), byUnits_add, ← acc_of_pos pos]
    simp only [windows, ih, reload_acc pos]

/-- Settles O18: the windows are one run of units (`windows_high`), and those are whole periods (`byUnits_tone_wholes`). -/
theorem toneIsHighHalfOfWholePeriods : Obligations.ToneIsHighHalfOfWholePeriods := by
  unfold Obligations.ToneIsHighHalfOfWholePeriods
  rintro period unit m o pos phase ⟨k, whole⟩
  have phase' := (reload_cnt_le (boundary := toneBoundary) o).trans (max_le (Nat.le_refl period) phase)
  rw [windows_high pos, whole, byUnits_tone_wholes k (reload_cnt_pos pos o) phase', Nat.mul_assoc]

end Sys2Proof.Machine
end

section
/-! SAMPLE and UPDATE (41_psg_sample.md R140, R143, R149, R153) and the silence after a hard reset (R262). -/
namespace Sys2Proof.Machine

theorem exec_sample (s : State) : exec .sample s =
    .next ((s.setPsg (samplePsg s.cfg s.psg).2).setBus { s.bus with psgOut := (samplePsg s.cfg s.psg).1 }) := rfl

theorem exec_update (n : Nat) (s : State) : exec (.update n) s =
    .next ((s.setPsg (updatePsg s.cfg n s.psg).2).setBus { s.bus with updOut := (updatePsg s.cfg n s.psg).1 }) := rfl

/-- Settles O14: SAMPLE runs `acc` on each channel, which is `windowByUnits`. -/
theorem sampleWeighsTheHighTimes : Obligations.SampleWeighsTheHighTimes := by
  unfold Obligations.SampleWeighsTheHighTimes
  intro s
  simp only [← acc_eq_windowByUnits]
  rfl

/-! One channel of SAMPLE. -/

theorem samplePsg_out (p : Params) (g : Psg) (c : ToneCh) : (samplePsg p g).2.out.get c.chan = (accTone p g c).2.out := by
  cases c <;> rfl

theorem samplePsg_cnt (p : Params) (g : Psg) (c : ToneCh) : (samplePsg p g).2.cnt.get c.chan = (accTone p g c).2.cnt := by
  cases c <;> rfl

theorem accTone_of_zero {p : Params} {g : Psg} {c : ToneCh} (held : g.period.get c.chan = 0) :
    accTone p g c = (p.unit, holdHigh ⟨g.cnt.get c.chan, g.out.get c.chan, g.lfsr⟩) := if_pos held

theorem accNoise_of_zero {p : Params} {g : Psg} (held : g.period.n = 0) :
    accNoise p g = (p.unit, holdHigh ⟨g.cnt.n, g.out.n, g.lfsr⟩) := if_pos held

/-- Settles O19: a channel with period 0 is only held high (`accTone_of_zero`, `accNoise_of_zero`). -/
theorem zeroPeriodHoldsTheChannelHigh : Obligations.ZeroPeriodHoldsTheChannelHigh := by
  unfold Obligations.ZeroPeriodHoldsTheChannelHigh
  intro s
  refine ⟨_, exec_sample s, fun c held => ⟨?_, ?_, ?_⟩, fun held => ⟨?_, ?_, ?_, ?_⟩⟩
  · rw [accTone_of_zero held]
  · exact (samplePsg_out ..).trans (by rw [accTone_of_zero held]; rfl)
  · exact (samplePsg_cnt ..).trans (by rw [accTone_of_zero held]; rfl)
  · rw [accNoise_of_zero held]
  · exact congrArg (·.2.out) (accNoise_of_zero held)
  · exact congrArg (·.2.cnt) (accNoise_of_zero held)
  · exact congrArg (·.2.lfsr) (accNoise_of_zero held)

/-- Clamping before the scale or after it is the same (R149). -/
theorem min_mul_div {sum ceil unit : Nat} (pos : 0 < unit) : min sum (ceil * unit) / unit = min (sum / unit) ceil := by
  rcases Nat.le_total sum (ceil * unit) with low | high
  · rw [min_eq_left low, min_eq_left (Nat.div_le_of_le_mul (by rwa [Nat.mul_comm]))]
  · rw [min_eq_right high, Nat.mul_div_cancel _ pos, min_eq_right ((Nat.le_div_iff_mul_le pos).mpr high)]

/-- Settles O22: the clamp of `weigh` taken after the scale (`min_mul_div`). -/
theorem outputIsClampedToTheCeiling : Obligations.OutputIsClampedToTheCeiling := by
  unfold Obligations.OutputIsClampedToTheCeiling
  intro s pos
  refine ⟨_, exec_sample s, ?_⟩
  have clamped : (samplePsg s.cfg s.psg).1 = _ := min_mul_div pos
  rw [State.setBus_bus, clamped]
  exact ⟨Nat.min_le_right .., rfl⟩

/-! UPDATE is SAMPLEs. -/

/-- `n` uses of SAMPLE give the outputs and the PSG of `updatePsg`. -/
theorem sampleTimes_eq (n : Nat) (s : State) :
    ∃ u, sampleTimes n s = some ((updatePsg s.cfg n s.psg).1, u) ∧ u.psg = (updatePsg s.cfg n s.psg).2 := by
  induction n generalizing s with
  | zero => exact ⟨s, rfl, rfl⟩
  | succ n ih =>
    obtain ⟨u, run, psg⟩ := ih ((s.setPsg (samplePsg s.cfg s.psg).2).setBus { s.bus with psgOut := (samplePsg s.cfg s.psg).1 })
    refine ⟨u, ?_, psg⟩
    simp only [sampleTimes, exec_sample, run]
    rfl

/-- Settles O23: by `sampleTimes_eq`, an induction on the number of SAMPLEs. -/
theorem updateIsThatManySamples : Obligations.UpdateIsThatManySamples := by
  unfold Obligations.UpdateIsThatManySamples
  intro n s
  obtain ⟨u, run, psg⟩ := sampleTimes_eq n s
  exact ⟨_, u, run, by rw [psg, exec_update]⟩

theorem updatePsg_add (p : Params) (a b : Nat) (g : Psg) : updatePsg p (a + b) g =
    ((updatePsg p a g).1 ++ (updatePsg p b (updatePsg p a g).2).1, (updatePsg p b (updatePsg p a g).2).2) := by
  induction a generalizing g with
  | zero => simp [updatePsg]
  | succ a ih =>
    rw [Nat.add_right_comm]
    simp only [updatePsg, ih, List.cons_append]

theorem updatePsg_length (p : Params) (n : Nat) (g : Psg) : (updatePsg p n g).1.length = n := by
  induction n generalizing g with
  | zero => rfl
  | succ n ih => exact congrArg Nat.succ (ih _)

/-- Settles O24: UPDATEs of the PSG compose (`updatePsg_add`). -/
theorem updatesCompose : Obligations.UpdatesCompose := by
  unfold Obligations.UpdatesCompose
  intro a b s
  refine ⟨_, _, _, exec_update a s, exec_update b _, exec_update (a + b) s, ?_, ?_, updatePsg_length ..⟩
  · exact (congrArg Prod.snd (updatePsg_add s.cfg a b s.psg) :)
  · exact (congrArg Prod.fst (updatePsg_add s.cfg a b s.psg) :)

/-! Silence. -/

/-- Every channel is at attenuation 15. -/
def Psg.Muted (g : Psg) : Prop := g.volidx = ⟨15#4, 15#4, 15#4, 15#4⟩

theorem samplePsg_muted {p : Params} {g : Psg} (silence : p.vol[15] = 0) (muted : g.Muted) : (samplePsg p g).1 = 0 := by
  have quiet : volOf p 15#4 = 0 := silence
  unfold Psg.Muted at muted
  simp [samplePsg, weigh, muted, quiet]

theorem updatePsg_muted {p : Params} {g : Psg} (silence : p.vol[15] = 0) (muted : g.Muted) (n : Nat) :
    (updatePsg p n g).1 = List.replicate n 0 := by
  induction n generalizing g with
  | zero => rfl
  | succ n ih =>
    have muted' : (samplePsg p g).2.Muted := muted
    rw [List.replicate_succ, ← ih muted', ← samplePsg_muted silence muted]
    rfl

/-- Settles O25: a hard reset leaves every channel at attenuation 15, which valid parameters map to silence, and time changes no
attenuation. -/
theorem silentAfterHardReset : Obligations.SilentAfterHardReset := by
  unfold Obligations.SilentAfterHardReset
  intro s t n reset
  obtain ⟨⟨-, -, -, -, ⟨-, silence, -⟩, -⟩, rfl⟩ := exec_resetHard_inv reset
  exact ⟨_, exec_update n _, updatePsg_muted (p := s.cfgIn) (g := Psg.atReset s.cfgIn) silence rfl n⟩

end Sys2Proof.Machine
end

section
/-! PSG writes (40_psg_writes.md R121 to R127): what each of the three kinds of write leaves of the PSG, and that a byte written twice is
a byte written once (20_memory.md R67). -/
namespace Sys2Proof

theorem PerTone.set_get_self {α : Type} (x : PerTone α) (c : ToneCh) : x.set c (x.get c) = x := by cases c <;> rfl

theorem PerChan.set_set {α : Type} (x : PerChan α) (c : Chan) (v w : α) : (x.set c v).set c w = x.set c w := by cases c <;> rfl

theorem PerChan.ext_get {α : Type} {x y : PerChan α} (tones : ∀ c : ToneCh, x.get c.chan = y.get c.chan) (noise : x.n = y.n) :
    x = y := by
  obtain ⟨x0, x1, x2, xn⟩ := x
  obtain ⟨y0, y1, y2, yn⟩ := y
  obtain rfl : x0 = y0 := tones .t0
  obtain rfl : x1 = y1 := tones .t1
  obtain rfl : x2 = y2 := tones .t2
  obtain rfl : xn = yn := noise
  rfl

namespace Machine

/-! Tone periods. -/

@[simp] theorem rederive_nctrl (p : Params) (g : Psg) (c : ToneCh) : (rederive p g c).nctrl = g.nctrl := by rw [rederive_eq]
@[simp] theorem rederive_volidx (p : Params) (g : Psg) (c : ToneCh) : (rederive p g c).volidx = g.volidx := by rw [rederive_eq]
@[simp] theorem rederive_cnt (p : Params) (g : Psg) (c : ToneCh) : (rederive p g c).cnt = g.cnt := by rw [rederive_eq]
@[simp] theorem rederive_out (p : Params) (g : Psg) (c : ToneCh) : (rederive p g c).out = g.out := by rw [rederive_eq]
@[simp] theorem rederive_lfsr (p : Params) (g : Psg) (c : ToneCh) : (rederive p g c).lfsr = g.lfsr := by rw [rederive_eq]
@[simp] theorem rederive_tapmask (p : Params) (g : Psg) (c : ToneCh) : (rederive p g c).tapmask = g.tapmask := by rw [rederive_eq]

/-- A write of `v` to `TONE[c]`, whatever `LATCH` becomes with it: a latch byte sets it (R121), a data byte keeps it (R126). -/
theorem rederive_toneBecomes (c : ToneCh) (l : BitVec 3) (v : BitVec 10) (s : State) :
    ToneBecomes s (s.setPsg (rederive s.cfg { s.psg with latch := l, tone := s.psg.tone.set c v } c)) c v.toNat := by
  simp only [ToneBecomes, Rederived, State.setPsg_psg, rederive_tone, PerTone.get_set_same, rederive_own, rederive_noise]
  refine ⟨trivial, fun e other => PerTone.get_set_other _ _ other, ⟨rfl, fun e other => rederive_other _ _ other, trivial⟩, ?_⟩
  simp

/-- R121 for every tone channel at once. -/
theorem toneLatchOf_spec (c : ToneCh) (d : BitVec 4) (s : State) :
    ∃ t, exec (toneLatchOf c d) s = .next t ∧ t.psg.latch.toNat = 2 * c.index ∧ OnlyPsg s t ∧
      ToneBecomes s t c ((s.psg.tone.get c).toNat / 16 * 16 + d.toNat) := by
  refine ⟨_, exec_toneLatchOf c d s, ?latched, onlyPsg_setPsg s _, ?tone⟩
  case latched => rw [State.setPsg_psg, latchTone_latch, toneRegister_toNat]
  case tone =>
    rw [← withLow4_toNat]
    exact rederive_toneBecomes c (toneRegister c) _ s

/-- Settles O6: the three tone latches are `toneLatchOf_spec` at each channel. -/
theorem toneLatchWritesLowFourBits : Obligations.ToneLatchWritesLowFourBits := by
  unfold Obligations.ToneLatchWritesLowFourBits
  intro s d
  exact ⟨toneLatchOf_spec .t0 d s, toneLatchOf_spec .t1 d s, toneLatchOf_spec .t2 d s⟩

/-- Settles O9: the data byte goes to the latched channel (`exec_data_of_latched`), and its write is `rederive_toneBecomes` with
`LATCH` kept. -/
theorem dataWritesHighSixBitsOfTheLatchedTone : Obligations.DataWritesHighSixBitsOfTheLatchedTone := by
  unfold Obligations.DataWritesHighSixBitsOfTheLatchedTone
  intro s u c latched
  refine ⟨_, exec_data_of_latched u latched, rederive_latch .., onlyPsg_setPsg s _, ?_⟩
  rw [← withHigh6_toNat]
  exact rederive_toneBecomes c s.psg.latch _ s

/-! Noise control. -/

/-- The noise period, by the number of the rate (10_state.md R28). -/
theorem noisePeriod_eq (p : Params) (nn : BitVec 2) (linked : Nat) : noisePeriod p nn linked =
    if nn.toNat = 0 then p.noiseDiv.d0 * p.updateStep
    else if nn.toNat = 1 then p.noiseDiv.d1 * p.updateStep
    else if nn.toNat = 2 then p.noiseDiv.d2 * p.updateStep
    else 2 * linked := by
  simp [noisePeriod, BitVec.toNat_eq]

theorem tapMask_eq (p : Params) (f : BitVec 1) : tapMask p (f = 1#1) = if f.toNat = 1 then p.tapsWhite else p.tapsPeriodic := by
  simp [tapMask, BitVec.toNat_eq]

/-- Whatever `LATCH` becomes with it: a latch byte sets it (R124), a data byte under `low4` keeps it (R127). -/
theorem setNoiseControl_noiseBecomes (f : BitVec 1) (nn : BitVec 2) (l : BitVec 3) (s : State) :
    NoiseBecomes s (s.setPsg (setNoiseControl s.cfg f nn { s.psg with latch := l })) f.toNat nn.toNat :=
  ⟨noiseControlBits_toNat f nn, tapMask_eq s.cfg f, noisePeriod_eq s.cfg nn _,
    fun e => PerChan.get_set_other _ _ (ToneCh.chan_ne_n e), rfl, rfl,
    fun e => PerChan.get_set_other _ _ (ToneCh.chan_ne_n e), rfl, rfl, rfl⟩

theorem exec_noiseCtrl (f : BitVec 1) (nn : BitVec 2) (s : State) :
    exec (.noiseCtrl f nn) s = .next (s.setPsg (latchNoise s.cfg f nn s.psg)) := rfl

/-- Settles O8: NOISE_CTRL is `setNoiseControl` with register 6 latched. -/
theorem noiseCtrlSetsModeAndPresets : Obligations.NoiseCtrlSetsModeAndPresets := by
  unfold Obligations.NoiseCtrlSetsModeAndPresets
  intro s f nn
  exact ⟨_, exec_noiseCtrl f nn s, rfl, onlyPsg_setPsg s _, setNoiseControl_noiseBecomes f nn noiseRegister s⟩

/-! Data bytes on the other registers. -/

theorem exec_data (u : BitVec 6) (s : State) : exec (.data u) s = .next (s.setPsg (dataByte s.cfg u s.psg)) := rfl

theorem latchedTone_eq_none {l : BitVec 3} (other : ∀ c : ToneCh, l.toNat ≠ 2 * c.index) : latchedTone l = none :=
  Option.eq_none_iff_forall_ne_some.mpr fun c latched => other c ((latchedTone_eq_some l c).mp latched)

theorem dataByte_of_ignore {p : Params} {g : Psg} (u : BitVec 6) (other : ∀ c : ToneCh, g.latch.toNat ≠ 2 * c.index)
    (ignore : p.dataNontone = .ignore) : dataByte p u g = g := by
  rw [dataByte, latchedTone_eq_none other, ignore]

theorem dataByte_of_noise {p : Params} {g : Psg} (u : BitVec 6) (low4 : p.dataNontone = .low4) (latched : g.latch.toNat = 6) :
    dataByte p u g =
      setNoiseControl p (BitVec.extractLsb' 2 1 (dataLow4 u)) (BitVec.extractLsb' 0 2 (dataLow4 u)) g := by
  have six : g.latch = noiseRegister := BitVec.eq_of_toNat_eq latched
  have other (c : ToneCh) : g.latch.toNat ≠ 2 * c.index := by rw [latched]; cases c <;> decide
  rw [dataByte, latchedTone_eq_none other, low4]
  exact if_pos six

theorem dataByte_of_volume {p : Params} {g : Psg} {c : Chan} (u : BitVec 6) (low4 : p.dataNontone = .low4)
    (latched : g.latch.toNat = 2 * c.index + 1) : dataByte p u g = setVolume c (dataLow4 u) g := by
  have other (e : ToneCh) : g.latch.toNat ≠ 2 * e.index := by omega
  have odd : g.latch ≠ noiseRegister := by
    intro six
    rw [six] at latched
    have : noiseRegister.toNat = 6 := rfl
    omega
  rw [dataByte, latchedTone_eq_none other, low4]
  exact (if_neg odd).trans (by rw [latchedChan_of_volume _ c latched])

/-- The register `LATCH` names: a tone's, the noise control's or a volume's (10_state.md R22). -/
theorem latch_cases (l : BitVec 3) : (∃ c : ToneCh, l.toNat = 2 * c.index) ∨
    ((∀ c : ToneCh, l.toNat ≠ 2 * c.index) ∧ (l.toNat = 6 ∨ ∃ c : Chan, l.toNat = 2 * c.index + 1)) := by
  by_cases tone : ∃ c : ToneCh, l.toNat = 2 * c.index
  · exact .inl tone
  · refine .inr ⟨fun c h => tone ⟨c, h⟩, ?_⟩
    have h0 : l.toNat ≠ 0 := fun h => tone ⟨.t0, h⟩
    have h2 : l.toNat ≠ 2 := fun h => tone ⟨.t1, h⟩
    have h4 : l.toNat ≠ 4 := fun h => tone ⟨.t2, h⟩
    have lt := l.isLt
    have : l.toNat = 6 ∨ l.toNat = 1 ∨ l.toNat = 3 ∨ l.toNat = 5 ∨ l.toNat = 7 := by omega
    obtain h | h | h | h | h := this
    · exact .inl h
    · exact .inr ⟨.t0, h⟩
    · exact .inr ⟨.t1, h⟩
    · exact .inr ⟨.t2, h⟩
    · exact .inr ⟨.n, h⟩

/-- All a data byte can do (R126, R127). -/
theorem dataByte_cases (p : Params) (u : BitVec 6) (g : Psg) :
    (∃ c : ToneCh, g.latch.toNat = 2 * c.index ∧ dataByte p u g = dataTone p c u g) ∨
    dataByte p u g = g ∨
    (p.dataNontone = .low4 ∧ g.latch.toNat = 6 ∧ dataByte p u g =
      setNoiseControl p (BitVec.extractLsb' 2 1 (dataLow4 u)) (BitVec.extractLsb' 0 2 (dataLow4 u)) g) ∨
    (p.dataNontone = .low4 ∧ ∃ c : Chan, g.latch.toNat = 2 * c.index + 1 ∧ dataByte p u g = setVolume c (dataLow4 u) g) := by
  obtain ⟨c, latched⟩ | ⟨other, rest⟩ := latch_cases g.latch
  · exact .inl ⟨c, latched, by rw [dataByte, (latchedTone_eq_some _ c).mpr latched]⟩
  · cases policy : p.dataNontone with
    | ignore => exact .inr (.inl (dataByte_of_ignore u other policy))
    | low4 =>
      obtain six | ⟨c, latched⟩ := rest
      · exact .inr (.inr (.inl ⟨rfl, six, dataByte_of_noise u policy six⟩))
      · exact .inr (.inr (.inr ⟨rfl, c, latched, dataByte_of_volume u policy latched⟩))

theorem dataLow4_fields (u : BitVec 6) : (BitVec.extractLsb' 2 1 (dataLow4 u)).toNat = u.toNat / 4 % 2 ∧
    (BitVec.extractLsb' 0 2 (dataLow4 u)).toNat = u.toNat % 4 ∧ dataLow4 u = BitVec.ofNat 4 (u.toNat % 16) := by
  revert u; decide

/-- Settles O10: with no tone latched, `ignore` leaves the PSG, and `low4` makes the byte a noise-control or a volume write with
`LATCH` kept. -/
theorem dataOnOtherRegistersFollowsDataNontone : Obligations.DataOnOtherRegistersFollowsDataNontone := by
  unfold Obligations.DataOnOtherRegistersFollowsDataNontone
  intro s u other
  obtain ⟨mode, rate, index⟩ := dataLow4_fields u
  refine ⟨fun ignore => ?_, fun low4 latched => ⟨_, exec_data u s, ?_⟩, fun low4 c latched => ⟨_, exec_data u s, ?_⟩⟩
  · rw [exec_data, dataByte_of_ignore u other ignore]; rfl
  · rw [dataByte_of_noise u low4 latched, ← mode, ← rate]
    exact ⟨rfl, onlyPsg_setPsg s _, setNoiseControl_noiseBecomes _ _ s.psg.latch s⟩
  · rw [dataByte_of_volume u low4 latched, ← index]
    exact ⟨rfl, onlyPsg_setPsg s _, setVolume_volumeBecomes c _ s.psg.latch s⟩

/-! Every byte at once. -/

/-- No counter and no tone's output level changed. -/
def KeepsTime (g g' : Psg) : Prop := g'.cnt = g.cnt ∧ ∀ c : ToneCh, g'.out.get c.chan = g.out.get c.chan

theorem latchTone_keepsTime (p : Params) (c : ToneCh) (d : BitVec 4) (g : Psg) : KeepsTime g (latchTone p c d g) :=
  ⟨rederive_cnt .., fun e => by rw [latchTone, rederive_out]⟩

theorem dataTone_keepsTime (p : Params) (c : ToneCh) (u : BitVec 6) (g : Psg) : KeepsTime g (dataTone p c u g) :=
  ⟨rederive_cnt .., fun e => by rw [dataTone, rederive_out]⟩

theorem setNoiseControl_keepsTime (p : Params) (f : BitVec 1) (nn : BitVec 2) (g : Psg) :
    KeepsTime g (setNoiseControl p f nn g) :=
  ⟨rfl, fun e => PerChan.get_set_other _ _ (ToneCh.chan_ne_n e)⟩

theorem dataByte_keepsTime (p : Params) (u : BitVec 6) (g : Psg) : KeepsTime g (dataByte p u g) := by
  obtain ⟨c, -, e⟩ | e | ⟨-, -, e⟩ | ⟨-, c, -, e⟩ := dataByte_cases p u g
  · rw [e]; exact dataTone_keepsTime p c u g
  · rw [e]; exact ⟨rfl, fun _ => rfl⟩
  · rw [e]; exact setNoiseControl_keepsTime ..
  · rw [e]; exact ⟨rfl, fun _ => rfl⟩

/-- Periods once derived are derived again to the same (R122). -/
theorem rederive_rederive (p : Params) (g : Psg) (c : ToneCh) : rederive p (rederive p g c) c = rederive p g c := by
  have same : (rederive p (rederive p g c) c).period = (rederive p g c).period := by
    refine PerChan.ext_get (fun e => ?_) ?_
    · by_cases own : e = c
      · subst own; rw [rederive_own, rederive_own, rederive_tone]
      · exact rederive_other _ _ own
    · simp only [rederive_noise, rederive_nctrl, rederive_tone]
      split <;> rfl
  rw [rederive_eq, same]

theorem withLow4_idem (old : BitVec 10) (d : BitVec 4) : withLow4 (withLow4 old d) d = withLow4 old d := by
  apply BitVec.eq_of_toNat_eq
  have := d.isLt
  simp only [withLow4_toNat]; omega

theorem withHigh6_idem (old : BitVec 10) (u : BitVec 6) : withHigh6 (withHigh6 old u) u = withHigh6 old u := by
  apply BitVec.eq_of_toNat_eq
  simp only [withHigh6_toNat]; omega

theorem latchTone_idem (p : Params) (c : ToneCh) (d : BitVec 4) (g : Psg) :
    latchTone p c d (latchTone p c d g) = latchTone p c d g := by
  have written : (latchTone p c d g).tone.set c (withLow4 ((latchTone p c d g).tone.get c) d) = (latchTone p c d g).tone := by
    rw [latchTone_tone, PerTone.get_set_same, withLow4_idem]
    nth_rw 2 [← PerTone.get_set_same g.tone c (withLow4 (g.tone.get c) d)]
    exact PerTone.set_get_self ..
  have latched : (latchTone p c d g).latch = toneRegister c := latchTone_latch ..
  calc latchTone p c d (latchTone p c d g) = rederive p (latchTone p c d g) c := by rw [latchTone, written, ← latched]
    _ = latchTone p c d g := rederive_rederive ..

theorem dataTone_idem (p : Params) (c : ToneCh) (u : BitVec 6) (g : Psg) :
    dataTone p c u (dataTone p c u g) = dataTone p c u g := by
  have written : (dataTone p c u g).tone.set c (withHigh6 ((dataTone p c u g).tone.get c) u) = (dataTone p c u g).tone := by
    rw [dataTone_tone, PerTone.get_set_same, withHigh6_idem]
    nth_rw 2 [← PerTone.get_set_same g.tone c (withHigh6 (g.tone.get c) u)]
    exact PerTone.set_get_self ..
  calc dataTone p c u (dataTone p c u g) = rederive p (dataTone p c u g) c := by rw [dataTone, written]
    _ = dataTone p c u g := rederive_rederive ..

theorem setVolume_idem (c : Chan) (d : BitVec 4) (g : Psg) : setVolume c d (setVolume c d g) = setVolume c d g := by
  simp only [setVolume, PerChan.set_set]

theorem latchVolume_idem (c : Chan) (d : BitVec 4) (g : Psg) : latchVolume c d (latchVolume c d g) = latchVolume c d g :=
  setVolume_idem c d { g with latch := volRegister c }

theorem setNoiseControl_idem (p : Params) (f : BitVec 1) (nn : BitVec 2) (g : Psg) :
    setNoiseControl p f nn (setNoiseControl p f nn g) = setNoiseControl p f nn g := by
  have linked (v : Nat) : (g.period.set .n v).get p.noiseLinkCh.chan = g.period.get p.noiseLinkCh.chan :=
    PerChan.get_set_other _ _ (ToneCh.chan_ne_n _)
  simp only [setNoiseControl, PerChan.set_set, linked]

theorem latchNoise_idem (p : Params) (f : BitVec 1) (nn : BitVec 2) (g : Psg) :
    latchNoise p f nn (latchNoise p f nn g) = latchNoise p f nn g :=
  setNoiseControl_idem p f nn { g with latch := noiseRegister }

theorem dataByte_idem (p : Params) (u : BitVec 6) (g : Psg) : dataByte p u (dataByte p u g) = dataByte p u g := by
  obtain ⟨c, latched, e⟩ | e | ⟨low4, latched, e⟩ | ⟨low4, c, latched, e⟩ := dataByte_cases p u g
  · have kept : latchedTone (dataTone p c u g).latch = some c := by
      rw [dataTone, rederive_latch]
      exact (latchedTone_eq_some _ c).mpr latched
    rw [e, dataByte, kept]
    exact dataTone_idem p c u g
  · rw [e, e]
  · rw [e, dataByte_of_noise (g := setNoiseControl p _ _ g) u low4 latched, setNoiseControl_idem]
  · rw [e, dataByte_of_volume (g := setVolume c _ g) u low4 latched, setVolume_idem]

/-- What every byte on `PSG_WR` does: a write of the PSG that twice in a row is the same as once and lets no time pass. -/
theorem exec_decodeByte (b : Byte) : ∃ write : Params → Psg → Psg,
    (∀ s, exec (decodeByte b) s = .next (s.setPsg (write s.cfg s.psg))) ∧
    (∀ p g, write p (write p g) = write p g) ∧ (∀ p g, KeepsTime g (write p g)) := by
  obtain ⟨c, d, e⟩ | ⟨c, d, e⟩ | ⟨f, nn, e⟩ | ⟨u, e⟩ := decodeByte_cases b
  · exact ⟨fun p => latchTone p c d, fun s => e ▸ exec_toneLatchOf c d s, fun p => latchTone_idem p c d,
      fun p => latchTone_keepsTime p c d⟩
  · exact ⟨fun _ => latchVolume c d, fun s => e ▸ exec_volWriteOf c d s, fun _ => latchVolume_idem c d,
      fun _ _ => ⟨rfl, fun _ => rfl⟩⟩
  · exact ⟨fun p => latchNoise p f nn, fun s => e ▸ exec_noiseCtrl f nn s, fun p => latchNoise_idem p f nn,
      fun p g => setNoiseControl_keepsTime p f nn { g with latch := noiseRegister }⟩
  · exact ⟨fun p => dataByte p u, fun s => e ▸ exec_data u s, fun p => dataByte_idem p u, fun p => dataByte_keepsTime p u⟩

/-- Settles O12: a byte is a write of the PSG that lets no time pass (`exec_decodeByte`). -/
theorem noWriteByteTouchesCountersOrToneLevels : Obligations.NoWriteByteTouchesCountersOrToneLevels := by
  unfold Obligations.NoWriteByteTouchesCountersOrToneLevels
  intro b s
  obtain ⟨write, run, -, keeps⟩ := exec_decodeByte b
  exact ⟨_, run s, onlyPsg_setPsg s _, keeps s.cfg s.psg⟩

/-- Settles O13: the write of any byte is idempotent (`exec_decodeByte`); NOISE_CTRL, which the statement leaves out, is so too as
long as no time passes in between. -/
theorem writesAreIdempotent : Obligations.WritesAreIdempotent := by
  unfold Obligations.WritesAreIdempotent
  intro b s _
  obtain ⟨write, run, idem, -⟩ := exec_decodeByte b
  refine ⟨_, run s, (run _).trans ?_⟩
  rw [State.setPsg_psg, State.setPsg_cfg, idem]
  rfl

end Machine
end Sys2Proof
end

section
/-! The noise shift register (41_psg_sample.md R144, R145, R155). -/
namespace Sys2Proof.Machine

/-- The feedback is the parity of the number of ones. -/
theorem parityUpTo_eq (v : BitVec 16) (k : Nat) :
    parityUpTo v k = decide (((List.range k).filter (fun i => v.getLsbD i)).length % 2 = 1) := by
  induction k with
  | zero => rfl
  | succ k ih =>
    rw [parityUpTo, ih, List.range_succ, List.filter_append, List.length_append]
    cases bit : v.getLsbD k
    · simp [bit]
    · rw [Bool.true_xor, ← decide_not, List.filter_cons_of_pos bit, List.filter_nil, List.length_singleton]
      exact decide_eq_decide.mpr (by omega)

theorem parity16_eq (v : BitVec 16) : parity16 v = decide (ones v % 2 = 1) := parityUpTo_eq v 16

/-- R145 in numbers. -/
theorem lfsrShift_toNat (taps lfsr : BitVec 16) :
    (lfsrShift taps lfsr).toNat = lfsr.toNat / 2 + 32768 * (ones (lfsr &&& taps) % 2) := by
  have lt := lfsr.isLt
  have top : (if parity16 (lfsr &&& taps) then 0x8000#16 else 0#16).toNat = 2 ^ 15 * (ones (lfsr &&& taps) % 2) := by
    rw [parity16_eq]
    rcases Nat.mod_two_eq_zero_or_one (ones (lfsr &&& taps)) with even | odd
    · simp [even]
    · simp [odd]
  rw [lfsrShift, BitVec.toNat_or, BitVec.toNat_ushiftRight, Nat.shiftRight_one, top, Nat.or_comm,
    ← Nat.two_pow_add_eq_or_of_lt (by omega)]
  omega

/-- Settles O20: the shift by `lfsrShift_toNat`; the rest is what the boundaries write. -/
theorem boundariesShiftAndToggle : Obligations.BoundariesShiftAndToggle := by
  unfold Obligations.BoundariesShiftAndToggle
  intro taps o
  refine ⟨lfsrShift_toNat taps o.lfsr, ?_, rfl, rfl⟩
  exact Nat.testBit_zero (lfsrShift taps o.lfsr).toNat

/-- With only bit 0 tapped the bit shifted out comes back in at the top. -/
theorem lfsrShift_one_bit (lfsr : BitVec 16) {i : Nat} (hi : i < 16) :
    (lfsrShift 0x0001#16 lfsr).getLsbD i = lfsr.getLsbD ((i + 1) % 16) := by
  have feedback : parity16 (lfsr &&& 0x0001#16) = lfsr.getLsbD 0 := by
    simp [parity16, parityUpTo]
  rw [lfsrShift, feedback, BitVec.getLsbD_or, BitVec.getLsbD_ushiftRight]
  rcases Nat.lt_or_ge i 15 with low | high
  · have zero : (if lfsr.getLsbD 0 then 0x8000#16 else 0#16).getLsbD i = false := by
      cases lfsr.getLsbD 0
      · simp
      · revert low; revert i; decide
    rw [zero, Bool.or_false, Nat.add_comm, Nat.mod_eq_of_lt (by omega)]
  · obtain rfl : i = 15 := by omega
    have gone : lfsr.getLsbD (1 + 15) = false := BitVec.getLsbD_of_ge lfsr 16 (Nat.le_refl 16)
    rw [gone, Bool.false_or]
    cases lfsr.getLsbD 0 <;> simp

/-- `n` shifts of the rotating register put out its bits from bit 1 on and rotate it by `n` (R155). -/
theorem shifts_one (n : Nat) (lfsr : BitVec 16) :
    (shifts 0x0001#16 n lfsr).1 = (List.range n).map (fun i => lfsr.getLsbD ((i + 1) % 16)) ∧
    ∀ i, i < 16 → (shifts 0x0001#16 n lfsr).2.getLsbD i = lfsr.getLsbD ((i + n) % 16) := by
  induction n generalizing lfsr with
  | zero => exact ⟨rfl, fun i hi => by rw [Nat.add_zero, Nat.mod_eq_of_lt hi]; rfl⟩
  | succ n ih =>
    obtain ⟨bits, register⟩ := ih (lfsrShift 0x0001#16 lfsr)
    have later (i : Nat) : (lfsrShift 0x0001#16 lfsr).getLsbD (i % 16) = lfsr.getLsbD ((i + 1) % 16) := by
      rw [lfsrShift_one_bit lfsr (Nat.mod_lt i (Nat.zero_lt_succ 15)), Nat.mod_add_mod]
    constructor
    · rw [shifts, bits, List.range_succ_eq_map, List.map_cons, List.map_map]
      exact congrArg₂ List.cons (lfsrShift_one_bit lfsr (Nat.zero_lt_succ 15)) (List.map_congr_left fun i _ => later (i + 1))
    · exact fun i hi => (register i hi).trans (later (i + n))

/-- Settles O21: 16 shifts rotate the register by 16 places (`shifts_one`). -/
theorem periodicNoiseRotates : Obligations.PeriodicNoiseRotates := by
  unfold Obligations.PeriodicNoiseRotates
  intro lfsr
  obtain ⟨bits, register⟩ := shifts_one 16 lfsr
  refine Prod.ext bits (BitVec.eq_of_getLsbD_eq fun i hi => ?_)
  rw [register i hi, Nat.add_mod_right, Nat.mod_eq_of_lt hi]

end Sys2Proof.Machine
end

section
/-! The default volume table (41_psg_sample.md R150). -/
namespace Sys2Proof.Machine

/-- The search keeps `acc` within the law and `acc + 2^k` beyond it, so it ends on the floor. -/
theorem volSearch_floor {ceil i k acc : Nat} (within : volAtMost ceil i acc = true) (beyond : volAtMost ceil i (acc + 2 ^ k) = false) :
    volAtMost ceil i (volSearch ceil i k acc) = true ∧ volAtMost ceil i (volSearch ceil i k acc + 1) = false := by
  induction k generalizing acc with
  | zero => exact ⟨within, beyond⟩
  | succ k ih =>
    rw [volSearch]
    cases bit : volAtMost ceil i (acc + 2 ^ k)
    · exact ih within bit
    · refine ih bit ?_
      rw [if_pos rfl, Nat.add_assoc, ← Nat.two_mul, ← Nat.pow_succ']
      exact beyond

/-- R150 for one entry: fifteen bits hold it. -/
theorem volEntry_floor {ceil : Nat} (small : ceil ≤ 32767) (i : Nat) :
    volEntry ceil i ^ 10 * 10 ^ i ≤ ceil ^ 10 ∧ ceil ^ 10 < (volEntry ceil i + 1) ^ 10 * 10 ^ i := by
  have beyond : ceil ^ 10 < (0 + 2 ^ 15) ^ 10 * 10 ^ i :=
    calc ceil ^ 10 < (2 ^ 15) ^ 10 := Nat.pow_lt_pow_left (by omega) (by omega)
      _ ≤ (0 + 2 ^ 15) ^ 10 * 10 ^ i := by
        rw [Nat.zero_add]; exact Nat.le_mul_of_pos_right _ (Nat.pow_pos (by omega))
  obtain ⟨least, most⟩ := volSearch_floor (ceil := ceil) (i := i) (k := 15) (acc := 0)
    (decide_eq_true (by simp)) (decide_eq_false (Nat.not_le.mpr beyond))
  exact ⟨of_decide_eq_true least, Nat.not_le.mp (of_decide_eq_false most)⟩

theorem volTable_entry (ceil : Nat) (i : Fin 15) : (volTable ceil)[i.val] = volEntry ceil i.val := by
  fin_cases i <;> simp [volTable]

/-- Settles O26: each entry is found by a search that ends on the floor (`volEntry_floor`). -/
theorem volumeTableIsTheFloorOfTheLaw : Obligations.VolumeTableIsTheFloorOfTheLaw := by
  unfold Obligations.VolumeTableIsTheFloorOfTheLaw
  intro ceil small
  refine ⟨fun i => ?_, rfl⟩
  rw [volTable_entry]
  exact volEntry_floor small i.val

end Sys2Proof.Machine
end

section
/-! MIX and FILTER in numbers (42_mix_filter.md R172 to R185; 10_state.md R34). -/
namespace Sys2Proof.Machine

/-- What rounding toward zero loses, on either side of zero. -/
theorem tdiv_bounds (a : Int) {c : Int} (pos : 0 < c) :
    (0 ≤ a → a - c < c * a.tdiv c ∧ c * a.tdiv c ≤ a) ∧ (a ≤ 0 → a ≤ c * a.tdiv c ∧ c * a.tdiv c < a + c) := by
  have split := Int.mul_tdiv_add_tmod a c
  constructor
  · intro sign
    have := Int.tmod_nonneg c sign
    have := Int.tmod_lt_of_pos a pos
    omega
  · intro sign
    have := Int.tmod_nonneg c (by omega : 0 ≤ -a)
    have := Int.tmod_lt_of_pos (-a) pos
    rw [Int.neg_tmod] at *
    omega

/-! MIX. -/

theorem mix_sum_bounds {fm : Int} {psg : Nat} (fmInRange : IsSample fm) (psgInRange : psg ≤ 32767) :
    (-28672 ≤ (fm * 7).tdiv 8 ∧ (fm * 7).tdiv 8 ≤ 28671) ∧ (0 ≤ ((psg : Int) * 3).tdiv 8 ∧ ((psg : Int) * 3).tdiv 8 ≤ 12287) := by
  obtain ⟨low, high⟩ := fmInRange
  obtain ⟨fmPos, fmNeg⟩ := tdiv_bounds (fm * 7) (c := 8) (by omega)
  obtain ⟨psgPos, -⟩ := tdiv_bounds ((psg : Int) * 3) (c := 8) (by omega)
  omega

/-- The output ceiling is at most 32767 (00_scope.md R4). -/
theorem Params.outCeil_le_of_valid {p : Params} (h : p.Valid) : p.outCeil ≤ 32767 := by
  obtain ⟨-, -, ⟨-, ceil⟩, -⟩ := h
  exact ceil

/-- Settles O28: by the ranges of the two terms (`mix_sum_bounds`) only the upper bound of the saturation can bite. -/
theorem mixSaturatesOnlyUpwards : Obligations.MixSaturatesOnlyUpwards := by
  unfold Obligations.MixSaturatesOnlyUpwards
  intro s fmL fmR psg valid fmLInRange fmRInRange psgInRange sum
  have ceil := Params.outCeil_le_of_valid valid
  clear valid
  obtain ⟨left, term⟩ := mix_sum_bounds fmLInRange (psgInRange.trans ceil)
  obtain ⟨right, -⟩ := mix_sum_bounds fmRInRange (psgInRange.trans ceil)
  refine ⟨by simp only [sum]; omega, by simp only [sum]; omega,
    _, exec_mix_of_inRange ⟨fmLInRange, fmRInRange, psgInRange⟩, ?_⟩
  simp only [State.setBus_bus, mixLane_eq, sum]
  refine ⟨fun fm psg => ?_, fun fm psg => ?_, fun fm psg => ?_, fun fm psg => ?_⟩ <;>
    simp only [fm, psg, if_true, Bool.false_eq_true, if_false, Frame.mk.injEq] <;> omega

/-! Coefficients. -/

theorem coef_of_clamped {full : Coefs} {p q : Int} (clamped : clampPct p = q) : coef full p =
    ⟨16384 + ((full.b0 - 16384) * q).tdiv 100, (full.b1 * q).tdiv 100, (full.b2 * q).tdiv 100, (full.a1 * q).tdiv 100,
      (full.a2 * q).tdiv 100⟩ := by
  subst clamped
  simp [coef, interpolate, tdiv, Coefs.bypass]

theorem coef_of_nonpos (full : Coefs) {p : Int} (low : p ≤ 0) : coef full p = ⟨16384, 0, 0, 0, 0⟩ := by
  rw [coef_of_clamped (q := 0) (by unfold clampPct; omega)]
  simp

theorem coef_of_full (full : Coefs) {p : Int} (high : 100 ≤ p) : coef full p = full := by
  rw [coef_of_clamped (q := 100) (by unfold clampPct; omega)]
  simp [Int.mul_tdiv_cancel]

/-- Settles O32: below, above and within the clamp of the percentage. -/
theorem coefficientsInterpolateFromBypassToFull : Obligations.CoefficientsInterpolateFromBypassToFull := by
  unfold Obligations.CoefficientsInterpolateFromBypassToFull
  intro full p
  exact ⟨coef_of_nonpos full, coef_of_full full, fun low high => coef_of_clamped (by unfold clampPct; omega)⟩

/-! FILTER. -/

/-- Settles O30: operands in range are not refused (`exec_filter_of_inRange`), and `filterLane` is those stages in that order. -/
theorem filterRunsDcBlockerThenBiquad : Obligations.FilterRunsDcBlockerThenBiquad := by
  unfold Obligations.FilterRunsDcBlockerThenBiquad
  intro s xL xR xLInRange xRInRange
  exact exec_filter_of_inRange ⟨xLInRange, xRInRange⟩

/-- One lane at 0 percent: `Z2` moves to `Z1` and is cleared, and with `Z1` clear the DC-blocked sample goes out (R180). -/
theorem filterLane_bypass (p : Params) (full : Coefs) {pct : Int} (low : pct ≤ 0) (lane : Lane) (x : Int) :
    (filterLane p (coef full pct) lane x).2.z1 = lane.z2 ∧ (filterLane p (coef full pct) lane x).2.z2 = 0 ∧
    (lane.z1 = 0 → (filterLane p (coef full pct) lane x).1 = sat16 (filterLane p (coef full pct) lane x).2.y1) := by
  rw [coef_of_nonpos full low]
  refine ⟨by simp [filterLane, biquad, dcBlock], by simp [filterLane, biquad], fun clear => ?_⟩
  simp [filterLane, biquad, dcBlock, clear, tdiv, Int.mul_tdiv_cancel_left]

/-- Settles O33: two steps move the delay elements out (`filterLane_bypass`), the third finds them clear. -/
theorem bypassIsExactFromTheThirdStep : Obligations.BypassIsExactFromTheThirdStep := by
  unfold Obligations.BypassIsExactFromTheThirdStep
  intro s x1 x2 x3 low x1InRange x2InRange x3InRange
  have lane (l : Lane) (x : Int) := filterLane_bypass s.cfg s.cfg.lpfFull low l x
  refine ⟨_, _, _, exec_filter_of_inRange x1InRange, exec_filter_of_inRange x2InRange, exec_filter_of_inRange x3InRange, ?_⟩
  obtain ⟨-, l1, -⟩ := lane s.flt.l x1.l
  obtain ⟨-, r1, -⟩ := lane s.flt.r x1.r
  obtain ⟨l2, l2', -⟩ := lane (filterLane s.cfg (coef s.cfg.lpfFull s.live.lpfPct) s.flt.l x1.l).2 x2.l
  obtain ⟨r2, r2', -⟩ := lane (filterLane s.cfg (coef s.cfg.lpfFull s.live.lpfPct) s.flt.r x1.r).2 x2.r
  obtain ⟨-, -, l3⟩ := lane (filterLane s.cfg (coef s.cfg.lpfFull s.live.lpfPct)
    (filterLane s.cfg (coef s.cfg.lpfFull s.live.lpfPct) s.flt.l x1.l).2 x2.l).2 x3.l
  obtain ⟨-, -, r3⟩ := lane (filterLane s.cfg (coef s.cfg.lpfFull s.live.lpfPct)
    (filterLane s.cfg (coef s.cfg.lpfFull s.live.lpfPct) s.flt.r x1.r).2 x2.r).2 x3.r
  exact ⟨l2.trans l1, l2', r2.trans r1, r2', congrArg₂ Frame.mk (l3 (l2.trans l1)) (r3 (r2.trans r1))⟩

theorem filterLane_silence (p : Params) (k : Coefs) : filterLane p k ⟨0, 0, 0, 0⟩ 0 = (0, ⟨0, 0, 0, 0⟩) := by
  simp [filterLane, dcBlock, biquad, tdiv, sat16]

/-- Settles O34: a cleared lane stays cleared on 0 and gives 0 (`filterLane_silence`). -/
theorem silenceInSilenceOut : Obligations.SilenceInSilenceOut := by
  unfold Obligations.SilenceInSilenceOut
  intro s cleared
  have zero : IsSample 0 := by decide
  rw [exec_filter_of_inRange ⟨zero, zero⟩, cleared, filterLane_silence]
  rw [State.setFlt, State.setBus, ← cleared]

/-! The DC blocker with the default alpha. -/

/-- What an operation leaves of the filter: only FILTER and the hard reset write it (10_state.md R20). -/
theorem exec_flt_cases {i : Instr} {s t : State} (h : exec i s = .next t) :
    t.flt = s.flt ∨
    (∃ xL xR, i = .filter xL xR ∧ (IsSample xL ∧ IsSample xR) ∧
      t.flt = ⟨(filterLane s.cfg (coef s.cfg.lpfFull s.live.lpfPct) s.flt.l xL).2,
               (filterLane s.cfg (coef s.cfg.lpfFull s.live.lpfPct) s.flt.r xR).2⟩) ∨
    (i = .resetHard ∧ t.flt = ⟨Lane.atReset, Lane.atReset⟩) := by
  cases i with
  | mix fmL fmR psg => rw [exec_mix_inv h]; exact .inl rfl
  | filter xL xR =>
    obtain ⟨inRange, flt, -⟩ := exec_filter_inv h
    exact .inr (.inl ⟨xL, xR, rfl, inRange, flt⟩)
  | produce burst => obtain ⟨-, rfl⟩ := exec_produce_inv h; exact .inl rfl
  | consume n => obtain ⟨-, rfl⟩ := exec_consume_inv h; exact .inl rfl
  | count => obtain ⟨-, rfl⟩ := exec_count_inv h; exact .inl rfl
  | resetHard => obtain ⟨-, rfl⟩ := exec_resetHard_inv h; exact .inr (.inr ⟨rfl, rfl⟩)
  | _ => obtain rfl := Host.Outcome.next.inj h; exact .inl rfl

/-- One FILTER keeps the bound: the output shrinks toward zero from `Y1 - X1 + x`, and so does not pass `x` by more than before. -/
theorem DcBounded.filterLane {p : Params} {lane : Lane} {x : Int} (k : Coefs) (alpha : p.alphaQ15 = 32604)
    (h : DcBounded lane) (sample : IsSample x) : DcBounded (filterLane p k lane x).2 := by
  obtain ⟨-, ⟨gapLow, gapHigh⟩, -⟩ := h
  obtain ⟨low, high⟩ := sample
  have out : (Machine.filterLane p k lane x).2.y1 = (32604 * (lane.y1 + x - lane.x1)).tdiv 32768 := by
    change ((p.alphaQ15 : Int) * _).tdiv _ = _
    rw [alpha]; rfl
  obtain ⟨pos, neg⟩ := tdiv_bounds (32604 * (lane.y1 + x - lane.x1)) (c := 32768) (by omega)
  rw [← out] at pos neg
  have input : (Machine.filterLane p k lane x).2.x1 = x := rfl
  refine ⟨by rw [input]; exact ⟨low, high⟩, ?_, ?_⟩
  · rw [input]; omega
  · omega

theorem dcBounded_atReset : DcBounded Lane.atReset := ⟨by decide, by decide, by decide⟩

/-- Settles O35: only FILTER and the hard reset write a lane (`exec_flt_cases`), and both keep the bound. -/
theorem dcBlockerStaysBounded : Obligations.DcBlockerStaysBounded := by
  unfold Obligations.DcBlockerStaysBounded
  intro i s t alpha left right run
  obtain e | ⟨xL, xR, -, ⟨sampleL, sampleR⟩, e⟩ | ⟨-, e⟩ := exec_flt_cases run
  · rw [e]; exact ⟨left, right⟩
  · rw [e]; exact ⟨left.filterLane _ alpha sampleL, right.filterLane _ alpha sampleR⟩
  · rw [e]; exact ⟨dcBounded_atReset, dcBounded_atReset⟩

/-- With `X1` already at the input, a step of the default DC blocker brings `Y1` nearer to 0. -/
theorem dcBlock_decays {lane : Lane} {x : Int} (steady : lane.x1 = x) (nonzero : lane.y1 ≠ 0) :
    (dcBlock 32604 lane x).2.y1.natAbs < lane.y1.natAbs := by
  have out : (dcBlock 32604 lane x).2.y1 = (32604 * lane.y1).tdiv 32768 := by
    change (32604 * (lane.y1 + x - lane.x1)).tdiv 32768 = _
    rw [steady, Int.add_sub_cancel]
  obtain ⟨pos, neg⟩ := tdiv_bounds (32604 * lane.y1) (c := 32768) (by omega)
  rw [← out] at pos neg
  omega

theorem dcBlock_reaches_zero (n : Nat) {lane : Lane} {x : Int} (steady : lane.x1 = x) (near : lane.y1.natAbs ≤ n) :
    ∃ m, m ≤ n ∧ (((fun l => (dcBlock 32604 l x).2)^[m]) lane).y1 = 0 := by
  by_cases zero : lane.y1 = 0
  · exact ⟨0, Nat.zero_le n, zero⟩
  induction n generalizing lane with
  | zero => omega
  | succ n ih =>
    have nearer := dcBlock_decays steady zero
    by_cases zero' : (dcBlock 32604 lane x).2.y1 = 0
    · exact ⟨1, by omega, zero'⟩
    · obtain ⟨m, hm, reached⟩ := ih (lane := (dcBlock 32604 lane x).2) rfl (by omega) zero'
      exact ⟨m + 1, by omega, reached⟩

/-- Settles O36: the magnitude shrinks on every step (`dcBlock_decays`), so it is gone after as many. -/
theorem dcBlockerDecaysToZero : Obligations.DcBlockerDecaysToZero := by
  unfold Obligations.DcBlockerDecaysToZero
  intro lane x steady
  exact dcBlock_reaches_zero _ steady (Nat.le_refl _)

end Sys2Proof.Machine
end

section
/-! Refusals and the hard reset (60_exceptions.md R242; 44_system_ops.md R230, R232; 70_reset_and_hazards.md R271). -/
namespace Sys2Proof.Machine

theorem exec_mix_refused {s : State} {fmL fmR : Int} {psg : Nat} (h : ¬ OperandsInRange s.cfg (.mix fmL fmR psg)) :
    exec (.mix fmL fmR psg) s = .refused .operandOutOfRange := by
  have outside : mixInRange s.cfg fmL fmR psg = false := decide_eq_false h
  change execMix fmL fmR psg s = _
  rw [execMix, outside]; rfl

theorem exec_filter_refused {s : State} {xL xR : Int} (h : ¬ OperandsInRange s.cfg (.filter xL xR)) :
    exec (.filter xL xR) s = .refused .operandOutOfRange := by
  have outside : filterInRange xL xR = false := decide_eq_false h
  change execFilter xL xR s = _
  rw [execFilter, outside]; rfl

theorem exec_produce_refused {s : State} {burst : List Frame} (h : ¬ OperandsInRange s.cfg (.produce burst)) :
    exec (.produce burst) s = .refused .operandOutOfRange := by
  have outside : burstInRange burst = false := decide_eq_false h
  change execProduce burst s = _
  rw [execProduce, outside]; rfl

theorem exec_resetHard_refused {s : State} (idle : s.fifo.consuming = none) (bad : ¬ s.cfgIn.Valid) :
    exec .resetHard s = .refused .parameterOutOfRange := by
  change execResetHard s = _
  rw [execResetHard, idle]
  exact if_neg bad

/-- Settles O29: each of the four refuses by its own check. -/
theorem valuesOutOfRangeAreRefused : Obligations.ValuesOutOfRangeAreRefused := by
  unfold Obligations.ValuesOutOfRangeAreRefused
  intro s
  exact ⟨fun _ _ _ => exec_mix_refused, fun _ _ => exec_filter_refused, fun _ => exec_produce_refused, exec_resetHard_refused⟩

theorem exec_count_inside {s : State} {c : ProduceCtl} (inside : s.fifo.producing = some c) :
    exec .count s = .refused .secondProducer := by
  change execCount s = _
  rw [execCount, inside]

theorem exec_produce_inside {s : State} {c : ProduceCtl} {burst : List Frame} (inRange : ∀ f ∈ burst, f.InRange)
    (inside : s.fifo.producing = some c) : exec (.produce burst) s = .refused .secondProducer := by
  change execProduce burst s = _
  rw [execProduce, inside]
  exact if_pos (decide_eq_true inRange)

theorem exec_consume_inside {s : State} {c : ConsumeCtl} (n : Nat) (inside : s.fifo.consuming = some c) :
    exec (.consume n) s = .refused .secondConsumer := by
  change execConsume n s = _
  rw [execConsume, inside]

theorem exec_resetHard_inside {s : State} {c : ConsumeCtl} (inside : s.fifo.consuming = some c) :
    exec .resetHard s = .refused .resetWhileConsuming := by
  change execResetHard s = _
  rw [execResetHard, inside]; rfl

/-- Settles O49: each use looks at the operation in flight on its own side, the hard reset at AUD's. -/
theorem usesInsideAnOperationAreRefused : Obligations.UsesInsideAnOperationAreRefused := by
  unfold Obligations.UsesInsideAnOperationAreRefused
  intro s
  constructor
  · intro busy
    obtain ⟨c, inside⟩ := Option.ne_none_iff_exists'.mp busy
    exact ⟨exec_count_inside inside, fun burst inRange => exec_produce_inside inRange inside⟩
  · intro busy
    obtain ⟨c, inside⟩ := Option.ne_none_iff_exists'.mp busy
    exact ⟨fun n => exec_consume_inside n inside, exec_resetHard_inside inside⟩

/-- Settles O50: a hard reset that is not refused runs `hardReset` (`exec_resetHard_of_valid`), which is that table. -/
theorem hardResetLeavesTheTableOfReset : Obligations.HardResetLeavesTheTableOfReset := by
  unfold Obligations.HardResetLeavesTheTableOfReset
  intro s idle valid
  exact exec_resetHard_of_valid valid idle

end Sys2Proof.Machine
end

section
/-! Everything an operation can do to the PSG (10_state.md R20), and which state each operation writes. -/
namespace Sys2Proof.Machine

/-- A byte that sets `LATCH` (40_psg_writes.md R121, R123, R124). -/
def SetsLatch (i : Instr) : Prop := i.byteRow ≠ none ∧ ∀ u, i ≠ .data u

/-- The PSG an operation other than the hard reset leaves: the same, one that time has passed for, or one with a tone, a volume or the
noise control written, `LATCH` being `l` afterwards. -/
inductive PsgMove (s : State) (i : Instr) : Psg → Prop
  | same : PsgMove s i s.psg
  | time (h : RunsTime i) (cnt : PerChan Nat) (out : PerChan Bool) (lfsr : BitVec 16)
    (run : ∃ n, (updatePsg s.cfg n s.psg).2 = { s.psg with cnt := cnt, out := out, lfsr := lfsr }) :
    PsgMove s i { s.psg with cnt := cnt, out := out, lfsr := lfsr }
  | tone {c : ToneCh} (h : WritesTone s i c) (v : BitVec 10) {l : BitVec 3} (latch : l = s.psg.latch ∨ SetsLatch i) :
    PsgMove s i (rederive s.cfg { s.psg with latch := l, tone := s.psg.tone.set c v } c)
  | volume {c : Chan} (h : WritesVolume s i c) (d : BitVec 4) {l : BitVec 3} (latch : l = s.psg.latch ∨ SetsLatch i) :
    PsgMove s i (setVolume c d { s.psg with latch := l })
  | noise (h : WritesNoise s i) (f : BitVec 1) (nn : BitVec 2) {l : BitVec 3} (latch : l = s.psg.latch ∨ SetsLatch i) :
    PsgMove s i (setNoiseControl s.cfg f nn { s.psg with latch := l })

theorem psgMove_toneLatchOf (s : State) (c : ToneCh) (d : BitVec 4) :
    PsgMove s (toneLatchOf c d) (latchTone s.cfg c d s.psg) :=
  .tone (.inl ⟨d, rfl⟩) _ (.inr (by cases c <;> exact ⟨nofun, nofun⟩))

theorem psgMove_volWriteOf (s : State) (c : Chan) (d : BitVec 4) : PsgMove s (volWriteOf c d) (latchVolume c d s.psg) :=
  .volume (.inl ⟨d, rfl⟩) d (.inr (by cases c <;> exact ⟨nofun, nofun⟩))

theorem psgMove_data (s : State) (u : BitVec 6) : PsgMove s (.data u) (dataByte s.cfg u s.psg) := by
  obtain ⟨c, latched, e⟩ | e | ⟨low4, latched, e⟩ | ⟨low4, c, latched, e⟩ := dataByte_cases s.cfg u s.psg
  · rw [e]; exact .tone (.inr ⟨latched, u, rfl⟩) _ (.inl rfl)
  · rw [e]; exact .same
  · rw [e]; exact .noise (.inr ⟨low4, latched, u, rfl⟩) _ _ (.inl rfl)
  · rw [e]; exact .volume (.inr ⟨low4, latched, u, rfl⟩) _ (.inl rfl)

theorem psgMove_update (s : State) {i : Instr} (h : RunsTime i) (n : Nat) : PsgMove s i (updatePsg s.cfg n s.psg).2 := by
  rw [updatePsg_eq]
  exact .time h _ _ _ ⟨n, updatePsg_eq ..⟩

/-- What an operation other than the hard reset leaves of the PSG. -/
theorem exec_psg {i : Instr} {s t : State} (h : exec i s = .next t) (soft : i ≠ .resetHard) : PsgMove s i t.psg := by
  have onlyPsg {g} (run : exec i s = .next (s.setPsg g)) : t.psg = g := by
    obtain rfl := Host.Outcome.next.inj (h.symm.trans run); rfl
  cases i with
  | toneLatch0 d => rw [onlyPsg (exec_toneLatchOf .t0 d s)]; exact psgMove_toneLatchOf s .t0 d
  | toneLatch1 d => rw [onlyPsg (exec_toneLatchOf .t1 d s)]; exact psgMove_toneLatchOf s .t1 d
  | toneLatch2 d => rw [onlyPsg (exec_toneLatchOf .t2 d s)]; exact psgMove_toneLatchOf s .t2 d
  | volWrite0 d => rw [onlyPsg (exec_volWriteOf .t0 d s)]; exact psgMove_volWriteOf s .t0 d
  | volWrite1 d => rw [onlyPsg (exec_volWriteOf .t1 d s)]; exact psgMove_volWriteOf s .t1 d
  | volWrite2 d => rw [onlyPsg (exec_volWriteOf .t2 d s)]; exact psgMove_volWriteOf s .t2 d
  | volWrite3 d => rw [onlyPsg (exec_volWriteOf .n d s)]; exact psgMove_volWriteOf s .n d
  | noiseCtrl f nn => rw [onlyPsg (exec_noiseCtrl f nn s)]; exact .noise (.inl ⟨f, nn, rfl⟩) f nn (.inr ⟨nofun, nofun⟩)
  | data u => rw [onlyPsg (exec_data u s)]; exact psgMove_data s u
  | sample => obtain rfl := Host.Outcome.next.inj h; exact psgMove_update s (.inl rfl) 1
  | update n => obtain rfl := Host.Outcome.next.inj h; exact psgMove_update s (.inr ⟨n, rfl⟩) n
  | mix fmL fmR psg => rw [exec_mix_inv h]; exact .same
  | filter xL xR =>
    obtain ⟨-, -, out, e⟩ := exec_filter_inv h
    rw [e]; exact .same
  | produce burst => obtain ⟨-, rfl⟩ := exec_produce_inv h; exact .same
  | consume n => obtain ⟨-, rfl⟩ := exec_consume_inv h; exact .same
  | count => obtain ⟨-, rfl⟩ := exec_count_inv h; exact .same
  | resetHard => exact absurd rfl soft
  | resetSoft => obtain rfl := Host.Outcome.next.inj h; exact .same

end Sys2Proof.Machine
end

section
/-! Every step keeps the machine's invariant (60_exceptions.md R251). -/
namespace Sys2Proof.Machine

/-! The PSG after a hard reset and after a write. -/

theorem psgInv_atReset {p : Params} (valid : p.Valid) : PsgInv p (Psg.atReset p) := by
  obtain ⟨-, -, -, -, -, -, -, preset, -⟩ := valid
  constructor
  case tonePeriods => intro c; cases c <;> rfl
  case noiseFixed => intro k _ rate; obtain rfl : 0 = k := rate; rfl
  case noiseLinked => exact fun rate : 0 = 3 => absurd rate (by decide)
  case taps => exact (if_neg (by decide : ¬ (0#3).getLsbD 2 = true)).symm
  case lfsrNonzero => exact preset
  case toneCnt => intro c; cases c <;> exact Nat.zero_le _
  case noiseCnt => exact Nat.zero_le _

theorem PsgInv.rederive {p : Params} {g : Psg} (h : PsgInv p g) (c : ToneCh) (l : BitVec 3) (v : BitVec 10) :
    PsgInv p (rederive p { g with latch := l, tone := g.tone.set c v } c) := by
  constructor
  case tonePeriods =>
    intro e
    by_cases own : e = c
    · subst own; rw [rederive_own, rederive_tone, tonePeriod]
    · rw [rederive_other _ _ own, rederive_tone, PerTone.get_set_other _ _ own]
      exact h.tonePeriods e
  case noiseFixed =>
    intro k hk rate
    rw [rederive_nctrl] at rate
    have unlinked : ¬ (c = p.noiseLinkCh ∧ g.nctrl.toNat % 4 = 3) := fun ⟨_, three⟩ => by simp only at rate; omega
    rw [rederive_noise, if_neg unlinked]
    exact h.noiseFixed k hk rate
  case noiseLinked =>
    intro rate
    rw [rederive_nctrl] at rate
    rw [rederive_noise]
    by_cases linked : c = p.noiseLinkCh
    · rw [if_pos ⟨linked, rate⟩, ← linked, rederive_own]
    · rw [if_neg fun both => linked both.1, rederive_other _ _ (Ne.symm linked)]
      exact h.noiseLinked rate
  case taps => rw [rederive_tapmask, rederive_nctrl]; exact h.taps
  case lfsrNonzero => rw [rederive_lfsr]; exact h.lfsrNonzero
  case toneCnt => rw [rederive_cnt]; exact h.toneCnt
  case noiseCnt => rw [rederive_cnt]; exact h.noiseCnt

theorem PsgInv.setVolume {p : Params} {g : Psg} (h : PsgInv p g) (c : Chan) (d : BitVec 4) (l : BitVec 3) :
    PsgInv p (setVolume c d { g with latch := l }) :=
  ⟨h.tonePeriods, h.noiseFixed, h.noiseLinked, h.taps, h.lfsrNonzero, h.toneCnt, h.noiseCnt⟩

theorem PsgInv.setNoiseControl {p : Params} {g : Psg} (h : PsgInv p g) (valid : p.Valid) (f : BitVec 1) (nn : BitVec 2)
    (l : BitVec 3) : PsgInv p (setNoiseControl p f nn { g with latch := l }) := by
  obtain ⟨-, -, -, -, -, -, -, preset, -⟩ := valid
  have tones (e : ToneCh) : (Machine.setNoiseControl p f nn { g with latch := l }).period.get e.chan = g.period.get e.chan :=
    PerChan.get_set_other _ _ (ToneCh.chan_ne_n e)
  have rate : (Machine.setNoiseControl p f nn { g with latch := l }).nctrl.toNat % 4 = nn.toNat := by
    have : (Machine.setNoiseControl p f nn { g with latch := l }).nctrl.toNat = _ := noiseControlBits_toNat f nn
    have := nn.isLt
    omega
  have noise : (Machine.setNoiseControl p f nn { g with latch := l }).period.n = _ := noisePeriod_eq p nn _
  constructor
  case tonePeriods => exact fun e => (tones e).trans (h.tonePeriods e)
  case noiseFixed =>
    intro k hk eq
    obtain rfl : k = nn.toNat := eq.symm.trans rate
    rw [noise]
    split
    · rfl
    · split
      · rfl
      · rw [if_pos (by omega)]
  case noiseLinked =>
    intro eq
    have three := rate.symm.trans eq
    rw [noise, tones, three]
    rfl
  case taps =>
    change tapMask p (f = 1#1) = if (noiseControlBits f nn).getLsbD 2 = true then _ else _
    rw [fb_noiseControlBits]; rfl
  case lfsrNonzero => exact preset
  case toneCnt => exact h.toneCnt
  case noiseCnt => exact h.noiseCnt

/-! Time. -/

theorem acc_cnt_le (boundary : Osc → Osc) (period unit : Nat) (o : Osc) :
    (acc boundary period unit o).2.cnt ≤ max period o.cnt := by
  rcases Nat.eq_zero_or_pos period with rfl | pos
  · exact Nat.le_max_right ..
  · rw [acc_of_pos pos]
    exact (byUnits_cnt_le ..).trans (max_le (Nat.le_max_left ..) (reload_cnt_le o))

theorem PsgInv.tonePeriod_le {p : Params} {g : Psg} (h : PsgInv p g) (c : ToneCh) : g.period.get c.chan ≤ 1023 * p.updateStep := by
  have := (g.tone.get c).isLt
  rw [h.tonePeriods c]
  split
  · exact Nat.zero_le _
  · exact Nat.mul_le_mul_right _ (by omega)

theorem PsgInv.noisePeriod_le {p : Params} {g : Psg} (h : PsgInv p g) : g.period.n ≤ noiseCntMax p := by
  unfold noiseCntMax
  by_cases linked : g.nctrl.toNat % 4 = 3
  · have linkedLe := h.tonePeriod_le p.noiseLinkCh
    rw [h.noiseLinked linked]
    calc 2 * g.period.get p.noiseLinkCh.chan ≤ 2046 * p.updateStep := by omega
      _ ≤ _ := Nat.mul_le_mul_right _ (by omega)
  · rw [h.noiseFixed _ (by omega) rfl]
    refine Nat.mul_le_mul_right _ ?_
    split
    · omega
    · split <;> omega

/-- A shift keeps the register away from zero as long as bit 0 is tapped: a 1 leaving at the bottom comes back at the top (R33). -/
theorem lfsrShift_ne_zero {taps lfsr : BitVec 16} (tapped : taps.getLsbD 0 = true) (nonzero : lfsr ≠ 0#16) :
    lfsrShift taps lfsr ≠ 0#16 := by
  intro zero
  have shifted := lfsrShift_toNat taps lfsr
  rw [zero] at shifted
  have small : lfsr.toNat < 2 := by simp only [BitVec.toNat_ofNat] at shifted; omega
  have positive : lfsr.toNat ≠ 0 := fun e => nonzero (BitVec.eq_of_toNat_eq e)
  obtain rfl : lfsr = 1#16 := BitVec.eq_of_toNat_eq (by simp only [BitVec.toNat_ofNat]; omega)
  have one : 1#16 &&& taps = 1#16 := by
    refine BitVec.eq_of_getLsbD_eq fun i hi => ?_
    rcases Nat.eq_zero_or_pos i with rfl | pos
    · simp [tapped]
    · have : (1#16).getLsbD i = false := by rw [BitVec.getLsbD_one]; simp; omega
      rw [BitVec.getLsbD_and, this, Bool.false_and]
  rw [one] at shifted
  exact absurd shifted (by decide)

theorem reload_lfsr_ne_zero {boundary : Osc → Osc} {period : Nat} (keeps : ∀ o : Osc, o.lfsr ≠ 0#16 → (boundary o).lfsr ≠ 0#16)
    {o : Osc} (nonzero : o.lfsr ≠ 0#16) : (reload boundary period o).lfsr ≠ 0#16 := by
  unfold reload
  split
  · exact keeps o nonzero
  · exact nonzero

theorem byUnits_lfsr_ne_zero {boundary : Osc → Osc} {period : Nat} (keeps : ∀ o : Osc, o.lfsr ≠ 0#16 → (boundary o).lfsr ≠ 0#16)
    (n : Nat) {o : Osc} (nonzero : o.lfsr ≠ 0#16) : (byUnits boundary period n o).2.lfsr ≠ 0#16 := by
  induction n generalizing o with
  | zero => exact nonzero
  | succ n ih => exact ih (reload_lfsr_ne_zero keeps nonzero)

theorem acc_lfsr_ne_zero {boundary : Osc → Osc} (keeps : ∀ o : Osc, o.lfsr ≠ 0#16 → (boundary o).lfsr ≠ 0#16)
    (period unit : Nat) {o : Osc} (nonzero : o.lfsr ≠ 0#16) : (acc boundary period unit o).2.lfsr ≠ 0#16 := by
  rcases Nat.eq_zero_or_pos period with rfl | pos
  · exact nonzero
  · rw [acc_of_pos pos]
    exact byUnits_lfsr_ne_zero keeps unit (reload_lfsr_ne_zero keeps nonzero)

theorem PsgInv.tapped {p : Params} {g : Psg} (h : PsgInv p g) (valid : p.Valid) : g.tapmask.getLsbD 0 = true := by
  obtain ⟨-, -, -, -, -, white, periodic, -⟩ := valid
  rw [h.taps]
  split
  · exact white
  · exact periodic

theorem PsgInv.sample {p : Params} {g : Psg} (h : PsgInv p g) (valid : p.Valid) : PsgInv p (samplePsg p g).2 := by
  constructor
  case tonePeriods => exact h.tonePeriods
  case noiseFixed => exact h.noiseFixed
  case noiseLinked => exact h.noiseLinked
  case taps => exact h.taps
  case lfsrNonzero =>
    exact acc_lfsr_ne_zero (fun o nonzero => lfsrShift_ne_zero (h.tapped valid) nonzero) _ _ h.lfsrNonzero
  case toneCnt =>
    intro c
    rw [samplePsg_cnt]
    exact (acc_cnt_le ..).trans (max_le (h.tonePeriod_le c) (h.toneCnt c))
  case noiseCnt => exact (acc_cnt_le ..).trans (max_le h.noisePeriod_le h.noiseCnt)

theorem PsgInv.update {p : Params} {g : Psg} (h : PsgInv p g) (valid : p.Valid) (n : Nat) : PsgInv p (updatePsg p n g).2 := by
  induction n generalizing g with
  | zero => exact h
  | succ n ih => exact ih (h.sample valid)

theorem PsgInv.psgMove {s : State} {i : Instr} {g : Psg} (h : PsgInv s.cfg s.psg) (valid : s.cfg.Valid) (move : PsgMove s i g) :
    PsgInv s.cfg g := by
  cases move with
  | same => exact h
  | time _ cnt out lfsr run =>
    obtain ⟨n, e⟩ := run
    rw [← e]; exact h.update valid n
  | tone _ v _ => exact h.rederive _ _ v
  | volume _ d _ => exact h.setVolume _ d _
  | noise _ f nn _ => exact h.setNoiseControl valid f nn _

/-! The filter. -/

theorem FilterInv.exec {i : Instr} {s t : State} (h : FilterInv s.flt) (run : exec i s = .next t) : FilterInv t.flt := by
  obtain e | ⟨xL, xR, -, ⟨left, right⟩, e⟩ | ⟨-, e⟩ := exec_flt_cases run
  · rwa [e]
  · rw [e]; exact ⟨left, right⟩
  · rw [e]; exact ⟨by decide, by decide⟩

/-! The whole machine. -/

theorem inv_hardReset {s : State} (valid : s.cfgIn.Valid) : Inv (hardReset s) where
  cfg := valid
  psg := psgInv_atReset valid
  flt := ⟨by change IsSample 0; decide, by change IsSample 0; decide⟩
  fifo := fifoInv_atReset (Nat.zero_lt_of_lt (Params.capacity_ge_of_valid valid))

/-- Only the hard reset changes the parameters in force (44_system_ops.md R230). -/
theorem exec_cfg {i : Instr} {s t : State} (run : exec i s = .next t) (soft : i ≠ .resetHard) : t.cfg = s.cfg := by
  obtain ⟨-, -, cfg, -⟩ | ⟨burst, -, -, rfl⟩ | ⟨n, -, -, rfl⟩ | ⟨-, -, rfl⟩ | ⟨hard, -⟩ := exec_fifo_cases run
  · exact cfg
  · rfl
  · rfl
  · rfl
  · exact absurd hard soft

theorem Inv.exec {i : Instr} {s t : State} (h : Inv s) (run : exec i s = .next t) : Inv t := by
  by_cases hard : i = .resetHard
  · subst hard
    obtain ⟨valid, rfl⟩ := exec_resetHard_inv run
    exact inv_hardReset valid
  · have cfg := exec_cfg run hard
    have psg := h.psg.psgMove h.cfg (exec_psg run hard)
    exact ⟨cfg ▸ h.cfg, cfg ▸ psg, h.flt.exec run, h.fifo.exec run⟩

/-- An operation or atom of the FIFO alone keeps the invariant if it keeps the FIFO's. -/
theorem Inv.onlyFifo {s t : State} (h : Inv s) (only : OnlyFifo s t) (fifo : FifoInv t.cfg.capacity t.fifo) : Inv t := by
  obtain ⟨psg, flt, cfg, -⟩ := only
  exact ⟨cfg ▸ h.cfg, cfg ▸ psg ▸ h.psg, flt ▸ h.flt, fifo⟩

theorem AudMove.onlyFifo {s t : State} (move : AudMove s t) : OnlyFifo s t := by
  cases move with
  | nothing => exact .refl s
  | atom => exact consumeAtom_onlyFifo s
  | begins n _ => exact consumeBegin_onlyFifo n s
  | whole n _ => exact runConsume_onlyFifo n s

theorem Inv.emuMove {p : Prop} {s t : State} (h : Inv s) (move : EmuMove p s t) : Inv t := by
  have fifo := h.fifo.emuMove move
  cases move with
  | nothing => exact h
  | atom => exact h.onlyFifo (produceAtom_onlyFifo s) fifo
  | begins burst _ => exact h.onlyFifo (produceBegin_onlyFifo burst s) fifo
  | operation _ _ run => exact h.exec run
  | live _ => exact ⟨h.cfg, h.psg, h.flt, fifo⟩
  | params _ => exact ⟨h.cfg, h.psg, h.flt, fifo⟩

theorem Inv.setEnv {s : State} (h : Inv s) (e : Env) : Inv (s.setEnv e) := ⟨h.cfg, h.psg, h.flt, h.fifo⟩

/-- Settles O53: a step is a move of one agent, and each kind of move keeps the invariant. -/
theorem everyStepKeepsTheMachineInvariant : Obligations.EveryStepKeepsTheMachineInvariant := by
  unfold Obligations.EveryStepKeepsTheMachineInvariant
  intro s t h run
  obtain ⟨e, -, move | move⟩ := step_cases run
  · exact (h.setEnv e).onlyFifo move.onlyFifo ((h.setEnv e).fifo.audMove move)
  · exact (h.setEnv e).emuMove move

theorem valid_referenceParams : referenceParams.Valid := by decide +kernel

/-- Settles O52: `State.reset` is what a hard reset to the reference configuration leaves, and those parameters are valid. -/
theorem resetMeetsTheInvariant : Obligations.ResetMeetsTheInvariant := by
  unfold Obligations.ResetMeetsTheInvariant
  exact ⟨inv_hardReset (s := State.reset) valid_referenceParams, rfl, rfl, rfl⟩

end Sys2Proof.Machine
end

section
/-! Who writes what (10_state.md R20) and what of it is one agent's own (60_exceptions.md R253). -/
namespace Sys2Proof.Machine

/-- R20's table for the PSG, an operation `i` having left `g`. -/
structure PsgWriters (s : State) (i : Instr) (g : Psg) : Prop where
  tone : ∀ c : ToneCh, g.tone.get c ≠ s.psg.tone.get c → WritesTone s i c
  tonePeriod : ∀ c : ToneCh, g.period.get c.chan ≠ s.psg.period.get c.chan → WritesTone s i c
  noisePeriod : g.period.n ≠ s.psg.period.n →
    WritesNoise s i ∨ (s.psg.nctrl.toNat % 4 = 3 ∧ WritesTone s i s.cfg.noiseLinkCh)
  nctrl : g.nctrl ≠ s.psg.nctrl → WritesNoise s i
  tapmask : g.tapmask ≠ s.psg.tapmask → WritesNoise s i
  volidx : ∀ c : Chan, g.volidx.get c ≠ s.psg.volidx.get c → WritesVolume s i c
  latch : g.latch ≠ s.psg.latch → SetsLatch i
  cnt : g.cnt ≠ s.psg.cnt → RunsTime i
  toneOut : ∀ c : ToneCh, g.out.get c.chan ≠ s.psg.out.get c.chan → RunsTime i
  noiseOut : g.out.n ≠ s.psg.out.n → RunsTime i ∨ WritesNoise s i
  lfsr : g.lfsr ≠ s.psg.lfsr → RunsTime i ∨ WritesNoise s i

/-- Each kind of move writes its own registers only. -/
theorem PsgMove.writers {s : State} {i : Instr} {g : Psg} (move : PsgMove s i g) : PsgWriters s i g := by
  cases move with
  | same => constructor <;> intros <;> contradiction
  | time h =>
    constructor
    case cnt => exact fun _ => h
    case toneOut => exact fun _ _ => h
    case noiseOut => exact fun _ => .inl h
    case lfsr => exact fun _ => .inl h
    all_goals intros; contradiction
  | @tone c h v l latch =>
    constructor
    case tone =>
      intro e changed
      by_cases own : e = c
      · exact own ▸ h
      · rw [rederive_tone, PerTone.get_set_other _ _ own] at changed; contradiction
    case tonePeriod =>
      intro e changed
      by_cases own : e = c
      · exact own ▸ h
      · rw [rederive_other _ _ own] at changed; contradiction
    case noisePeriod =>
      intro changed
      rw [rederive_noise] at changed
      split at changed
      next linked => exact .inr ⟨linked.2, linked.1 ▸ h⟩
      next => contradiction
    case latch => rw [rederive_latch]; exact latch.resolve_left
    all_goals simp
  | @volume c h d l latch =>
    constructor
    case volidx =>
      intro e changed
      by_cases own : e = c
      · exact own ▸ h
      · exact absurd (PerChan.get_set_other _ _ own) changed
    case latch => exact latch.resolve_left
    all_goals intros; contradiction
  | @noise h f nn l latch =>
    constructor
    case tonePeriod => exact fun c changed => absurd (PerChan.get_set_other _ _ (ToneCh.chan_ne_n c)) changed
    case noisePeriod => exact fun _ => .inl h
    case nctrl => exact fun _ => h
    case tapmask => exact fun _ => h
    case latch => exact latch.resolve_left
    case toneOut => exact fun c changed => absurd (PerChan.get_set_other _ _ (ToneCh.chan_ne_n c)) changed
    case noiseOut => exact fun _ => .inr h
    case lfsr => exact fun _ => .inr h
    all_goals intros; contradiction

/-- R20's table for the FIFO, an operation `i` having left `q`. -/
structure FifoWriters (s : State) (i : Instr) (q : Fifo) : Prop where
  slots : q.slots ≠ s.fifo.slots → ∃ burst, i = .produce burst
  wcur : q.wcur ≠ s.fifo.wcur → ∃ burst, i = .produce burst
  rcur : q.rcur ≠ s.fifo.rcur → ∃ n, i = .consume n
  rObs : q.rObs ≠ s.fifo.rObs → i = .count ∨ ∃ burst, i = .produce burst
  wObs : q.wObs ≠ s.fifo.wObs → ∃ n, i = .consume n
  producing : q.producing = s.fifo.producing
  consuming : q.consuming = s.fifo.consuming

theorem exec_fifoWriters {i : Instr} {s t : State} (run : exec i s = .next t) (soft : i ≠ .resetHard) :
    FifoWriters s i t.fifo := by
  obtain ⟨fifo, -⟩ | ⟨burst, rfl, -, rfl⟩ | ⟨n, rfl, -, rfl⟩ | ⟨rfl, -, rfl⟩ | ⟨hard, -⟩ := exec_fifo_cases run
  · rw [fifo]
    exact ⟨absurd rfl, absurd rfl, absurd rfl, absurd rfl, absurd rfl, rfl, rfl⟩
  · rw [runProduce_fifo]
    exact ⟨fun _ => ⟨burst, rfl⟩, fun _ => ⟨burst, rfl⟩, absurd rfl, fun _ => .inr ⟨burst, rfl⟩, absurd rfl, rfl, rfl⟩
  · exact ⟨absurd rfl, absurd rfl, fun _ => ⟨n, rfl⟩, absurd rfl, fun _ => ⟨n, rfl⟩, rfl, rfl⟩
  · exact ⟨absurd rfl, absurd rfl, absurd rfl, fun _ => .inl rfl, absurd rfl, rfl, rfl⟩
  · exact absurd hard soft

/-- No operation changes an input (44_system_ops.md R233). -/
theorem exec_inputs {i : Instr} {s t : State} (run : exec i s = .next t) : t.cfgIn = s.cfgIn ∧ t.live = s.live := by
  obtain ⟨-, -, -, cfgIn, live, -⟩ | ⟨burst, -, -, rfl⟩ | ⟨n, -, -, rfl⟩ | ⟨-, -, rfl⟩ | ⟨-, -, rfl⟩ := exec_fifo_cases run
  · exact ⟨cfgIn, live⟩
  all_goals exact ⟨rfl, rfl⟩

/-- Settles O55: the PSG's rows by `PsgMove.writers`, the filter's by `exec_flt_cases`, the FIFO's by `exec_fifoWriters`. -/
theorem onlyTheNamedOperationsWriteEachState : Obligations.OnlyTheNamedOperationsWriteEachState := by
  unfold Obligations.OnlyTheNamedOperationsWriteEachState
  intro i s t run
  obtain ⟨cfgIn, live⟩ := exec_inputs run
  refine ⟨cfgIn, live, fun soft => ?_⟩
  have psg := (exec_psg run soft).writers
  have fifo := exec_fifoWriters run soft
  have flt : t.flt ≠ s.flt → ∃ xL xR, i = .filter xL xR := by
    intro changed
    obtain same | ⟨xL, xR, e, -⟩ | ⟨hard, -⟩ := exec_flt_cases run
    · exact absurd same changed
    · exact ⟨xL, xR, e⟩
    · exact absurd hard soft
  exact ⟨exec_cfg run soft, psg.tone, psg.tonePeriod, psg.noisePeriod, psg.nctrl, psg.tapmask, psg.volidx, psg.latch, psg.cnt,
    psg.toneOut, psg.noiseOut, psg.lfsr, flt, fifo.slots, fifo.wcur, fifo.rcur, fifo.rObs, fifo.wObs, fifo.producing,
    fifo.consuming⟩

/-! What is one agent's own. -/

/-- EMU's observation, its cursor, the slots and its operation in flight are the same. -/
def KeepsEmuSide (q q' : Fifo) : Prop :=
  q'.rObs = q.rObs ∧ q'.wcur = q.wcur ∧ q'.slots = q.slots ∧ q'.producing = q.producing

/-- AUD's observation, its cursor and its operation in flight are the same. -/
def KeepsAudSide (q q' : Fifo) : Prop := q'.wObs = q.wObs ∧ q'.rcur = q.rcur ∧ q'.consuming = q.consuming

theorem consumeAtom_keepsEmuSide (s : State) : KeepsEmuSide s.fifo (consumeAtom s).fifo := by
  cases hc : s.fifo.consuming with
  | none => rw [consumeAtom, hc]; exact ⟨rfl, rfl, rfl, rfl⟩
  | some c => obtain ⟨-, e⟩ | ⟨j, i, e', -, -, e⟩ := consumeAtom_cases hc <;> rw [e] <;> exact ⟨rfl, rfl, rfl, rfl⟩

theorem produceAtom_keepsAudSide (s : State) : KeepsAudSide s.fifo (produceAtom s).fifo := by
  cases hc : s.fifo.producing with
  | none => rw [produceAtom, hc]; exact ⟨rfl, rfl, rfl⟩
  | some c => obtain ⟨-, e⟩ | ⟨j, i, e', -, -, e⟩ := produceAtom_cases hc <;> rw [e] <;> exact ⟨rfl, rfl, rfl⟩

theorem AudMove.keepsEmuSide {s t : State} (move : AudMove s t) : KeepsEmuSide s.fifo t.fifo := by
  cases move with
  | nothing => exact ⟨rfl, rfl, rfl, rfl⟩
  | atom => exact consumeAtom_keepsEmuSide s
  | begins n _ => exact ⟨rfl, rfl, rfl, rfl⟩
  | whole n _ => exact ⟨rfl, rfl, rfl, rfl⟩

/-- What an operation of EMU's other than the hard reset leaves of AUD's side. -/
theorem exec_keepsAudSide {i : Instr} {s t : State} (run : exec i s = .next t) (own : i.agent = .emu) (soft : i ≠ .resetHard) :
    KeepsAudSide s.fifo t.fifo ∧ t.bus.popOut = s.bus.popOut ∧ t.env.audQ = s.env.audQ := by
  obtain ⟨fifo, pop, -, -, -, env⟩ | ⟨burst, -, -, rfl⟩ | ⟨n, rfl, -⟩ | ⟨-, -, rfl⟩ | ⟨hard, -⟩ := exec_fifo_cases run
  · rw [fifo, pop, env]; exact ⟨⟨rfl, rfl, rfl⟩, rfl, rfl⟩
  · rw [runProduce_fifo]; exact ⟨⟨rfl, rfl, rfl⟩, rfl, (runProduce_onlyFifo burst s).audQ⟩
  · cases own
  · exact ⟨⟨rfl, rfl, rfl⟩, rfl, (runCount_onlyFifo s).audQ⟩
  · exact absurd hard soft

theorem EmuMove.keepsAudSide {p : Prop} {s t : State} (move : EmuMove p s t) (soft : ¬ p) :
    KeepsAudSide s.fifo t.fifo ∧ t.bus.popOut = s.bus.popOut ∧ t.env.audQ = s.env.audQ := by
  cases move with
  | nothing => exact ⟨⟨rfl, rfl, rfl⟩, rfl, rfl⟩
  | atom => exact ⟨produceAtom_keepsAudSide s, congrArg _ (produceAtom_bus s), (produceAtom_onlyFifo s).audQ⟩
  | begins burst _ => exact ⟨⟨rfl, rfl, rfl⟩, rfl, (produceBegin_onlyFifo burst s).audQ⟩
  | operation own hard run => exact exec_keepsAudSide run own (soft ∘ hard)
  | live _ => exact ⟨⟨rfl, rfl, rfl⟩, rfl, rfl⟩
  | params _ => exact ⟨⟨rfl, rfl, rfl⟩, rfl, rfl⟩

/-- Settles O56: each agent's turn is one of its moves, and each of them keeps the other's side. -/
theorem agentsKeepOutOfEachOthersState : Obligations.AgentsKeepOutOfEachOthersState := by
  unfold Obligations.AgentsKeepOutOfEachOthersState
  intro whole s t
  constructor
  · intro run
    obtain ⟨q, move⟩ := audTurn_cases run
    obtain ⟨psg, flt, cfg, cfgIn, live, emuQ, -⟩ := move.onlyFifo
    obtain ⟨rObs, wcur, slots, producing⟩ := move.keepsEmuSide
    exact ⟨psg, flt, cfg, cfgIn, live, rObs, wcur, slots, producing, emuQ⟩
  · intro run soft
    obtain ⟨q, -, move⟩ := emuTurn_cases run
    obtain ⟨⟨wObs, rcur, consuming⟩, pop, audQ⟩ := move.keepsAudSide fun ⟨idle, hard⟩ => soft idle hard
    exact ⟨wObs, rcur, consuming, pop, audQ⟩

end Sys2Proof.Machine
end

section
/-! From a turn to the operation it runs (00_scope.md R9; 20_memory.md R76; 60_exceptions.md R250; 44_system_ops.md R233). -/
namespace Sys2Proof.Machine

theorem emuTurn_of_event {s : State} {e : HostEvent} {rest : List HostEvent} (whole : Bool) (idle : s.fifo.producing = none)
    (queue : s.env.emuQ = e :: rest) : emuTurn whole s = hostEvent whole e (s.setEnv { s.env with emuQ := rest }) := by
  rw [emuTurn, idle, queue]

theorem audTurn_of_use {s : State} {u : PortUse} {rest : List PortUse} (whole : Bool) (idle : s.fifo.consuming = none)
    (queue : s.env.audQ = u :: rest) : audTurn whole s = issueUse .aud whole u (s.setEnv { s.env with audQ := rest }) := by
  rw [audTurn, idle, queue]

theorem step_of_turn {s : State} {turn : Turn} {turns : List Turn} (next : s.env.turns = turn :: turns) :
    step s = runTurn turn (s.setEnv { s.env with turns := turns }) := by
  rw [step, nextTurn, next]

theorem issueUse_own {a : Agent} {u : PortUse} (own : u.agent = a) (whole : Bool) (s : State) :
    issueUse a whole u s = runInstr whole (decode u) s := if_pos own

theorem issueUse_foreign {a : Agent} {u : PortUse} (foreign : u.agent ≠ a) (whole : Bool) (s : State) :
    issueUse a whole u s = .refused .wrongAgent := if_neg foreign

/-- Settles O57: whichever the turn, the use is issued first, and its port is another agent's (`issueUse_foreign`). -/
theorem wrongAgentIsRefused : Obligations.WrongAgentIsRefused := by
  unfold Obligations.WrongAgentIsRefused
  intro s whole u
  constructor
  · intro rest idle queue owner
    rw [emuTurn_of_event whole idle queue]
    exact issueUse_foreign (by rw [owner]; decide) whole _
  · intro rest idle queue owner
    rw [audTurn_of_use whole idle queue]
    exact issueUse_foreign (by rw [owner]; decide) whole _

/-- Settles O60: the event at the head of the queue is a change of an input, which writes that input. -/
theorem inputChangesWriteNoState : Obligations.InputChangesWriteNoState := by
  unfold Obligations.InputChangesWriteNoState
  intro s whole rest p b q idle
  exact ⟨emuTurn_of_event whole idle, emuTurn_of_event whole idle, emuTurn_of_event whole idle, emuTurn_of_event whole idle⟩

theorem runInstr_whole (i : Instr) (s : State) : runInstr true i s = exec i s := rfl

theorem runInstr_atom (i : Instr) (s : State) : runInstr false i s = beginInstr i s := rfl

/-- A turn of EMU, whole or by an atom, runs its next use. -/
theorem step_of_emu_use {whole : Bool} {turn : Turn} (emu : ∀ s, runTurn turn s = emuTurn whole s) {s : State} {u : PortUse}
    {turns : List Turn} {rest : List HostEvent} (own : u.agent = .emu) (idle : s.fifo.producing = none)
    (queue : s.env.emuQ = .use u :: rest) (next : s.env.turns = turn :: turns) :
    step s = runInstr whole (decode u) { s with env := { s.env with turns := turns, emuQ := rest } } := by
  rw [step_of_turn next, emu, emuTurn_of_event (s := s.setEnv { s.env with turns := turns }) whole idle queue]
  exact issueUse_own own whole _

/-- A turn of AUD, whole or by an atom, runs its next use. -/
theorem step_of_aud_use {whole : Bool} {turn : Turn} (aud : ∀ s, runTurn turn s = audTurn whole s) {s : State} {u : PortUse}
    {turns : List Turn} {rest : List PortUse} (own : u.agent = .aud) (idle : s.fifo.consuming = none)
    (queue : s.env.audQ = u :: rest) (next : s.env.turns = turn :: turns) :
    step s = runInstr whole (decode u) { s with env := { s.env with turns := turns, audQ := rest } } := by
  rw [step_of_turn next, aud, audTurn_of_use (s := s.setEnv { s.env with turns := turns }) whole idle queue]
  exact issueUse_own own whole _

/-- PRODUCE apart, an operation of EMU is one atom (R76). -/
theorem beginInstr_eq_exec {i : Instr} (own : i.agent = .emu) (notProduce : ∀ burst, i ≠ .produce burst) (s : State) :
    beginInstr i s = exec i s := by
  cases i with
  | produce burst => exact absurd rfl (notProduce burst)
  | consume n => cases own
  | _ => rfl

theorem startProduce_of_inRange {s : State} {burst : List Frame} (inRange : ∀ f ∈ burst, f.InRange)
    (idle : s.fifo.producing = none) : startProduce burst s = .next (produceBegin burst s) := by
  rw [startProduce, idle]
  exact if_pos (decide_eq_true inRange)

theorem startConsume_of_idle {s : State} (n : Nat) (idle : s.fifo.consuming = none) :
    startConsume n s = .next (consumeBegin n s) := by
  rw [startConsume, idle]

/-- Settles O58: the step is the turn, the turn issues the use, and the use of one's own port runs or begins what it decodes to. -/
theorem stepRunsTheDecodedOperation : Obligations.StepRunsTheDecodedOperation := by
  unfold Obligations.StepRunsTheDecodedOperation
  intro s u turns
  constructor
  · intro rest own idle queue
    refine ⟨fun next => ?_, fun next notProduce => ?_, fun next burst e inRange => ?_⟩
    · rw [step_of_emu_use (whole := true) (fun _ => rfl) own idle queue next, runInstr_whole]
    · rw [step_of_emu_use (whole := false) (fun _ => rfl) own idle queue next, runInstr_atom]
      exact beginInstr_eq_exec ((decode_agent u).trans own) notProduce _
    · rw [step_of_emu_use (whole := false) (fun _ => rfl) own idle queue next, runInstr_atom, e]
      exact startProduce_of_inRange inRange idle
  · intro rest own idle queue
    refine ⟨fun next => ?_, fun next n e => ?_⟩
    · rw [step_of_aud_use (whole := true) (fun _ => rfl) own idle queue next, runInstr_whole]
    · rw [step_of_aud_use (whole := false) (fun _ => rfl) own idle queue next, runInstr_atom, e]
      exact startConsume_of_idle n idle

/-- No table word stands for a use of AUD's port (log 2). -/
theorem tableUse_agent {nbits w : Nat} {u : PortUse} (h : tableUse nbits w = some u) : u.agent = .emu := by
  unfold tableUse at h
  split_ifs at h <;> cases h <;> rfl

/-- Settles O59: the placed use is EMU's and first in its queue, on a whole turn (`step_of_emu_use`). -/
theorem placedWordRunsNext : Obligations.PlacedWordRunsNext := by
  unfold Obligations.PlacedWordRunsNext
  intro s nbits w i decoded
  obtain ⟨u, placed, rfl⟩ := Option.map_eq_some_iff.mp decoded
  have own := tableUse_agent placed
  rw [State.withFetchWord, placed]
  dsimp only
  rw [placeUse, own]
  exact step_of_emu_use (whole := true) (turn := .whole .emu) (fun _ => rfl) own rfl rfl rfl

end Sys2Proof.Machine
end

section
/-! What the three FIFO operations do, in the terms of 43_fifo_ops.md: observations, slots, and the bounded queue (R200 to R215;
20_memory.md R72, R77). -/
namespace Sys2Proof.Machine

/-! Observations. -/

/-- An acquire load of `RCUR` returns an element of `H(RCUR)` not older than the last one, and remembers it (R72). -/
theorem loadRcur_observes (s : State) : ∃ j, (s.fifo.rObs :: s.fifo.unseenR)[j]? = some s.loadRcur.fifo.rObs ∧
    s.loadRcur.fifo = { s.fifo with rObs := s.loadRcur.fifo.rObs, unseenR := s.fifo.unseenR.drop j } := by
  obtain ⟨k, e, hk, -, eq⟩ := s.loadRcur_cases
  have lt : k < (s.fifo.rObs :: s.fifo.unseenR).length := Nat.lt_succ_of_le hk
  rw [eq]
  exact ⟨k, by rw [List.getD, List.getElem?_eq_getElem lt]; rfl, rfl⟩

/-- An acquire load of `WCUR` returns an element of `H(WCUR)` not older than the last one, and remembers it (R72). -/
theorem loadWcur_observes (s : State) : ∃ j, (s.fifo.wObs :: s.fifo.unseenW)[j]? = some s.loadWcur.fifo.wObs ∧
    s.loadWcur.fifo = { s.fifo with wObs := s.loadWcur.fifo.wObs, unseenW := s.fifo.unseenW.drop j } := by
  obtain ⟨k, e, hk, -, eq⟩ := s.loadWcur_cases
  have lt : k < (s.fifo.wObs :: s.fifo.unseenW).length := Nat.lt_succ_of_le hk
  rw [eq]
  exact ⟨k, by rw [List.getD, List.getElem?_eq_getElem lt]; rfl, rfl⟩

/-- Settles O40: the environment supplies the place of the value in the history as the draw (`Env.choose_supplied`). -/
theorem everyAdmittedObservationHappens : Obligations.EveryAdmittedObservationHappens := by
  unfold Obligations.EveryAdmittedObservationHappens
  intro s j
  constructor
  · intro r hr
    obtain ⟨lt, -⟩ := List.getElem?_eq_some_iff.mp hr
    refine ⟨[j], ?_⟩
    have drawn := Env.choose_supplied s.env [] lt
    rw [List.length_cons] at drawn
    simp only [State.loadRcur, State.setEnv_fifo, State.setEnv_env, drawn, List.getD, hr, Option.getD_some]
  · intro w hw
    obtain ⟨lt, -⟩ := List.getElem?_eq_some_iff.mp hw
    refine ⟨[j], ?_⟩
    have drawn := Env.choose_supplied s.env [] lt
    rw [List.length_cons] at drawn
    simp only [State.loadWcur, State.setEnv_fifo, State.setEnv_env, drawn, List.getD, hw, Option.getD_some]

/-! The whole operations. -/

theorem accepted_length (burst : List Frame) (s : State) : (accepted burst s).length =
    min burst.length (s.cfg.capacity - 1 - ringDist s.cfg.capacity s.loadRcur.fifo.rObs s.fifo.wcur) := by
  rw [accepted, List.length_take, Nat.min_comm]; rfl

/-- Settles O37: the load by `loadRcur_observes`, the slots by `runProduce_landed` and `runProduce_lookup_other`. -/
theorem produceStoresWhatFits : Obligations.ProduceStoresWhatFits := by
  unfold Obligations.ProduceStoresWhatFits
  intro s burst inRange idle
  obtain ⟨j, observed, loaded⟩ := loadRcur_observes s
  refine ⟨_, j, _, exec_produce_of_inRange inRange idle, observed, ?_⟩
  simp only [← accepted_length, runProduce_fifo]
  refine ⟨trivial, by rw [loaded], fun i hi => ?_, fun x other => ?_, rfl, rfl, rfl, rfl, idle, rfl, runProduce_onlyFifo burst s, rfl⟩
  · have landed := runProduce_landed burst s hi
    rw [runProduce_fifo] at landed
    refine landed.trans (List.getElem?_take_of_lt ?_)
    exact hi.trans_le (accepted_le_free burst s)
  · have kept := runProduce_lookup_other burst s other
    rw [runProduce_fifo] at kept
    exact kept

/-- The frames a whole CONSUME puts on its bus, as read. -/
theorem runConsume_popOut (n : Nat) (s : State) : (runConsume n s).bus.popOut =
    (List.range (min n (availFrames s.cfg.capacity s.loadWcur.fifo))).map
      (fun i => s.loadWcur.slotRead (advance s.cfg.capacity s.fifo.rcur i)) ++
    List.replicate (n - min n (availFrames s.cfg.capacity s.loadWcur.fifo)) Frame.zero := rfl

/-- Settles O38: the load by `loadWcur_observes`, the frames off the bus by `runConsume_popOut`. -/
theorem consumeDeliversThenFillsWithSilence : Obligations.ConsumeDeliversThenFillsWithSilence := by
  unfold Obligations.ConsumeDeliversThenFillsWithSilence
  intro s n idle
  obtain ⟨j, observed, loaded⟩ := loadWcur_observes s
  refine ⟨_, j, _, exec_consume_of_idle n idle, observed, rfl, congrArg Fifo.unseenW loaded, ?_⟩
  have real : min n (ringDist s.cfg.capacity s.fifo.rcur s.loadWcur.fifo.wObs) =
      min n (availFrames s.cfg.capacity s.loadWcur.fifo) := rfl
  have fits : min n (availFrames s.cfg.capacity s.loadWcur.fifo) ≤ n := Nat.min_le_left ..
  simp only [real, runConsume_popOut]
  refine ⟨?_, fun i f hi written => ?_, fun i hi hn => ?_, rfl, rfl, rfl, rfl, rfl, rfl, idle, runConsume_onlyFifo n s, rfl⟩
  · simp only [List.length_append, List.length_map, List.length_range, List.length_replicate]; omega
  · have read : s.loadWcur.slotRead (advance s.cfg.capacity s.fifo.rcur i) = f := State.slotRead_of_lookup written
    rw [List.getElem?_append_left (by simpa using hi), List.getElem?_map, List.getElem?_range hi, Option.map_some, read]
  · rw [List.getElem?_append_right (by simpa using hi), List.length_map, List.length_range, List.getElem?_replicate,
      if_pos (by omega)]
    rfl

/-- Settles O39: COUNT is the load (`loadRcur_observes`) and the distance it sees. -/
theorem countReturnsTheObservedDistance : Obligations.CountReturnsTheObservedDistance := by
  unfold Obligations.CountReturnsTheObservedDistance
  intro s idle
  obtain ⟨j, observed, loaded⟩ := loadRcur_observes s
  exact ⟨_, j, _, exec_count_of_idle idle, observed, rfl, loaded, runCount_onlyFifo s⟩

/-! What the invariant says of operations in flight. -/

/-- Settles O42: a read still to come is of a valid frame, and no pending write goes to one (`FifoInv.pending_ne_valid`). -/
theorem noDataRaceOnSlots : Obligations.NoDataRaceOnSlots := by
  unfold Obligations.NoDataRaceOnSlots
  intro cap q p c _ h producing consuming w hw i hi
  have valid := ((h.consuming c consuming).own i hi).trans_le (h.got_le_fill consuming)
  exact (h.pending_ne_valid producing hw valid).symm

/-- Settles O48: with writes left the atom is one of them, and it leaves every valid frame (`FifoInv.queue_slotWrite`). -/
theorem slotWritesAreInvisibleBeforeTheStore : Obligations.SlotWritesAreInvisibleBeforeTheStore := by
  unfold Obligations.SlotWritesAreInvisibleBeforeTheStore
  intro s c _ h producing left
  obtain ⟨done, -⟩ | ⟨j, w, e', hw, -, e⟩ := produceAtom_cases producing
  · exact absurd done left
  · rw [e]
    exact ⟨rfl, rfl, rfl, rfl, h.queue_slotWrite producing hw _⟩

/-! Stale and fresh observations. -/

theorem CursorInv.rObs_eq {cap : Nat} {q : Fifo} (h : CursorInv cap q) (seen : q.unseenR = []) : q.rObs = q.rcur := by
  have latest := h.latestR
  rw [seen] at latest
  exact Option.some.inj latest

theorem CursorInv.wObs_eq {cap : Nat} {q : Fifo} (h : CursorInv cap q) (seen : q.unseenW = []) : q.wObs = q.wcur := by
  have latest := h.latestW
  rw [seen] at latest
  exact Option.some.inj latest

/-- Settles O43: the cursors' ring order (`CursorInv.order`), and with everything seen the observations are the cursors. -/
theorem staleObservationsAreConservative : Obligations.StaleObservationsAreConservative := by
  unfold Obligations.StaleObservationsAreConservative
  intro cap q _ h
  obtain ⟨whole, -, lap⟩ := h.order
  have avail := h.avail_le_fill
  have count : q.fill cap ≤ ringDist cap q.rObs q.wcur := by
    have := h.fill_add_free
    obtain ⟨-, fill, -⟩ := h.order
    unfold Fifo.fill; omega
  refine ⟨Nat.sub_le_sub_left count _, avail, count, lap, fun seen => ?_, fun seen => ?_⟩
  · rw [freeSlots, h.rObs_eq seen]; exact ⟨rfl, rfl⟩
  · rw [availFrames, h.wObs_eq seen]; rfl

/-! The bounded queue. -/

@[simp] theorem queue_length (cap : Nat) (q : Fifo) : (q.queue cap).length = q.fill cap := slotRun_length ..

theorem loadRcur_rObs_of_seen {s : State} (seen : s.fifo.unseenR = []) : s.loadRcur.fifo.rObs = s.fifo.rObs := by
  obtain ⟨j, observed, -⟩ := loadRcur_observes s
  rw [seen] at observed
  obtain ⟨lt, e⟩ := List.getElem?_eq_some_iff.mp observed
  obtain rfl : j = 0 := by simpa using lt
  exact e.symm

theorem loadWcur_wObs_of_seen {s : State} (seen : s.fifo.unseenW = []) : s.loadWcur.fifo.wObs = s.fifo.wObs := by
  obtain ⟨j, observed, -⟩ := loadWcur_observes s
  rw [seen] at observed
  obtain ⟨lt, e⟩ := List.getElem?_eq_some_iff.mp observed
  obtain rfl : j = 0 := by simpa using lt
  exact e.symm

/-- With everything observed, what fits is what the queue leaves room for. -/
theorem FifoInv.accepted_of_seen {s : State} (burst : List Frame) (h : FifoInv s.cfg.capacity s.fifo)
    (seen : s.fifo.unseenR = []) :
    accepted burst s = burst.take (s.cfg.capacity - 1 - (s.fifo.queue s.cfg.capacity).length) := by
  have observed : s.loadRcur.fifo.rObs = s.fifo.rcur := (loadRcur_rObs_of_seen seen).trans (h.cursors.rObs_eq seen)
  rw [accepted, freeSlots, observed, queue_length]; rfl

/-- With everything observed, what is available is the whole queue. -/
theorem FifoInv.avail_of_seen {s : State} (h : FifoInv s.cfg.capacity s.fifo) (seen : s.fifo.unseenW = []) :
    availFrames s.cfg.capacity s.loadWcur.fifo = (s.fifo.queue s.cfg.capacity).length := by
  have observed : s.loadWcur.fifo.wObs = s.fifo.wcur := (loadWcur_wObs_of_seen seen).trans (h.cursors.wObs_eq seen)
  rw [availFrames, observed, queue_length]; rfl

/-- Settles O45: PRODUCE adds what it accepts (`FifoInv.queue_runProduce`), CONSUME takes what it delivers (`CursorInv.queue_take`),
and fresh observations make both exact. -/
theorem sequentiallyABoundedQueue : Obligations.SequentiallyABoundedQueue := by
  unfold Obligations.SequentiallyABoundedQueue
  intro s _ h producing consuming seenR seenW q
  refine ⟨fun burst inRange => ?_, fun n => ?_, ?_⟩
  · refine ⟨_, exec_produce_of_inRange inRange producing, ?_⟩
    rw [(runProduce_onlyFifo burst s).cfg, h.queue_runProduce burst producing, h.accepted_of_seen burst seenR]
  · have avail := h.avail_of_seen seenW
    have fits : min n q.length ≤ s.fifo.fill s.cfg.capacity := by rw [queue_length]; exact Nat.min_le_right ..
    have taken := h.cursors.queue_take (q' := (runConsume n s).fifo) fits rfl rfl (by rw [← avail]; rfl)
    have front : slotRun s.cfg.capacity s.fifo.slots s.fifo.rcur (min n q.length) = q.take n := by
      rw [List.take_eq_take_min]
      exact (List.take_left' (slotRun_length ..)).symm.trans (congrArg _ taken.symm)
    have back : (runConsume n s).fifo.queue s.cfg.capacity = q.drop n := by
      rw [front] at taken
      exact List.append_cancel_left (taken.symm.trans (List.take_append_drop n q).symm)
    refine ⟨_, exec_consume_of_idle n consuming, back, ?_⟩
    rw [h.runConsume_bus n consuming, avail]
    change slotRun _ _ _ (min n q.length) ++ List.replicate (n - min n q.length) Frame.zero = _
    have silence : n - min n q.length = n - q.length := by omega
    rw [front, silence]; rfl
  · refine ⟨_, exec_count_of_idle producing, ?_⟩
    have observed := (loadRcur_rObs_of_seen seenR).trans (h.cursors.rObs_eq seenR)
    change ringDist s.cfg.capacity s.loadRcur.fifo.rObs s.fifo.wcur = _
    rw [observed, queue_length]; rfl

end Sys2Proof.Machine
end

section
/-! The encoding (30_encoding.md R92 to R102). -/
namespace Sys2Proof

/-! Bytes: 256 of them, so a fact about each is checked on each. -/

/-- Settles O3: all 256 bytes. -/
theorem byteDecodesByItsBits : Obligations.ByteDecodesByItsBits := by
  unfold Obligations.ByteDecodesByItsBits
  decide +kernel

/-- Settles O4: all 256 bytes against the nine rows. -/
theorem everyByteSelectsExactlyItsRow : Obligations.EveryByteSelectsExactlyItsRow := by
  unfold Obligations.EveryByteSelectsExactlyItsRow
  decide +kernel

/-- Settles O5: each word is read by the decoder. -/
theorem writtenWordsDecode : Obligations.WrittenWordsDecode := by
  unfold Obligations.WrittenWordsDecode
  decide

theorem encode_decodeByte (b : Byte) : encode (decodeByte b) = (PortUse.psgWr b).canonical := by
  revert b; decide +kernel

theorem decode_encode_toneLatchOf (c : ToneCh) (d : BitVec 4) :
    decode (encode (toneLatchOf c d)) = toneLatchOf c d := by
  revert d; cases c <;> decide

theorem decode_encode_volWriteOf (c : Chan) (d : BitVec 4) : decode (encode (volWriteOf c d)) = volWriteOf c d := by
  revert d; cases c <;> decide

theorem decode_encode_noiseCtrl (f : BitVec 1) (nn : BitVec 2) : decode (encode (.noiseCtrl f nn)) = .noiseCtrl f nn := by
  revert f nn; decide

theorem decode_encode_data (u : BitVec 6) : decode (encode (.data u)) = .data u := by
  revert u; decide

/-! Plain operands. -/

theorem toNat_ofNat16 {n : Nat} (fits : n < 65536) : (BitVec.ofNat 16 n).toNat = n := by
  rw [BitVec.toNat_ofNat]; exact Nat.mod_eq_of_lt fits

theorem map_frameOfWord_wordOfFrame {burst : List Frame} (inRange : ∀ f ∈ burst, f.InRange) :
    (burst.map wordOfFrame).map frameOfWord = burst := by
  rw [List.map_map]
  exact (List.map_congr_left (g := id) fun f hf => frameOfWord_wordOfFrame (inRange f hf)).trans (List.map_id burst)

/-- Settles O1: the bytes one by one over their fields, the plain operands by their words. -/
theorem decodeOfEncodeIsTheInstruction : Obligations.DecodeOfEncodeIsTheInstruction := by
  unfold Obligations.DecodeOfEncodeIsTheInstruction
  intro i wf
  cases i with
  | toneLatch0 d => exact decode_encode_toneLatchOf .t0 d
  | toneLatch1 d => exact decode_encode_toneLatchOf .t1 d
  | toneLatch2 d => exact decode_encode_toneLatchOf .t2 d
  | volWrite0 d => exact decode_encode_volWriteOf .t0 d
  | volWrite1 d => exact decode_encode_volWriteOf .t1 d
  | volWrite2 d => exact decode_encode_volWriteOf .t2 d
  | volWrite3 d => exact decode_encode_volWriteOf .n d
  | noiseCtrl f nn => exact decode_encode_noiseCtrl f nn
  | data u => exact decode_encode_data u
  | update n => exact congrArg Instr.update (toNat_ofNat16 (of_decide_eq_true wf))
  | mix fmL fmR psg =>
    obtain ⟨left, right, fits⟩ := of_decide_eq_true wf
    rw [encode, decode, top_of_append48, middle_of_append48, bottom_of_append48, toInt_ofInt_sample left,
      toInt_ofInt_sample right, toNat_ofNat16 fits]
  | filter xL xR =>
    have inRange : (Frame.mk xL xR).InRange := of_decide_eq_true wf
    rw [encode, decode, frameOfWord_wordOfFrame inRange]
  | produce burst => exact congrArg Instr.produce (map_frameOfWord_wordOfFrame (of_decide_eq_true wf))
  | consume n => exact congrArg Instr.consume (toNat_ofNat16 (of_decide_eq_true wf))
  | sample => rfl
  | count => rfl
  | resetHard => rfl
  | resetSoft => rfl

/-- Settles O2: on `PSG_WR` byte by byte, on the other ports because their operand words survive. -/
theorem encodeOfDecodeClearsOnlyIgnoredBits : Obligations.EncodeOfDecodeClearsOnlyIgnoredBits := by
  unfold Obligations.EncodeOfDecodeClearsOnlyIgnoredBits
  intro u
  cases u with
  | psgWr b => exact encode_decodeByte b
  | psgUpd n => exact congrArg PortUse.psgUpd (BitVec.ofNat_toNat ..)
  | mixIn w =>
    rw [decode, encode, BitVec.ofInt_toInt, BitVec.ofInt_toInt, BitVec.ofNat_toNat, BitVec.setWidth_eq, append_thirds]
    rfl
  | fltIn w => exact congrArg PortUse.fltIn (wordOfFrame_frameOfWord w)
  | fifoPush ws =>
    refine congrArg PortUse.fifoPush ?_
    rw [List.map_map]
    exact (List.map_congr_left (g := id) fun w _ => wordOfFrame_frameOfWord w).trans (List.map_id ws)
  | fifoPop n => exact congrArg PortUse.fifoPop (BitVec.ofNat_toNat ..)
  | rst h => revert h; decide
  | psgSmp => rfl
  | fifoCnt => rfl

end Sys2Proof
end
